-- ==== Sys2Proof/Word.lean ====
section
/-! DEFINITION. The words of HUFF-CORE: 32-bit registers and command words, 8-bit symbols, and bit sequences. -/

namespace Sys2Proof

/-- A register or a command word: REG_W = 32 bits (R7). Bit 0 is the least significant (R8). -/
abbrev Word := BitVec 32

/-- A symbol, SYM_W = 8 bits (R7), or another 8-bit quantity (a code length). -/
abbrev Byte := BitVec 8

/-- A bit sequence (R9): `false` is 0 (left), `true` is 1 (right). The first bit comes first; in a code it is the one nearest
the root. -/
abbrev Bits := List Bool

end Sys2Proof
end

