-- ==== Sys2Proof/Syntax.lean ====
section
/-! DEFINITION. The commands of HUFF-CORE: one constructor for each row of spec/opcode_table.json (R82), with its operand fields
(R81, R83). -/

namespace Sys2Proof

/-- A command. A TLOAD is its header; its data words have no opcode (R80) and are no rows of the table. -/
inductive Instr where
  /-- 0x0, format Z (R115). -/
  | nop
  /-- 0x1, format Z (R116). -/
  | srst
  /-- 0x2, format S (R130). -/
  | count (sym : Byte)
  /-- 0x3, format Z (R140). -/
  | build
  /-- 0x4, format Z (R160). -/
  | gen
  /-- 0x5, format S (R180). -/
  | enc (sym : Byte)
  /-- 0x6, format T (R190). -/
  | tload (len sym : Byte)
  /-- 0x7, format Z (R200). -/
  | tfin
  /-- 0x8, format D (R210): NM1 is the bit count minus 1. -/
  | dec (nm1 : BitVec 4) (bits : BitVec 16)
  /-- 0x9, format Z (R215). -/
  | dfin
  deriving DecidableEq, Repr

end Sys2Proof
end

