-- ==== Sys2Proof/WellFormed.lean ====
section
/-! DEFINITION. Which operands a command may carry (R83, R86). -/

namespace Sys2Proof

/-- "LEN = w[15:8] ... Values 1 to 255 are legal and 0 is illegal" (R83); every other operand value is legal. -/
def Instr.wellFormed : Instr → Bool
  | .tload len _ => len != 0#8
  | .nop | .srst | .count _ | .build | .gen | .enc _ | .tfin | .dec _ _ | .dfin => true

end Sys2Proof
end

