-- ==== Sys2Proof/Decode.lean ====
section
/-! DEFINITION. The command words: decoding (R86, R88), encoding (R81, R82), bit sequences in words (R84, R85), and the word lists
of the assembler and the pseudo-instructions (R89, R90). -/

namespace Sys2Proof

/-! ## Bits in words -/

/-- The 32 bits of a word, most significant first (R84, R192). -/
def wordBits (w : Word) : Bits := (List.range 32).map fun i => w.getLsbD (31 - i)

/-- A bit sequence read as a binary number, first bit most significant. -/
def bitsToNat (c : Bits) : Nat := c.foldl (fun n b => 2 * n + b.toNat) 0

/-- At most 32 bits in a word, the first in bit 31, the unused low bits 0 (R84). -/
def packWord (c : Bits) : Word := BitVec.ofNat 32 (bitsToNat (c ++ List.replicate (32 - c.length) false))

/-- K = ceil(len / 32), the data words a code of `len` bits takes (R84). -/
def dataWords (len : Nat) : Nat := (len + 31) / 32

/-- A code packed into its data words (R84, R164). -/
def packCode (c : Bits) : List Word := (List.range (dataWords c.length)).map fun k => packWord ((c.drop (32 * k)).take 32)

/-! ## Encoding -/

/-- The word of a command, read off the bit patterns of R82. -/
def encode : Instr → Word
  | .nop => 0x00000000#32
  | .srst => 0x10000000#32
  | .count sym => 0x200000#24 ++ sym
  | .build => 0x30000000#32
  | .gen => 0x40000000#32
  | .enc sym => 0x500000#24 ++ sym
  | .tload len sym => 0x6000#16 ++ len ++ sym
  | .tfin => 0x70000000#32
  | .dec nm1 bits => 0x800#12 ++ nm1 ++ bits
  | .dfin => 0x90000000#32

/-! ## Decoding -/

/-- The results of the decode function (R88). -/
inductive Decoded where
  /-- a well-formed command -/
  | instr (i : Instr)
  /-- PEND = 1: the word is data, whatever its bits are (R191) -/
  | data (w : Word)
  /-- OPC in 0xA to 0xF (R86) -/
  | badOpc
  /-- a reserved field is not 0, or a TLOAD with LEN = 0 (R86) -/
  | badCmd
  deriving DecidableEq, Repr

/-- w[31:28] (R80). -/
def opcField (w : Word) : BitVec 4 := w.extractLsb' 28 4

/-- w[7:0] (R83). -/
def symField (w : Word) : Byte := w.extractLsb' 0 8

/-- w[15:8] (R83). -/
def lenField (w : Word) : Byte := w.extractLsb' 8 8

/-- w[19:16] (R83). -/
def nm1Field (w : Word) : BitVec 4 := w.extractLsb' 16 4

/-- w[15:0] (R81). -/
def bitsField (w : Word) : BitVec 16 := w.extractLsb' 0 16

/-- A format with no operand (Z): w[27:0] must be 0. -/
def decodeZ (w : Word) (i : Instr) : Decoded := if w.extractLsb' 0 28 = 0#28 then .instr i else .badCmd

/-- A format with a symbol (S): w[27:8] must be 0. -/
def decodeS (w : Word) (f : Byte → Instr) : Decoded := if w.extractLsb' 8 20 = 0#20 then .instr (f (symField w)) else .badCmd

/-- The TLOAD header (T): w[27:16] must be 0 and LEN must not. -/
def decodeT (w : Word) : Decoded :=
  if w.extractLsb' 16 12 = 0#12 ∧ lenField w ≠ 0#8 then .instr (.tload (lenField w) (symField w)) else .badCmd

/-- DEC (D): w[27:20] must be 0. -/
def decodeD (w : Word) : Decoded :=
  if w.extractLsb' 20 8 = 0#8 then .instr (.dec (nm1Field w) (bitsField w)) else .badCmd

/-- decode(w, 0) of R88: the word is a command, or it is rejected by name. -/
def decodeCommand (w : Word) : Decoded :=
  match opcField w with
  | 0x0#4 => decodeZ w .nop
  | 0x1#4 => decodeZ w .srst
  | 0x2#4 => decodeS w .count
  | 0x3#4 => decodeZ w .build
  | 0x4#4 => decodeZ w .gen
  | 0x5#4 => decodeS w .enc
  | 0x6#4 => decodeT w
  | 0x7#4 => decodeZ w .tfin
  | 0x8#4 => decodeD w
  | 0x9#4 => decodeZ w .dfin
  | _ => .badOpc

/-- The decode function, total on every word, given PEND (R88). -/
def decode (w : Word) (pend : Bool) : Decoded := if pend then .data w else decodeCommand w

/-- How many words a command takes, told from its first word alone (R87). -/
def commandLength (w : Word) : Nat :=
  match decodeCommand w with
  | .instr (.tload len _) => 1 + dataWords len.toNat
  | .instr _ | .data _ | .badOpc | .badCmd => 1

/-- Word k of an instruction whose bits are w, bit 0 the least significant of the first word; the bits from `nbits` up are 0. -/
def tableWord (nbits w k : Nat) : Word := BitVec.ofNat 32 ((w % 2 ^ nbits) >>> (32 * k))

/-- All the words of that instruction: its first, and the data words a TLOAD header asks for. -/
def tableWords (nbits w : Nat) : List Word :=
  (List.range (commandLength (tableWord nbits w 0))).map (tableWord nbits w)

/-- The instruction the decoder reads from an instruction whose bits are w, as spec/opcode_table.json numbers them. -/
def decodeTableWord (nbits w : Nat) : Option Instr :=
  match decodeCommand (tableWord nbits w 0) with
  | .instr i => some i
  | .data _ | .badOpc | .badCmd => none

/-! ## The assembler's word lists (R89, R90) -/

/-- `TLOAD sym, "code"` (R89): the header and its data words, the unused bits 0. It is also one entry of TBL_OUT (R91, R164). -/
def entryWords (sym : Byte) (code : Bits) : List Word :=
  encode (.tload (BitVec.ofNat 8 code.length) sym) :: packCode code

/-- `DEC "bits"` (R89), for 1 to 16 bits: placed from bit 15 downward, the unused low bits 0. -/
def decWord (c : Bits) : Word :=
  encode (.dec (BitVec.ofNat 4 (c.length - 1)) ((packWord c).extractLsb' 16 16))

/-- `DECS "bits"` (R90): ceil(n/16) DEC commands, 16 bits each and the rest in the last. -/
def decsWords (c : Bits) : List Word :=
  (List.range ((c.length + 15) / 16)).map fun k => decWord ((c.drop (16 * k)).take 16)

/-- `COUNTS s1, ..., sm` (R90). -/
def countsWords (bs : List Byte) : List Word := bs.map fun b => encode (.count b)

/-- `ENCS s1, ..., sm` (R90). -/
def encsWords (bs : List Byte) : List Word := bs.map fun b => encode (.enc b)

/-- `ENCODE s1, ..., sm` (R90). -/
def encodeWords (bs : List Byte) : List Word :=
  encode .srst :: countsWords bs ++ [encode .build, encode .gen] ++ encsWords bs

/-- `DECODE table, "bits"` (R90). -/
def decodeWords (table : List Word) (c : Bits) : List Word :=
  encode .srst :: table ++ decsWords c ++ [encode .dfin]

end Sys2Proof
end

