-- ==== Sys2Proof/Config.lean ====
section
/-! DEFINITION. What the spec fixes once for the block (R7), the parameters it leaves OPEN, and the model's one free value. -/

namespace Sys2Proof.Config

/-- ID_VALUE (R7, R21). -/
def idValue : Word := 0x48554631#32

/-- NSYM_MAX (R7): the number of distinct symbols. -/
def nsymMax : Nat := 256

/-- NODE_CAP (R7): the capacity of the tree store, in nodes. -/
def nodeCap : Nat := 511

/-- L_MAX (R7): the largest code length. -/
def lMax : Nat := 255

/-- A queue depth, OPEN and at least 1 (R7, U12). `slots m` is a queue of m + 1 items; `unbounded` is the reading R57 allows
("A model that treats the queues as unbounded is exact in the values it computes"). -/
inductive Depth where
  | unbounded
  | slots (m : Nat)
  deriving DecidableEq, Repr

/-- The three depth parameters BITQ_DEPTH, SYMQ_DEPTH and TBLQ_DEPTH of one instance of the block (R7). -/
structure Depths where
  bitq : Depth
  symq : Depth
  tblq : Depth
  deriving DecidableEq, Repr

/-- The free value of the model (R60, U11): the n-th word a register read made while BUSY = 1 draws. It has no body: nothing can
be proved of it. Log 4. -/
opaque busyRead : Nat → Word

end Sys2Proof.Config
end

