-- ==== Sys2Proof/Machine/State.lean ====
section
/-! DEFINITION. The state of HUFF-CORE (R20 to R45), as plain data, and its value after reset. -/

namespace Sys2Proof.Machine

/-- PHASE (R24). The values 7 to 14 are never held (U24), so they are no constructors. -/
inductive Phase where
  | idle
  | counting
  | built
  | coded
  | loading
  | decoding
  | done
  | error
  deriving DecidableEq, Repr

/-- ERRCODE (R231). The codes 0x0C to 0xFF are never produced (U24). -/
inductive ErrCode where
  | none
  | badOpc
  | badCmd
  | badSeq
  | overrun
  | countOvf
  | noCode
  | dupSym
  | conflict
  | treeFull
  | badPath
  | truncated
  deriving DecidableEq, Repr

/-- A tree or an `Empty` place in one (R11). -/
inductive HTree where
  | empty
  | leaf (sym : Byte)
  | internal (l r : HTree)
  deriving DecidableEq, Repr

/-- A table of 256 entries, one for each symbol (R35 to R37). -/
abbrev Table (α : Type) := Vector α 256

/-- An output stream (R56): the items emitted since hardware reset, oldest first, as the part the host has taken and the rest.
Of `queued` the first items, as many as the depth allows, are in the queue; a command whose further items wait there is BUSY
(R57). -/
structure OutStream (α : Type) where
  taken : List α
  queued : List α
  deriving DecidableEq, Repr

/-- The names of the three output streams (R56). -/
inductive StreamId where
  | bitOut
  | symOut
  | tblOut
  deriving DecidableEq, Repr

/-- The width of a host access. Only 32 bits are admitted (R55). -/
inductive Width where
  | w8
  | w16
  | w32
  deriving DecidableEq, Repr

/-- One action of the host on the block (R67). `off` is a byte offset in the 4096-byte register space (R50). -/
inductive HostAct where
  /-- a register read (R52) -/
  | read (off : BitVec 12) (width : Width)
  /-- a register write (R53, R54), made without waiting for BUSY = 0 -/
  | write (off : BitVec 12) (width : Width) (w : Word)
  /-- take the oldest item of a stream (R56) -/
  | take (q : StreamId)
  /-- assert and release RST (R260) -/
  | rst
  deriving DecidableEq, Repr

/-- What the host does next. -/
inductive HostEvent where
  /-- one action -/
  | act (a : HostAct)
  /-- wait for STATUS.BUSY = 0, then write `w` to CMD (R270); the actions `during` land while that command is BUSY -/
  | command (w : Word) (during : List HostAct)
  deriving DecidableEq, Repr

/-- The machine. The fields up to `tblOut` are the spec's; DEPTH is the length of `cur` (R32, R40). -/
structure State where
  /-- STATUS.PHASE (R24) -/
  phase : Phase
  /-- STATUS.BUSY (R25) -/
  busy : Bool
  /-- STATUS.PEND: TLOAD data words are awaited (R26) -/
  pend : Bool
  /-- STATUS.PENDW: how many (R26) -/
  pendw : BitVec 4
  /-- STATUS.ERRCODE (R27) -/
  errCode : ErrCode
  /-- ERRINFO (R28) -/
  errInfo : Word
  /-- NSYM (R29) -/
  nsym : BitVec 9
  /-- TOTAL (R30) -/
  total : Word
  /-- NODES (R31) -/
  nodes : BitVec 10
  /-- BITCNT (R33) -/
  bitcnt : Word
  /-- SYMCNT (R34) -/
  symcnt : Word
  /-- F[0..255] (R35) -/
  freq : Table Word
  /-- CLEN[0..255] (R36) -/
  clen : Table Byte
  /-- CODE[0..255] (R37) -/
  code : Table Bits
  /-- ROOT (R38) -/
  root : HTree
  /-- CUR, the path of the decoder's cursor (R40) -/
  cur : Bits
  /-- TLSYM (R41) -/
  tlsym : Byte
  /-- TLLEN (R41) -/
  tllen : Byte
  /-- TLBITS (R41) -/
  tlbits : Bits
  /-- OVR (R42) -/
  ovr : Bool
  /-- OVRWORD (R42) -/
  ovrWord : Word
  /-- BIT_OUT (R56) -/
  bitOut : OutStream Bool
  /-- SYM_OUT (R56) -/
  symOut : OutStream Byte
  /-- TBL_OUT (R56) -/
  tblOut : OutStream Word
  /-- MODEL'S: the queue depths of this instance, OPEN in the spec (R7, U12); no step changes them. Log 2. -/
  depths : Config.Depths
  /-- MODEL'S: what the host does next, oldest first (R6). Log 1. -/
  inbox : List HostEvent
  /-- MODEL'S: the value the register port returned for the host's last read (R52). Log 3. -/
  readData : Word
  /-- MODEL'S: how many free values have been drawn (R60). Log 4. -/
  draws : Nat
  deriving DecidableEq, Repr

/-- Why the machine stops with a fault. -/
inductive Fault where
  /-- Raised by the step, never by an instruction: the host waits for BUSY = 0 while a command waits on a full stream that the
  host does not drain (R57, R273; U13 `stuck`: "the model makes no step until the host removes an item"). Safe: the hardware
  makes no progress either. Log 5. -/
  | drainDeadlock
  deriving DecidableEq, Repr

/-- Why the machine has no step. -/
inductive Refusal where
  /-- Raised by an arm of `exec` for an instruction that has no meaning yet. No arm does. Safe. -/
  | notModelled (mnemonic : String)
  /-- Raised by the register port, never by an instruction: an access of another width than 32 bits or at a misaligned offset (R55;
  U6 `refuse`: "The model has no step for them"). Safe: nothing can be proved of such a run. -/
  | accessNotAdmitted
  deriving DecidableEq, Repr

/-- The state RST leaves, and the state a run starts from (R45, R260). Every value of the block's own is the spec's; `depths` (log
2), `inbox` (log 1), `readData` (log 3) and `draws` (log 4) are the model's. -/
def State.reset : State where
  phase := .idle
  busy := false
  pend := false
  pendw := 0#4
  errCode := .none
  errInfo := 0#32
  nsym := 0#9
  total := 0#32
  nodes := 0#10
  bitcnt := 0#32
  symcnt := 0#32
  freq := Vector.replicate 256 0#32
  clen := Vector.replicate 256 0#8
  code := Vector.replicate 256 []
  root := .empty
  cur := []
  tlsym := 0#8
  tllen := 0#8
  tlbits := []
  ovr := false
  ovrWord := 0#32
  bitOut := { taken := [], queued := [] }
  symOut := { taken := [], queued := [] }
  tblOut := { taken := [], queued := [] }
  depths := { bitq := .unbounded, symq := .unbounded, tblq := .unbounded }
  inbox := []
  readData := 0#32
  draws := 0

end Sys2Proof.Machine
end

