-- ==== Sys2Proof/Machine/Ops.lean ====
section
/-! DEFINITION. The operations the commands share: table entries, trees, output streams, `raise Error`, the end of a command with
its overrun check, soft reset and hardware reset. -/

namespace Sys2Proof.Machine

/-! ## Tables (R10, R35 to R37) -/

/-- `F[s]`, `CLEN[s]`, `CODE[s]`. -/
def Table.get {α : Type} (t : Table α) (s : Byte) : α := t[s.toNat]'s.isLt

/-- `F[s] <- v` and the like. -/
def Table.set {α : Type} (t : Table α) (s : Byte) (v : α) : Table α := Vector.set t s.toNat v s.isLt

/-- The table with every entry `v`. -/
def Table.all {α : Type} (v : α) : Table α := Vector.replicate 256 v

/-- The symbols 0, 1, ..., 255, ascending. -/
def symbols : List Byte := (List.range Config.nsymMax).map (BitVec.ofNat 8)

/-! ## Trees (R11) -/

/-- child(n, b): left for 0, right for 1; a leaf and an `Empty` have none. -/
def HTree.child : HTree → Bool → HTree
  | .internal l _, false => l
  | .internal _ r, true => r
  | .leaf _, _ => .empty
  | .empty, _ => .empty

/-- The node at a path: "It is `Empty` if the walk meets `Empty` or a leaf first" (R11). -/
def HTree.nodeAt (n : HTree) : Bits → HTree
  | [] => n
  | b :: p => (n.child b).nodeAt p

/-- The number of `Leaf` and `Internal` nodes (R38). -/
def HTree.size : HTree → Nat
  | .empty => 0
  | .leaf _ => 1
  | .internal l r => l.size + r.size + 1

/-! ## Output streams (R56, R57) -/

/-- `emit X(v)` for each v of a list, in order. -/
def OutStream.emit {α : Type} (q : OutStream α) (vs : List α) : OutStream α := { q with queued := q.queued ++ vs }

/-- The host takes the oldest item. From an empty queue nothing is taken. Log 7. -/
def OutStream.take {α : Type} (q : OutStream α) : OutStream α :=
  match q.queued with
  | [] => q
  | v :: vs => { taken := q.taken ++ [v], queued := vs }

/-- Every item emitted since hardware reset (R56). -/
def OutStream.emitted {α : Type} (q : OutStream α) : List α := q.taken ++ q.queued

/-- Whether a queue of this depth holds n items. -/
def Depth.holds : Config.Depth → Nat → Bool
  | .unbounded, _ => true
  | .slots m, n => n ≤ m + 1

/-- A command waits on a full queue: some stream has more items than its queue holds (R57). -/
def State.stalled (s : State) : Bool :=
  !(Depth.holds s.depths.bitq s.bitOut.queued.length && Depth.holds s.depths.symq s.symOut.queued.length &&
    Depth.holds s.depths.tblq s.tblOut.queued.length)

/-- The host takes the oldest item of a stream. -/
def State.takeFrom (s : State) : StreamId → State
  | .bitOut => { s with bitOut := s.bitOut.take }
  | .symOut => { s with symOut := s.symOut.take }
  | .tblOut => { s with tblOut := s.tblOut.take }

/-! ## Errors (R236, R237) -/

/-- `raise Error(code, info)` "does exactly this, and then ends the step" (R236). -/
def raise (c : ErrCode) (info : Word) (s : State) : State :=
  { s with phase := .error, errCode := c, errInfo := info, pend := false, pendw := 0#4, ovr := false }

/-- A CMD write made while BUSY = 1: the first such word of a command is kept (R237). -/
def latchOverrun (v : Word) (s : State) : State := if s.ovr then s else { s with ovr := true, ovrWord := v }

/-- `overrun_check()` (R237). -/
def overrunCheck (s : State) : State :=
  if s.ovr = true ∧ s.phase ≠ .error then raise .overrun s.ovrWord s else { s with ovr := false }

/-- The end of a command. While one of its items waits on a full queue the command stays BUSY (R25, R57); else BUSY falls and the
overrun check runs (R110, R237). -/
def finish (s : State) : State := if s.stalled then { s with busy := true } else overrunCheck { s with busy := false }

/-! ## Reset (R45, R116, R260) -/

/-- What SRST sets (R116): every line of R45 marked "SRST sets it too". The streams stay. -/
def softReset (s : State) : State :=
  { s with
    phase := .idle, pend := false, pendw := 0#4, errCode := .none, errInfo := 0#32, nsym := 0#9, total := 0#32,
    nodes := 0#10, bitcnt := 0#32, symcnt := 0#32, freq := Table.all 0#32, clen := Table.all 0#8, code := Table.all [],
    root := .empty, cur := [], tlsym := 0#8, tllen := 0#8, tlbits := [], ovr := false, ovrWord := 0#32 }

/-- RST (R260): every piece of the block's state takes its value of R45, the queues are emptied, a running command is abandoned.
The depths, what the host does next, and what it has read are no state of the block and stay. -/
def hardReset (s : State) : State :=
  { State.reset with depths := s.depths, inbox := s.inbox, readData := s.readData, draws := s.draws }

end Sys2Proof.Machine
end

