-- ==== Sys2Proof/Machine/Flags.lean ====
section
/-! DEFINITION. The values of the status fields (R23 to R27) and the STATUS word. HUFF-CORE has no other flags (R44). -/

namespace Sys2Proof.Machine

/-- The value of PHASE (R24). -/
def phaseBits : Phase → BitVec 4
  | .idle => 0
  | .counting => 1
  | .built => 2
  | .coded => 3
  | .loading => 4
  | .decoding => 5
  | .done => 6
  | .error => 15

/-- The value of ERRCODE (R231). -/
def errCodeBits : ErrCode → Byte
  | .none => 0x00
  | .badOpc => 0x01
  | .badCmd => 0x02
  | .badSeq => 0x03
  | .overrun => 0x04
  | .countOvf => 0x05
  | .noCode => 0x06
  | .dupSym => 0x07
  | .conflict => 0x08
  | .treeFull => 0x09
  | .badPath => 0x0A
  | .truncated => 0x0B

/-- STATUS (R23): [31:24] 0, [23:16] ERRCODE, [15:12] 0, [11:8] PENDW, [7:6] 0, [5] PEND, [4] BUSY, [3:0] PHASE. -/
def statusWord (s : State) : Word :=
  0#8 ++ errCodeBits s.errCode ++ 0#4 ++ s.pendw ++ 0#2 ++ BitVec.ofBool s.pend ++ BitVec.ofBool s.busy ++ phaseBits s.phase

/-- DEPTH (R32): the depth of the decoder's cursor, |CUR|. -/
def State.depth (s : State) : Byte := BitVec.ofNat 8 s.cur.length

/-- `legal(m, PHASE)`: the table of R113. In ERROR the table is not consulted (R111). -/
def legal : Instr → Phase → Bool
  | .nop, p => p != .error
  | .srst, p => p != .error
  | .count _, p => p == .idle || p == .counting
  | .build, p => p == .idle || p == .counting
  | .gen, p => p == .built
  | .enc _, p => p == .coded
  | .tload _ _, p => p == .idle || p == .loading
  | .tfin, p => p == .idle || p == .loading
  | .dec _ _, p => p == .decoding
  | .dfin, p => p == .decoding

end Sys2Proof.Machine
end

