-- ==== Sys2Proof/Machine/Operands.lean ====
section
/-! DEFINITION. Operand assembly (R83 to R85): what a command's fields stand for. -/

namespace Sys2Proof.Machine

/-- zext_32(s) of a symbol, the ERRINFO of NO_CODE, DUP_SYM, CONFLICT and TREE_FULL (R231). -/
def symInfo (sym : Byte) : Word := sym.setWidth 32

/-- PENDW for a code of `len` bits: ceil(len / 32) (R84, R190). -/
def pendWords (len : Byte) : BitVec 4 := BitVec.ofNat 4 (dataWords len.toNat)

/-- CNT = zext_5(NM1) + 1, 1 to 16 (R83). -/
def decCount (nm1 : BitVec 4) : Nat := nm1.toNat + 1

/-- The bits a DEC consumes: bit(j) = w[15 - j], j = 0 .. CNT - 1; those below are ignored (R85). -/
def decBits (nm1 : BitVec 4) (bits : BitVec 16) : Bits := (List.range (decCount nm1)).map fun j => bits.getLsbD (15 - j)

/-- The ERRINFO of BAD_PATH: b in bit 12, j in [11:8], |CUR| in [7:0] (R212). -/
def badPathInfo (b : Bool) (j depth : Nat) : Word :=
  BitVec.ofNat 19 0 ++ BitVec.ofBool b ++ BitVec.ofNat 4 j ++ BitVec.ofNat 8 depth

/-- The ERRINFO of TRUNCATED: zext_32(|CUR|) (R216). -/
def truncatedInfo (depth : Nat) : Word := BitVec.ofNat 32 depth

end Sys2Proof.Machine
end

