-- ==== Sys2Proof/Machine/TableEntry.lean ====
section
/-! DEFINITION. TLOAD's data words and the entry they complete (R191 to R197). A data word is a step of its own (R110) and no row of
the opcode table. -/

namespace Sys2Proof.Machine

/-- Where the walk of R193 along an entry's code ends. -/
inductive EntryWalk where
  /-- a leaf is on the path, or the whole path exists (R195) -/
  | conflict
  /-- the node at depth d of the path has no child for the next bit: the entry has room from there on -/
  | room (d : Nat)
  deriving DecidableEq, Repr

/-- The walk of R193 from a node at depth d along the rest of the code. -/
def entryWalk : HTree → Bits → Nat → EntryWalk
  | _, [], _ => .conflict
  | n, b :: c, d =>
    match n.child b with
    | .empty => .room d
    | .leaf _ => .conflict
    | .internal l r => entryWalk (.internal l r) c (d + 1)

/-- The tree with Leaf(s) at the path c, internal nodes created "at any position where none exists yet" (R193). -/
def HTree.insert : HTree → Bits → Byte → HTree
  | _, [], s => .leaf s
  | n, false :: c, s => .internal ((n.child false).insert c s) (n.child true)
  | n, true :: c, s => .internal (n.child false) ((n.child true).insert c s)

/-- apply_entry(s, c) (R193): the checks in order, then the changes; a failed check changes nothing else (R197). -/
def applyEntry (sym : Byte) (c : Bits) (s : State) : State :=
  if Table.get s.clen sym ≠ 0#8 then raise .dupSym (symInfo sym) s
  else
    match entryWalk s.root c 0 with
    | .conflict => raise .conflict (symInfo sym) s
    | .room d =>
      if Config.nodeCap < s.nodes.toNat + (c.length - d) then raise .treeFull (symInfo sym) s
      else
        { s with
          root := s.root.insert c sym
          nodes := s.nodes + BitVec.ofNat 10 (c.length - d)
          clen := Table.set s.clen sym (BitVec.ofNat 8 c.length)
          code := Table.set s.code sym c
          nsym := s.nsym + 1#9 }

/-- tload_data(w) (R192): the 32 bits are appended; with the last word owed, PEND falls and the entry is applied. -/
def tloadData (w : Word) (s : State) : State :=
  let t := { s with tlbits := s.tlbits ++ wordBits w, pendw := s.pendw - 1#4 }
  if t.pendw = 0#4 then applyEntry t.tlsym (t.tlbits.take t.tllen.toNat) { t with pend := false } else t

end Sys2Proof.Machine
end

