-- ==== Sys2Proof/Machine/Command.lean ====
section
/-! DEFINITION. The step every command goes through (R110, R111), once: each command's meaning gives its own effect to it. -/

namespace Sys2Proof.Machine

/-- A word that raises an error on acceptance, before any command runs (R110); in ERROR it is discarded (R112). -/
def rejectWord (c : ErrCode) (w : Word) (s : State) : State := finish (if s.phase = .error then s else raise c w s)

/-- The step of R110 for the command i, whose own effect is `body`, in the check order of R111: PEND, the error filter of R112,
BAD_CMD, BAD_SEQ, the effect with its own errors, OVERRUN. The word of i is `encode i`. -/
def command (i : Instr) (body : State → State) (s : State) : Host.Outcome State Fault Refusal :=
  .next
    (if s.pend then finish (tloadData (encode i) s)
    else if s.phase = .error then finish s
    else if !i.wellFormed then rejectWord .badCmd (encode i) s
    else if !legal i s.phase then rejectWord .badSeq (encode i) s
    else finish (body s))

end Sys2Proof.Machine
end

