-- ==== Sys2Proof/Machine/CodeTableGenerator.lean ====
section
/-! DEFINITION. GEN (R160 to R167). -/

namespace Sys2Proof.Machine

/-- visit(n, p) of R160: the leaves with their paths, left subtree first (R161). -/
def HTree.visit : HTree → Bits → List (Byte × Bits)
  | .empty, _ => []
  | .leaf sym, p => [(sym, p)]
  | .internal l r, p => l.visit (p ++ [false]) ++ r.visit (p ++ [true])

/-- The entries GEN records, in order (R160): none for `Empty` (R167), the code "0" for a single leaf (R163). -/
def genEntries : HTree → List (Byte × Bits)
  | .empty => []
  | .leaf sym => [(sym, [false])]
  | .internal l r => (HTree.internal l r).visit []

/-- The CODE table after the entries are recorded (R162). -/
def recordCodes (es : List (Byte × Bits)) (t : Table Bits) : Table Bits := es.foldl (fun t e => Table.set t e.1 e.2) t

/-- The CLEN table after the entries are recorded (R162). -/
def recordLens (es : List (Byte × Bits)) (t : Table Byte) : Table Byte :=
  es.foldl (fun t e => Table.set t e.1 (BitVec.ofNat 8 e.2.length)) t

/-- The TBL_OUT words: each entry's header and data words, then the TFIN word (R164). -/
def tableOut (es : List (Byte × Bits)) : List Word := es.flatMap (fun e => entryWords e.1 e.2) ++ [encode .tfin]

/-- The effect of GEN (R160). -/
def genEffect (s : State) : State :=
  { s with
    code := recordCodes (genEntries s.root) s.code
    clen := recordLens (genEntries s.root) s.clen
    tblOut := s.tblOut.emit (tableOut (genEntries s.root))
    phase := .coded }

/-- GEN (R160). -/
def execGen (s : State) : Host.Outcome State Fault Refusal := command .gen genEffect s

end Sys2Proof.Machine
end

