-- ==== Sys2Proof/Machine/Control.lean ====
section
/-! DEFINITION. NOP and SRST (R115, R116). -/

namespace Sys2Proof.Machine

/-- NOP (R115): "No state changes and nothing is emitted." -/
def execNop (s : State) : Host.Outcome State Fault Refusal := command .nop (fun t => t) s

/-- SRST (R116), legal in every phase and the one command ERROR executes (R112). It "does not execute the overrun check". While
PEND = 1 its word is data (R191). -/
def execSrst (s : State) : Host.Outcome State Fault Refusal :=
  if s.pend then .next (finish (tloadData (encode .srst) s)) else .next { softReset s with busy := false }

end Sys2Proof.Machine
end

