-- ==== Sys2Proof/Machine/FrequencyCounter.lean ====
section
/-! DEFINITION. COUNT (R130). -/

namespace Sys2Proof.Machine

/-- The effect of COUNT (R130): COUNT_OVF at TOTAL = 0xFFFFFFFF, else one more occurrence of the symbol. -/
def countSymbol (sym : Byte) (s : State) : State :=
  if s.total = 0xFFFFFFFF#32 then raise .countOvf (encode (.count sym)) s
  else
    { s with
      nsym := if Table.get s.freq sym = 0#32 then s.nsym + 1#9 else s.nsym
      freq := Table.set s.freq sym (Table.get s.freq sym + 1#32)
      total := s.total + 1#32
      phase := .counting }

/-- COUNT sym (R130). -/
def execCount (sym : Byte) (s : State) : Host.Outcome State Fault Refusal := command (.count sym) (countSymbol sym) s

end Sys2Proof.Machine
end

