-- ==== Sys2Proof/Machine/StreamDecoder.lean ====
section
/-! DEFINITION. DEC and DFIN (R210 to R216). -/

namespace Sys2Proof.Machine

/-- The walk of R210 over the bits that are left, the first of them bit j of the command: a leaf emits its symbol and sends the
cursor to the root, an internal node moves it, an `Empty` child raises BAD_PATH and ends the command (R211 to R213). -/
def decodeBits : Bits → Nat → State → State
  | [], _, s => s
  | b :: bs, j, s =>
    match (s.root.nodeAt s.cur).child b with
    | .empty => raise .badPath (badPathInfo b j s.cur.length) s
    | .leaf sym => decodeBits bs (j + 1) { s with symOut := s.symOut.emit [sym], symcnt := s.symcnt + 1#32, cur := [] }
    | .internal _ _ => decodeBits bs (j + 1) { s with cur := s.cur ++ [b] }

/-- DEC bits (R210). -/
def execDec (nm1 : BitVec 4) (bits : BitVec 16) (s : State) : Host.Outcome State Fault Refusal :=
  command (.dec nm1 bits) (decodeBits (decBits nm1 bits) 0) s

/-- The effect of DFIN (R215): TRUNCATED when the cursor is not at the root (R216). -/
def dfinEffect (s : State) : State :=
  if s.cur.length ≠ 0 then raise .truncated (truncatedInfo s.cur.length) s else { s with phase := .done }

/-- DFIN (R215). -/
def execDfin (s : State) : Host.Outcome State Fault Refusal := command .dfin dfinEffect s

end Sys2Proof.Machine
end

