-- ==== Sys2Proof/Machine/StreamEncoder.lean ====
section
/-! DEFINITION. ENC (R180). -/

namespace Sys2Proof.Machine

/-- The effect of ENC (R180): NO_CODE when the symbol has no code, else bits 0 .. CLEN - 1 of its code on BIT_OUT. -/
def encodeSymbol (sym : Byte) (s : State) : State :=
  if Table.get s.clen sym = 0#8 then raise .noCode (symInfo sym) s
  else
    { s with
      bitOut := s.bitOut.emit ((Table.get s.code sym).take (Table.get s.clen sym).toNat)
      bitcnt := s.bitcnt + (Table.get s.clen sym).setWidth 32 }

/-- ENC sym (R180). -/
def execEnc (sym : Byte) (s : State) : Host.Outcome State Fault Refusal := command (.enc sym) (encodeSymbol sym) s

end Sys2Proof.Machine
end

