-- ==== Sys2Proof/Machine/TreeBuilder.lean ====
section
/-! DEFINITION. BUILD (R140 to R148). The queue is a list: "any structure whose extract_min returns the least entry under rule R142
gives the same tree" (R147). -/

namespace Sys2Proof.Machine

/-- An entry of the priority queue (R39, R142): a node and its key (freq, seq). -/
structure QEntry where
  node : HTree
  freq : Word
  seq : Nat
  deriving DecidableEq, Repr

/-- "Entry x comes before entry y" (R142). -/
def QEntry.before (x y : QEntry) : Bool := x.freq.toNat < y.freq.toNat || (x.freq == y.freq && x.seq < y.seq)

/-- extract_min (R140): the least entry in the order of R142, and the rest. -/
def extractMin : List QEntry → Option (QEntry × List QEntry)
  | [] => none
  | x :: q =>
    match extractMin q with
    | none => some (x, [])
    | some (m, rest) => if m.before x then some (m, x :: rest) else some (x, q)

/-- The initial queue (R141): a leaf for each symbol with a count, in the order of the list of symbols, numbered from `seq`. -/
def leafEntries (f : Table Word) : List Byte → Nat → List QEntry
  | [], _ => []
  | sym :: syms, seq =>
    if Table.get f sym = 0#32 then leafEntries f syms seq
    else { node := .leaf sym, freq := Table.get f sym, seq := seq } :: leafEntries f syms (seq + 1)

/-- The combined node of two extracted entries (R143): first extracted left, second right, the frequencies added, numbered seq. -/
def combine (a b : QEntry) (seq : Nat) : QEntry := { node := .internal a.node b.node, freq := a.freq + b.freq, seq := seq }

/-- The loop of R140 until one node remains, which is the root. Each turn leaves one entry fewer, so as much fuel as there are
entries is enough. -/
def mergeLoop : Nat → List QEntry → Nat → HTree
  | 0, _, _ => .empty
  | fuel + 1, q, seq =>
    match extractMin q with
    | none => .empty
    | some (a, q1) =>
      match extractMin q1 with
      | none => a.node
      | some (b, q2) => mergeLoop fuel (combine a b seq :: q2) (seq + 1)

/-- The queue BUILD starts with. -/
def initialQueue (f : Table Word) : List QEntry := leafEntries f symbols 0

/-- The tree BUILD makes of a frequency table; `Empty` when no symbol has a count (R146). -/
def buildTree (f : Table Word) : HTree := mergeLoop (initialQueue f).length (initialQueue f) (initialQueue f).length

/-- The effect of BUILD (R140): NODES is 2N - 1, or 0 when N = 0. -/
def buildEffect (s : State) : State :=
  { s with
    root := buildTree s.freq
    nodes := BitVec.ofNat 10 (2 * (initialQueue s.freq).length - 1)
    phase := .built }

/-- BUILD (R140). -/
def execBuild (s : State) : Host.Outcome State Fault Refusal := command .build buildEffect s

end Sys2Proof.Machine
end

