-- ==== Sys2Proof/Machine/TreeRebuilder.lean ====
section
/-! DEFINITION. TLOAD's header word and TFIN (R190, R200). The data words are in TableEntry.lean. -/

namespace Sys2Proof.Machine

/-- The "empty root" with which a decode session starts (R190, R200): only from IDLE. -/
def startDecodeTree (s : State) : State :=
  if s.phase = .idle then { s with root := .internal .empty .empty, nodes := 1#10, cur := [] } else s

/-- The effect of a TLOAD header (R190). -/
def tloadHeader (len sym : Byte) (s : State) : State :=
  { startDecodeTree s with
    phase := .loading, tlsym := sym, tllen := len, tlbits := [], pend := true, pendw := pendWords len }

/-- TLOAD sym, len: the header word (R190). -/
def execTload (len sym : Byte) (s : State) : Host.Outcome State Fault Refusal :=
  command (.tload len sym) (tloadHeader len sym) s

/-- The effect of TFIN (R200). -/
def tfinEffect (s : State) : State := { startDecodeTree s with cur := [], phase := .decoding }

/-- TFIN (R200). -/
def execTfin (s : State) : Host.Outcome State Fault Refusal := command .tfin tfinEffect s

end Sys2Proof.Machine
end

