-- ==== Sys2Proof/Machine/Dispatch.lean ====
section
/-! DEFINITION. One arm for each command. -/

namespace Sys2Proof.Machine

def exec (i : Instr) (s : State) : Host.Outcome State Fault Refusal :=
  match i with
  | .nop => Sys2Proof.Machine.execNop s
  | .srst => Sys2Proof.Machine.execSrst s
  | .count sym => Sys2Proof.Machine.execCount sym s
  | .build => Sys2Proof.Machine.execBuild s
  | .gen => Sys2Proof.Machine.execGen s
  | .enc sym => Sys2Proof.Machine.execEnc sym s
  | .tload len sym => Sys2Proof.Machine.execTload len sym s
  | .tfin => Sys2Proof.Machine.execTfin s
  | .dec nm1 bits => Sys2Proof.Machine.execDec nm1 bits s
  | .dfin => Sys2Proof.Machine.execDfin s

end Sys2Proof.Machine
end

