-- ==== Sys2Proof/Machine/Accept.lean ====
section
/-! DEFINITION. Accepting a word at CMD (R53, R110): it is decoded and its command runs to completion. -/

namespace Sys2Proof.Machine

/-- step(w) of R110 for a word accepted at CMD: a data word while PEND = 1 (R191), a rejected word (R86), or a command. -/
def acceptWord (w : Word) (s : State) : Host.Outcome State Fault Refusal :=
  match decode w s.pend with
  | .data v => .next (finish (tloadData v s))
  | .badOpc => .next (rejectWord .badOpc w s)
  | .badCmd => .next (rejectWord .badCmd w s)
  | .instr i => exec i s

/-- Words accepted one after another, as long as each leaves a next state: the words of a session, each written when BUSY = 0
(R270). -/
def acceptWords : List Word → State → Host.Outcome State Fault Refusal
  | [], s => .next s
  | w :: ws, s =>
    match acceptWord w s with
    | .next t => acceptWords ws t
    | .fault e => .fault e
    | .refused e => .refused e

end Sys2Proof.Machine
end

