-- ==== Sys2Proof/Machine/Port.lean ====
section
/-! DEFINITION. The register port, the stream ports and RST: what one action of the host does (R50 to R60, R67, R260). -/

namespace Sys2Proof.Machine

/-- The registers of the register map (R20); every other offset is reserved. -/
inductive Reg where
  | id
  | cmd
  | status
  | errinfo
  | nsym
  | total
  | nodes
  | depth
  | bitcnt
  | symcnt
  | freq (sym : Byte)
  | clen (sym : Byte)
  | reserved
  deriving DecidableEq, Repr

/-- The register at a byte offset, a multiple of 4 (R20). -/
def regAt (off : BitVec 12) : Reg :=
  if 0x400 ≤ off.toNat ∧ off.toNat < 0x800 then .freq (BitVec.ofNat 8 ((off.toNat - 0x400) / 4))
  else if 0x800 ≤ off.toNat ∧ off.toNat < 0xC00 then .clen (BitVec.ofNat 8 ((off.toNat - 0x800) / 4))
  else
    match off.toNat / 4 with
    | 0 => .id
    | 1 => .cmd
    | 2 => .status
    | 3 => .errinfo
    | 4 => .nsym
    | 5 => .total
    | 6 => .nodes
    | 7 => .depth
    | 8 => .bitcnt
    | 9 => .symcnt
    | _ => .reserved

/-- The value of a register; unused bits, CMD and reserved offsets read as 0 (R20, R22, R52). -/
def readReg (s : State) : Reg → Word
  | .id => Config.idValue
  | .cmd => 0
  | .status => statusWord s
  | .errinfo => s.errInfo
  | .nsym => s.nsym.setWidth 32
  | .total => s.total
  | .nodes => s.nodes.setWidth 32
  | .depth => s.depth.setWidth 32
  | .bitcnt => s.bitcnt
  | .symcnt => s.symcnt
  | .freq sym => Table.get s.freq sym
  | .clen sym => (Table.get s.clen sym).setWidth 32
  | .reserved => 0

/-- The bits a register uses (R20, R23). For CMD none: a read of it while BUSY = 1 returns 0, as R22 says of a read of CMD, whatever
is drawn. DESIGN CHOICE: R60 and U11 except only ID and BUSY from the draw, and R20's "bits used" of CMD are [31:0]. Log 4. -/
def usedBits : Reg → Word
  | .id => 0xFFFFFFFF
  | .cmd => 0
  | .status => 0x00FF0F3F
  | .errinfo => 0xFFFFFFFF
  | .nsym => 0x000001FF
  | .total => 0xFFFFFFFF
  | .nodes => 0x000003FF
  | .depth => 0x000000FF
  | .bitcnt => 0xFFFFFFFF
  | .symcnt => 0xFFFFFFFF
  | .freq _ => 0xFFFFFFFF
  | .clen _ => 0x000000FF
  | .reserved => 0

/-- RegRead(off) with BUSY = 0 (R52). -/
def regRead (s : State) (off : BitVec 12) : Word := readReg s (regAt off)

/-- A read made while BUSY = 1 (R60), of the drawn word v: STATUS has BUSY = 1, ID is constant, every other bit a register uses is
v's. -/
def busyReadReg (v : Word) : Reg → Word
  | .id => Config.idValue
  | .status => (v &&& usedBits .status) ||| 0x00000010
  | r => v &&& usedBits r

/-- One byte of the register space (R51, little-endian): byte o + k of the register at o is bits [8k+7 : 8k]. -/
def regByte (s : State) (a : BitVec 12) : Byte := (regRead s (a &&& 0xFFC)).extractLsb' (8 * (a.toNat % 4)) 8

/-- The offset of CMD (R22). -/
def cmdOffset : BitVec 12 := 0x004

/-- "The only admitted register access is 32 bits wide at an offset with off[1:0] = 0b00" (R55). -/
def admitted (off : BitVec 12) (width : Width) : Bool := width == .w32 && off.toNat % 4 == 0

/-- A register read: no side effect on the block (R52); while BUSY = 1 the value is drawn (R60). -/
def hostRead (off : BitVec 12) (s : State) : State :=
  if s.busy then { s with readData := busyReadReg (Config.busyRead s.draws) (regAt off), draws := s.draws + 1 }
  else { s with readData := regRead s off }

/-- A word written to CMD and accepted with BUSY = 0 (R53): BUSY rises (R25) and the word's step runs (R110). -/
def acceptCmd (w : Word) (s : State) : Host.Outcome State Fault Refusal := acceptWord w { s with busy := true }

/-- The host takes an item (R56). A command that waited for the room continues, and completes when all its items are in the queue
(R57). -/
def hostTake (q : StreamId) (s : State) : State := if s.busy then finish (s.takeFrom q) else s.takeFrom q

/-- A register write (R53, R54): to CMD it is accepted with BUSY = 0 and latched as lost with BUSY = 1 (R237); any other is
ignored. -/
def hostWrite (off : BitVec 12) (w : Word) (s : State) : Host.Outcome State Fault Refusal :=
  if off = cmdOffset then if s.busy then .next (latchOverrun w s) else acceptCmd w s else .next s

/-- One action of the host. -/
def hostAct (a : HostAct) (s : State) : Host.Outcome State Fault Refusal :=
  match a with
  | .read off width => if admitted off width then .next (hostRead off s) else .refused .accessNotAdmitted
  | .write off width w => if admitted off width then hostWrite off w s else .refused .accessNotAdmitted
  | .take q => .next (hostTake q s)
  | .rst => .next (hardReset s)

/-- What became of a command while the host's actions landed in its BUSY window. -/
inductive Window where
  /-- the command is still to run -/
  | runs (s : State)
  /-- RST abandoned it (R260); the actions after RST are no longer in the window -/
  | abandoned (s : State)
  /-- an access was not admitted (R55) -/
  | refused
  deriving DecidableEq, Repr

/-- The host's actions that land while a command is BUSY (R60, R237, R260), before its effect: a take removes an item queued
earlier, a CMD write is latched, a read draws. Log 6. -/
def busyWindow : List HostAct → State → Window
  | [], s => .runs s
  | .read off width :: as, s => if admitted off width then busyWindow as (hostRead off s) else .refused
  | .write off width w :: as, s =>
    if admitted off width then busyWindow as (if off = cmdOffset then latchOverrun w s else s) else .refused
  | .take q :: as, s => busyWindow as (s.takeFrom q)
  | .rst :: as, s => .abandoned { hardReset s with inbox := as.map HostEvent.act ++ s.inbox }

/-- Whether a word accepted now has a BUSY window the host can act in: not a data word before the last, after which "BUSY is
already 0 when the write completes" (R270). -/
def hasWindow (s : State) : Bool := !(s.pend && 1 < s.pendw.toNat)

/-- The host waits for BUSY = 0 and writes w to CMD (R270), and `during` lands while the command is BUSY. While a command waits on
a full stream the wait never ends (R273). -/
def hostCommand (w : Word) (during : List HostAct) (s : State) : Host.Outcome State Fault Refusal :=
  if s.busy then .fault .drainDeadlock
  else if hasWindow s then
    match busyWindow during { s with busy := true } with
    | .runs t => acceptCmd w t
    | .abandoned t => .next t
    | .refused => .refused .accessNotAdmitted
  else acceptCmd w { s with inbox := during.map HostEvent.act ++ s.inbox }

/-- The oldest of the host's events happens. -/
def hostEvent (e : HostEvent) (s : State) : Host.Outcome State Fault Refusal :=
  match e with
  | .act a => hostAct a s
  | .command w during => hostCommand w during s

/-- The events by which the host writes an instruction's words, each when BUSY = 0. -/
def commandEvents (ws : List Word) : List HostEvent := ws.map fun w => .command w []

end Sys2Proof.Machine
end

