-- ==== Sys2Proof/Machine/Step.lean ====
section
/-! DEFINITION. One step of the machine, and how an instruction comes before it. -/

namespace Sys2Proof.Machine

/-- One step: the oldest of the host's events happens (R6, R110). With none, nothing does: the block "executes nothing until the host
writes CMD" (R261). -/
def step (s : State) : Host.Outcome State Fault Refusal :=
  match s.inbox with
  | [] => .next s
  | e :: es => hostEvent e { s with inbox := es }

/-- s with the host about to write the words of an instruction to CMD. Commands are not fetched (R43, R63): the host's next event is
where the step finds its next instruction, and its first word is an instruction when no command is BUSY and no data word is
owed. -/
def State.withFetchWord (s : State) (nbits w : Nat) : State :=
  { s with inbox := commandEvents (tableWords nbits w) ++ s.inbox, busy := false, pend := false, pendw := 0#4 }

end Sys2Proof.Machine
end

