-- ==== Sys2Proof/Safety.lean ====
section
/-! DEFINITION. What claims about the machine are said in: the fields of a word, trees, tables and walks as the rules speak of them, a
run without error (R246), and the invariants that hold between steps (R24 to R46). -/

namespace Sys2Proof.Machine

/-! ## Words and phases, written once more from the rules -/

/-- OPC, w[31:28], as a number (R80). -/
def opcOf (w : Word) : Nat := w.toNat / 2 ^ 28

/-- The field of `n` bits from bit `lo` up, as a number (R8). -/
def fieldOf (w : Word) (lo n : Nat) : Nat := w.toNat / 2 ^ lo % 2 ^ n

/-- Every reserved field of the word's format is 0 (R81). -/
def reservedZero (w : Word) : Prop :=
  if opcOf w = 2 ∨ opcOf w = 5 then fieldOf w 8 20 = 0
  else if opcOf w = 6 then fieldOf w 16 12 = 0
  else if opcOf w = 8 then fieldOf w 20 8 = 0
  else fieldOf w 0 28 = 0

/-- The table of R113: the next phase of a command in a phase, or none where the table says "no". ERROR is handled before it. -/
def phaseTable : Instr → Phase → Option Phase
  | .nop, p => if p = .error then none else some p
  | .srst, p => if p = .error then none else some .idle
  | .count _, .idle => some .counting
  | .count _, .counting => some .counting
  | .build, .idle => some .built
  | .build, .counting => some .built
  | .gen, .built => some .coded
  | .enc _, .coded => some .coded
  | .tload _ _, .idle => some .loading
  | .tload _ _, .loading => some .loading
  | .tfin, .idle => some .decoding
  | .tfin, .loading => some .decoding
  | .dec _ _, .decoding => some .decoding
  | .dfin, .decoding => some .done
  | .count _, _ => none
  | .build, _ => none
  | .gen, _ => none
  | .enc _, _ => none
  | .tload _ _, _ => none
  | .tfin, _ => none
  | .dec _ _, _ => none
  | .dfin, _ => none

/-- The state an error leaves when its command has ended: R236, and BUSY has fallen. -/
def State.raised (s : State) (c : ErrCode) (info : Word) : State :=
  { s with phase := .error, errCode := c, errInfo := info, pend := false, pendw := 0#4, ovr := false, busy := false }

/-- Between two commands of a host that keeps to the protocol (R270): no data word is owed, no write was lost, nothing waits. -/
structure State.Ready (s : State) : Prop where
  pend : s.pend = false
  ovr : s.ovr = false
  stalled : s.stalled = false

/-! ## Frequencies (R30, R131) -/

/-- Σ F[s]. -/
def countTotal (f : Table Word) : Nat := (symbols.map fun s => (Table.get f s).toNat).sum

/-- The symbols with F[s] > 0, ascending: the keys of the Frequency Table (R35). -/
def countedSymbols (f : Table Word) : List Byte := symbols.filter fun s => Table.get f s ≠ 0#32

/-- The symbols with CLEN[s] > 0, ascending (R36). -/
def codedSymbols (t : Table Byte) : List Byte := symbols.filter fun s => Table.get t s ≠ 0#8

/-! ## Trees (R11, R144) -/

/-- The symbols of the leaves, left to right. -/
def HTree.leaves : HTree → List Byte
  | .empty => []
  | .leaf s => [s]
  | .internal l r => l.leaves ++ r.leaves

/-- A tree with no `Empty` place: each internal node has two children (R144). -/
def HTree.full : HTree → Bool
  | .empty => false
  | .leaf _ => true
  | .internal l r => l.full && r.full

/-- The number of internal nodes. -/
def HTree.internals : HTree → Nat
  | .empty => 0
  | .leaf _ => 0
  | .internal l r => l.internals + r.internals + 1

/-- An internal node stands at the path. -/
def HTree.InternalAt (t : HTree) (p : Bits) : Prop := ∃ l r, t.nodeAt p = .internal l r

/-- R142: entry x comes before entry y. -/
def QEntry.Before (x y : QEntry) : Prop := x.freq.toNat < y.freq.toNat ∨ (x.freq = y.freq ∧ x.seq < y.seq)

/-- The merge rule (R143) as a relation, whatever way the queue is laid out (R147): from a queue, with `seq` insertions made, the
root `t` comes out. -/
inductive Merges : List QEntry → Nat → HTree → Prop where
  /-- one entry is left: its node is the root -/
  | root (e : QEntry) (seq : Nat) : Merges [e] seq e.node
  /-- a is the first of the queue and b the first of the rest: a left, b right, the weights added, the next sequence number -/
  | merge (q rest : List QEntry) (a b : QEntry) (seq : Nat) (t : HTree) (hq : q.Perm (a :: b :: rest))
      (ha : ∀ x ∈ b :: rest, a.Before x) (hb : ∀ x ∈ rest, b.Before x)
      (h : Merges ({ node := .internal a.node b.node, freq := a.freq + b.freq, seq := seq } :: rest) (seq + 1) t) :
      Merges q seq t

/-- Every entry's weight is the sum of the counts of the leaves under its node (R12, R148). -/
def Weighted (f : Table Word) (q : List QEntry) : Prop :=
  ∀ e ∈ q, e.freq.toNat = (e.node.leaves.map fun s => (Table.get f s).toNat).sum

/-- The sum of the weights in a queue. -/
def weightSum (q : List QEntry) : Nat := (q.map fun e => e.freq.toNat).sum

/-! ## The decoder's walk (R211) -/

/-- The walk from the cursor over a bit sequence: the symbols it emits and where it ends, or none where a bit selects an `Empty`
child. -/
def walk (root : HTree) : Bits → Bits → Option (List Byte × Bits)
  | cur, [] => some ([], cur)
  | cur, b :: bs =>
    match root.nodeAt (cur ++ [b]) with
    | .empty => none
    | .leaf x => (walk root [] bs).map fun r => (x :: r.1, r.2)
    | .internal _ _ => walk root (cur ++ [b]) bs

/-! ## Codes -/

/-- No code of the list is a prefix of another (R166, R198). -/
def PrefixFree (es : List (Byte × Bits)) : Prop := es.Pairwise fun d e => ¬ d.2 <+: e.2 ∧ ¬ e.2 <+: d.2

/-- The distinct non-empty prefixes of the codes (R198). -/
def codePrefixes (es : List (Byte × Bits)) : List Bits := ((es.flatMap fun e => e.2.inits).filter (· ≠ [])).dedup

/-- A symbol table a decode session can load (R198): distinct symbols, prefix-free codes of 1 to 255 bits, at most 511 nodes with
the root. -/
structure Loadable (es : List (Byte × Bits)) : Prop where
  symbols : (es.map Prod.fst).Nodup
  prefixFree : PrefixFree es
  lens : ∀ e ∈ es, 1 ≤ e.2.length ∧ e.2.length ≤ Config.lMax
  nodes : 1 + (codePrefixes es).length ≤ Config.nodeCap

/-! ## Runs -/

/-- No error is recorded: a safe state of a session (R246). -/
def State.NoError (s : State) : Prop := s.phase ≠ .error

/-- The event asserts RST. -/
def HostEvent.resets : HostEvent → Bool
  | .act a => a == .rst
  | .command _ during => during.contains .rst

/-- The event writes this word to CMD, and the word is accepted. -/
def HostEvent.writes (w : Word) : HostEvent → Bool
  | .act a => a == .write cmdOffset .w32 w
  | .command v _ => v == w

/-- The word the next step accepts at CMD, if any (R53): a write made while BUSY = 1 is none (R237). -/
def acceptedWord (s : State) : Option Word :=
  match s.inbox with
  | [] => none
  | .command w _ :: _ => if s.busy then none else some w
  | .act (.write off width w) :: _ => if !s.busy && admitted off width && off == cmdOffset then some w else none
  | .act (.read _ _) :: _ | .act (.take _) :: _ | .act .rst :: _ => none

/-- The machine comes from s to t by steps of one session, in which exactly these words are accepted at CMD, in this order. The host
chooses its events anew at each step (R6): between the words, and while a command waits on a full queue, it may read, take items or
write in vain. No claim about a session survives an SRST inside it (R246), so no step on the path begins a new session: neither by
RST nor by a word that is the command SRST (the same word as data of a TLOAD is none, R191); and the session never reaches ERROR,
where it has failed (R246, R276). -/
inductive SessionPath (s : State) : List Word → State → Prop where
  | start : SessionPath s [] s
  | step {ws : List Word} {t u : State} (es : List HostEvent) (h : SessionPath s ws t)
      (hrst : ∀ e rest, es = e :: rest → e.resets = false)
      (hsrst : ∀ w, acceptedWord { t with inbox := es } = some w → decode w t.pend ≠ .instr .srst)
      (hstep : Machine.step { t with inbox := es } = .next u) (herr : u.NoError) :
      SessionPath s (ws ++ (acceptedWord { t with inbox := es }).toList) u

/-- The words COUNT*, BUILD, GEN, ENC* of an encode session (R276). -/
def encodeSessionWords (counted encoded : List Byte) : List Word :=
  countsWords counted ++ [encode .build, encode .gen] ++ encsWords encoded

/-- A TLOAD of a decode session: the operands of its header and the data words that follow, whatever their bits. -/
structure LoadWords where
  len : Byte
  sym : Byte
  data : List Word
  deriving DecidableEq, Repr

/-- "The host must send exactly" ceil(LEN/32) data words (R271), for a legal LEN (R83). -/
def LoadWords.whole (l : LoadWords) : Prop := l.len ≠ 0#8 ∧ l.data.length = dataWords l.len.toNat

/-- The words TLOAD*, TFIN, DEC*, DFIN of a decode session (R276). -/
def decodeSessionWords (loads : List LoadWords) (decs : List (BitVec 4 × BitVec 16)) : List Word :=
  loads.flatMap (fun l => encode (.tload l.len l.sym) :: l.data) ++ [encode .tfin] ++
    decs.map (fun d => encode (.dec d.1 d.2)) ++ [encode .dfin]

/-- t completes an encode session begun in s: "a state reached from IDLE by COUNT*, BUILD, GEN, ENC* with PHASE = CODED and
ERRCODE = 0" (R276). BUSY = 0 says that the last of these commands has ended: until then it has not been executed whole (R57, R110),
and its overrun check is still to come (R237). -/
structure EncodeCompleted (s t : State) : Prop where
  start : s.phase = .idle
  path : ∃ counted encoded, SessionPath s (encodeSessionWords counted encoded) t
  phase : t.phase = .coded
  errCode : t.errCode = .none
  ended : t.busy = false

/-- t completes a decode session begun in s: "a state with PHASE = DONE ... reached from IDLE by TLOAD* TFIN DEC* DFIN with
ERRCODE = 0" (R276). -/
structure DecodeCompleted (s t : State) : Prop where
  start : s.phase = .idle
  path : ∃ loads decs, (∀ l ∈ loads, l.whole) ∧ SessionPath s (decodeSessionWords loads decs) t
  phase : t.phase = .done
  errCode : t.errCode = .none
  ended : t.busy = false

/-- "A session that reaches ERROR has failed" (R276). -/
def SessionFailed (t : State) : Prop := t.phase = .error

/-- The items a stream has emitted since it was `old`; the host may have taken them or not (R276). -/
def OutStream.since {α : Type} (old new : OutStream α) : List α := new.emitted.drop old.emitted.length

/-- The result of a completed encode session (R276). -/
structure EncodeResult where
  /-- "the TBL_OUT words GEN emitted (the symbol table)" -/
  table : List Word
  /-- "the BIT_OUT bits the ENCs emitted (the payload)" -/
  payload : Bits
  deriving DecidableEq, Repr

/-- The result of the encode session begun in s and completed in t: GEN alone writes TBL_OUT and ENC alone BIT_OUT (R56). -/
def encodeResult (s t : State) : EncodeResult := { table := s.tblOut.since t.tblOut, payload := s.bitOut.since t.bitOut }

/-- The result of the decode session begun in s and completed in t: "the SYM_OUT symbols the DECs emitted" (R276). -/
def decodeResult (s t : State) : List Byte := s.symOut.since t.symOut

/-- The host keeps to R270: it never writes CMD without having seen BUSY = 0. -/
def HostEvent.polite : HostEvent → Bool
  | .act (.write off _ _) => off != cmdOffset
  | .act (.read _ _) | .act (.take _) | .act .rst => true
  | .command _ during =>
    during.all fun a =>
      match a with
      | .write off _ _ => off != cmdOffset
      | .read _ _ | .take _ | .rst => true

/-- How many items of a stream the host has not taken. -/
def State.queuedCount (s : State) : StreamId → Nat
  | .bitOut => s.bitOut.queued.length
  | .symOut => s.symOut.queued.length
  | .tblOut => s.tblOut.queued.length

/-- The depth of a stream's queue. -/
def State.depthOf (s : State) : StreamId → Config.Depth
  | .bitOut => s.depths.bitq
  | .symOut => s.depths.symq
  | .tblOut => s.depths.tblq

/-- The host takes n items of a stream, one after another. -/
def takeMany (q : StreamId) : Nat → State → State
  | 0, s => s
  | n + 1, s => takeMany q n (hostTake q s)

/-! ## Invariants between steps -/

/-- What the status fields, the cursor and the TLOAD buffer keep to between steps (R25 to R28, R40 to R42, R46). -/
structure StatusInv (s : State) : Prop where
  /-- "PEND = 1 if and only if PENDW > 0" (R26) -/
  pend_iff : s.pend = true ↔ s.pendw ≠ 0#4
  /-- PENDW is 0 to 8 (R23) -/
  pendw_le : s.pendw.toNat ≤ 8
  /-- "PEND = 1 implies PHASE = LOADING" (R46) -/
  pend_loading : s.pend = true → s.phase = .loading
  /-- the words owed and the bits received make up the code announced (R192) -/
  buffer : s.pend = true → s.tllen ≠ 0#8 ∧ s.tlbits.length + 32 * s.pendw.toNat = 32 * dataWords s.tllen.toNat
  /-- "ERRCODE is 0 while PHASE ≠ ERROR" (R27), and an error has a code -/
  errCode_iff : s.errCode = .none ↔ s.phase ≠ .error
  /-- ERRINFO "is 0 while PHASE ≠ ERROR" (R28) -/
  errInfo : s.phase ≠ .error → s.errInfo = 0#32
  /-- the cursor is off the root only in DECODING, or in ERROR (R46) -/
  cursor : s.cur ≠ [] → s.phase = .decoding ∨ s.phase = .error
  /-- OVR is set only while BUSY = 1 (R42) -/
  ovr : s.ovr = true → s.busy = true
  /-- between steps BUSY = 1 only while a command waits on a full queue (R25, R57) -/
  busy : s.busy = s.stalled

/-- The cursor "rests only on internal nodes and every leaf is at depth ≤ L_MAX = 255" (R32, R40). -/
structure CursorInv (s : State) : Prop where
  /-- DEPTH's "largest value is 254" (R32) -/
  depth : s.cur.length ≤ 254
  /-- the root of the decode tree "is always `Internal`" (R38) -/
  root : s.phase = .loading ∨ s.phase = .decoding → s.root.InternalAt []
  /-- the decode tree's internal nodes are above its leaves -/
  internals : s.phase = .loading ∨ s.phase = .decoding → ∀ p, s.root.InternalAt p → p.length ≤ 254

/-- TOTAL and NSYM count F (R46, item 1). -/
structure Counts (s : State) : Prop where
  total : s.total.toNat = countTotal s.freq
  nsym : s.nsym.toNat = (countedSymbols s.freq).length

/-- No symbol has a code yet. -/
structure NoCodes (s : State) : Prop where
  clen : s.clen = Table.all 0#8
  code : s.code = Table.all []

/-- The tree store is empty (R38). -/
structure NoTree (s : State) : Prop where
  root : s.root = .empty
  nodes : s.nodes = 0#10

/-- The session has done nothing yet (R24). -/
structure EmptySession (s : State) : Prop where
  freq : s.freq = Table.all 0#32
  total : s.total = 0#32
  nsym : s.nsym = 0#9

/-- ROOT is an encode tree of the frequency table (R46, item 2; R144 to R146). -/
structure EncodeTree (s : State) : Prop where
  empty : countedSymbols s.freq = [] → s.root = .empty
  full : countedSymbols s.freq ≠ [] → s.root.full = true
  nodup : s.root.leaves.Nodup
  mem : ∀ x, x ∈ s.root.leaves ↔ Table.get s.freq x ≠ 0#32
  nodes : s.nodes.toNat = s.root.size

/-- CODE and CLEN are the codes of ROOT (R46, item 3; R162, R163). -/
structure EncodeCodes (s : State) : Prop where
  coded : ∀ x p, (x, p) ∈ genEntries s.root → Table.get s.code x = p ∧ Table.get s.clen x = BitVec.ofNat 8 p.length
  uncoded : ∀ x, Table.get s.freq x = 0#32 → Table.get s.code x = [] ∧ Table.get s.clen x = 0#8

/-- ROOT is the decode tree of the entries loaded (R38; R46, item 4). -/
structure DecodeTree (s : State) : Prop where
  freq : s.freq = Table.all 0#32
  total : s.total = 0#32
  root : s.root.InternalAt []
  nodes : s.nodes.toNat = s.root.size
  cap : s.root.size ≤ Config.nodeCap
  nsym : s.nsym.toNat = (codedSymbols s.clen).length
  lens : ∀ x, (Table.get s.code x).length = (Table.get s.clen x).toNat
  leaf : ∀ x p, s.root.nodeAt p = .leaf x ↔ Table.get s.clen x ≠ 0#8 ∧ p = Table.get s.code x

/-- What the tables, the tree and the cursor hold in each phase (R24, R31, R38, R46). -/
def SessionInv (s : State) : Prop :=
  match s.phase with
  | .idle => EmptySession s ∧ NoCodes s ∧ NoTree s
  | .counting => Counts s ∧ NoCodes s ∧ NoTree s
  | .built => Counts s ∧ NoCodes s ∧ EncodeTree s
  | .coded => Counts s ∧ EncodeTree s ∧ EncodeCodes s
  | .loading => DecodeTree s
  | .decoding => DecodeTree s ∧ s.root.InternalAt s.cur
  | .done => DecodeTree s
  | .error => True

/-- The six invariants of R46, as that rule lists them. -/
structure R46Invariants (s : State) : Prop where
  counts : s.phase = .idle ∨ s.phase = .counting ∨ s.phase = .built ∨ s.phase = .coded →
    s.total.toNat = countTotal s.freq ∧ s.nsym.toNat = (countedSymbols s.freq).length
  tree : s.phase = .built ∨ s.phase = .coded →
    (1 ≤ s.nsym.toNat → s.root.leaves.length = s.nsym.toNat ∧ s.root.internals + 1 = s.nsym.toNat) ∧
      (s.nsym.toNat = 0 → s.root = .empty)
  codes : s.phase = .coded →
    (∀ x, Table.get s.clen x ≠ 0#8 ↔ Table.get s.freq x ≠ 0#32) ∧
      ∀ x y, x ≠ y → Table.get s.clen x ≠ 0#8 → Table.get s.clen y ≠ 0#8 →
        ¬ Table.get s.code x <+: Table.get s.code y
  loaded : s.phase = .loading ∨ s.phase = .decoding ∨ s.phase = .done →
    s.nsym.toNat = (codedSymbols s.clen).length ∧
      (∀ x, Table.get s.clen x ≠ 0#8 → s.root.nodeAt (Table.get s.code x) = .leaf x) ∧
      ∀ x p, s.root.nodeAt p = .leaf x → Table.get s.clen x ≠ 0#8 ∧ p = Table.get s.code x
  pending : s.pend = true → s.phase = .loading
  cursor : (s.phase = .decoding → s.root.InternalAt s.cur) ∧
    (s.phase ≠ .decoding → s.phase ≠ .error → s.cur = [])

end Sys2Proof.Machine
end

