-- ==== Sys2Proof/Certificates/Slice0/Obligations.lean ====
section
/-! DEFINITION. The statements about HUFF-CORE for the provers. Each docstring names the rule or the section of spec/ it formalises. -/

open Sys2Proof Sys2Proof.Machine

/-! ## Words (30_encoding.md) -/

/-- Every row of 95_test_vectors.md section 2.1 (V-COD-1 to V-COD-19) decodes as that table says; and so do the words of
30_encoding.md section 1 for the commands the table leaves out (BUILD, GEN, ENC, TFIN). -/
def Obligations.SpecWordsDecode : Prop :=
  (decode 0x00000000#32 false = .instr .nop ∧ decode 0x10000000#32 false = .instr .srst ∧
    decode 0x20000061#32 false = .instr (.count 0x61#8) ∧ decode 0x20000161#32 false = .badCmd ∧
    decode 0x60000262#32 false = .instr (.tload 2#8 0x62#8) ∧ dataWords 2 = 1 ∧ decode 0x60000061#32 false = .badCmd ∧
    decode 0x60010161#32 false = .badCmd ∧ decode 0x6000FF41#32 false = .instr (.tload 255#8 0x41#8) ∧ dataWords 255 = 8) ∧
  (decode 0x60002141#32 false = .instr (.tload 33#8 0x41#8) ∧ dataWords 33 = 2 ∧
    ([0x00000000#32, 0x80000000#32].flatMap wordBits).take 33 = List.replicate 32 false ++ [true] ∧
    decode 0x60002041#32 false = .instr (.tload 32#8 0x41#8) ∧ dataWords 32 = 1 ∧
    ([0xFFFFFFFF#32].flatMap wordBits).take 32 = List.replicate 32 true) ∧
  (decode 0x80000000#32 false = .instr (.dec 0#4 0x0000#16) ∧ decBits 0#4 0x0000#16 = [false] ∧
    decode 0x80008000#32 false = .instr (.dec 0#4 0x8000#16) ∧ decBits 0#4 0x8000#16 = [true] ∧
    decode 0x80069A00#32 false = .instr (.dec 6#4 0x9A00#16) ∧
    decBits 6#4 0x9A00#16 = [true, false, false, true, true, false, true] ∧
    decode 0x800F5555#32 false = .instr (.dec 15#4 0x5555#16) ∧
    decBits 15#4 0x5555#16 = (List.replicate 8 [false, true]).flatten ∧
    decode 0x800069FF#32 false = .instr (.dec 0#4 0x69FF#16) ∧ decBits 0#4 0x69FF#16 = [false] ∧
    decode 0x80100000#32 false = .badCmd) ∧
  (decode 0xA0000000#32 false = .badOpc ∧ decode 0xF0000001#32 false = .badOpc ∧ decode 0x90000000#32 false = .instr .dfin ∧
    ∀ w, decode w true = .data w) ∧
  (decode 0x30000000#32 false = .instr .build ∧ decode 0x40000000#32 false = .instr .gen ∧
    decode 0x50000062#32 false = .instr (.enc 0x62#8) ∧ decode 0x70000000#32 false = .instr .tfin)

/-- Decoding the word of a well-formed command gives the command, every operand at every value (30_encoding.md sections 1 and 3). -/
def Obligations.DecodeAfterEncode : Prop :=
  ∀ i : Instr, i.wellFormed = true → decode (encode i) false = .instr i

/-- A word that decodes to a command is the word of that command: no bit of it is dropped (30_encoding.md sections 1 and 3). -/
def Obligations.EncodeAfterDecode : Prop :=
  ∀ (w : Word) (i : Instr), decode w false = .instr i → i.wellFormed = true ∧ encode i = w

/-- R86: a word accepted with PEND = 0 is BAD_OPC, BAD_CMD or a well-formed command, as its OPC, its reserved fields and LEN say; with
PEND = 1 it is data. -/
def Obligations.EveryWordIsOneOfThreeKinds : Prop :=
  (∀ (w : Word) (s : State), s.Ready → s.phase ≠ .error →
    (9 < opcOf w → acceptWord w s = .next (s.raised .badOpc w)) ∧
    (opcOf w ≤ 9 → (¬ reservedZero w ∨ (opcOf w = 6 ∧ fieldOf w 8 8 = 0)) → acceptWord w s = .next (s.raised .badCmd w)) ∧
    (opcOf w ≤ 9 → reservedZero w → (opcOf w = 6 → fieldOf w 8 8 ≠ 0) →
      ∃ i : Instr, i.wellFormed = true ∧ encode i = w ∧ acceptWord w s = exec i s)) ∧
  ∀ w : Word, decode w true = .data w

/-- R84: K data words assemble to the code whose bit i is D(i div 32)[31 - (i mod 32)], the bits beyond it ignored; and a code is
packed by the same formula into K words, the unused bits 0. -/
def Obligations.DataWordsCarryTheCode : Prop :=
  (∀ (s : State) (ds : List Word), s.pend = true → s.ovr = false → s.stalled = false → s.tlbits = [] →
    1 ≤ s.tllen.toNat → s.pendw.toNat = (s.tllen.toNat + 31) / 32 → ds.length = (s.tllen.toNat + 31) / 32 →
    acceptWords ds s = .next
      { applyEntry s.tlsym ((List.range s.tllen.toNat).map fun i => (ds.getD (i / 32) 0#32).getLsbD (31 - i % 32))
          { s with pend := false, pendw := 0#4, tlbits := ds.flatMap wordBits } with busy := false }) ∧
  ∀ c : Bits, (packCode c).length = (c.length + 31) / 32 ∧
    (∀ i, i < c.length → ((packCode c).getD (i / 32) 0#32).getLsbD (31 - i % 32) = c.getD i false) ∧
    ∀ i, c.length ≤ i → ((packCode c).getD (i / 32) 0#32).getLsbD (31 - i % 32) = false

/-- R85: a DEC consumes bit(j) = w[15 - j] for j = 0 .. CNT - 1, and two DECs that agree on those bits do the same. -/
def Obligations.DecIgnoresLowBits : Prop :=
  (∀ (n : BitVec 4) (b : BitVec 16),
    decBits n b = (List.range (n.toNat + 1)).map fun j => (encode (.dec n b)).getLsbD (15 - j)) ∧
  ∀ (n : BitVec 4) (b b' : BitVec 16) (s : State), s.pend = false → s.phase = .decoding →
    (∀ j, j ≤ n.toNat → b.getLsbD (15 - j) = b'.getLsbD (15 - j)) → exec (.dec n b) s = exec (.dec n b') s

/-! ## The step (40_control.md) -/

/-- One step performs the host's oldest event: a word written when BUSY = 0 is accepted with BUSY = 1 and, decoded, runs (40_control.md
section 1; 10_state.md section 1). A write made without polling is accepted the same way when BUSY = 0. -/
def Obligations.StepRunsTheDecodedCommand : Prop :=
  ∀ (s : State) (w : Word) (rest : List HostEvent), s.busy = false →
    (s.inbox = .command w [] :: rest ∨ s.inbox = .act (.write cmdOffset .w32 w) :: rest) →
    (∀ i, decode w s.pend = .instr i → step s = exec i { s with inbox := rest, busy := true }) ∧
    (∀ v, decode w s.pend = .data v → step s = .next (finish (tloadData v { s with inbox := rest, busy := true }))) ∧
    ∀ c, (decode w s.pend = .badOpc ∧ c = ErrCode.badOpc ∨ decode w s.pend = .badCmd ∧ c = ErrCode.badCmd) →
      step s = .next (rejectWord c w { s with inbox := rest, busy := true })

/-- R191, R192: while PEND = 1 every word is data, whatever its bits are; one that is not the last owed changes TLBITS and PENDW only,
the last applies the entry. -/
def Obligations.DataWordIsNeverACommand : Prop :=
  ∀ (s : State) (w : Word), s.pend = true → s.ovr = false → s.stalled = false →
    (s.pendw ≠ 1#4 → acceptWord w s = .next
      { s with tlbits := s.tlbits ++ (List.range 32).map fun j => w.getLsbD (31 - j), pendw := s.pendw - 1#4, busy := false }) ∧
    (s.pendw = 1#4 → acceptWord w s = .next
      { applyEntry s.tlsym ((s.tlbits ++ (List.range 32).map fun j => w.getLsbD (31 - j)).take s.tllen.toNat)
          { s with tlbits := s.tlbits ++ (List.range 32).map fun j => w.getLsbD (31 - j), pendw := 0#4, pend := false }
        with busy := false })

/-- R113: a command the table says "no" to raises BAD_SEQ; any other is legal and gives the table's next phase, unless the command
raises an error of its own. -/
def Obligations.PhaseTableDecides : Prop :=
  ∀ (i : Instr) (s : State), i.wellFormed = true → s.Ready → s.phase ≠ .error →
    (phaseTable i s.phase = none → exec i s = .next (s.raised .badSeq (encode i))) ∧
    ∀ p, phaseTable i s.phase = some p → ∃ t, exec i s = .next t ∧
      (t.phase = p ∨ (t.phase = .error ∧ t.errCode ∈ [.countOvf, .noCode, .badPath, .truncated]))

/-- R112: in ERROR the word 0x10000000 executes SRST; any other words are discarded, TLOAD headers and what follows them too. -/
def Obligations.ErrorDiscardsAllButSrst : Prop :=
  (∀ (s : State) (ws : List Word), s.Ready → s.busy = false → s.phase = .error → (∀ w ∈ ws, w ≠ 0x10000000#32) →
    acceptWords ws s = .next s) ∧
  ∀ s : State, s.Ready → s.phase = .error → acceptWord 0x10000000#32 s = exec .srst s ∧
    ∃ t, exec .srst s = .next t ∧ t.phase = .idle ∧ t.errCode = .none ∧ t.errInfo = 0#32

/-- R238: only SRST and RST leave ERROR, and both to IDLE; there errors do not nest. -/
def Obligations.OnlySrstAndRstLeaveError : Prop :=
  ∀ s s' : State, StatusInv s → s.phase = .error → step s = .next s' →
    (s'.phase = .error ∧ s'.errCode = s.errCode ∧ s'.errInfo = s.errInfo) ∨
    (s'.phase = .idle ∧ s'.errCode = .none ∧ s'.errInfo = 0#32 ∧
      ∃ e rest, s.inbox = e :: rest ∧ (e.resets = true ∨ e.writes 0x10000000#32 = true))

/-- R115: NOP changes no state and emits nothing; while PEND = 1 its word is 32 zero code bits; a NOP word with w[27:0] ≠ 0 raises
BAD_CMD. -/
def Obligations.NopDoesNothing : Prop :=
  (∀ s : State, s.Ready → exec .nop s = .next { s with busy := false }) ∧
  (∀ s : State, s.pend = true → acceptWord 0x00000000#32 s = .next (finish (tloadData 0x00000000#32 s))) ∧
  ∀ (s : State) (w : Word), s.Ready → s.phase ≠ .error → opcOf w = 0 → fieldOf w 0 28 ≠ 0 →
    acceptWord w s = .next (s.raised .badCmd w)

/-- R116: SRST clears the session, in every phase, and keeps the streams; it drops a lost word without an error; while PEND = 1 its
word is data; an SRST word with w[27:0] ≠ 0 raises BAD_CMD, and in ERROR it is discarded. No other command leaves ERROR. -/
def Obligations.SrstEndsTheSession : Prop :=
  (∀ s : State, s.pend = false → exec .srst s = .next
    { s with
      phase := .idle, busy := false, pend := false, pendw := 0#4, errCode := .none, errInfo := 0#32, nsym := 0#9,
      total := 0#32, nodes := 0#10, bitcnt := 0#32, symcnt := 0#32, freq := Vector.replicate 256 0#32,
      clen := Vector.replicate 256 0#8, code := Vector.replicate 256 [], root := .empty, cur := [], tlsym := 0#8,
      tllen := 0#8, tlbits := [], ovr := false, ovrWord := 0#32 }) ∧
  (∀ s : State, s.pend = true → acceptWord 0x10000000#32 s = .next (finish (tloadData 0x10000000#32 s))) ∧
  (∀ (s : State) (w : Word), s.Ready → opcOf w = 1 → fieldOf w 0 28 ≠ 0 →
    acceptWord w s = .next (if s.phase = .error then { s with busy := false } else s.raised .badCmd w)) ∧
  ∀ (i : Instr) (s : State), s.Ready → s.phase = .error → i ≠ .srst → exec i s = .next { s with busy := false }

/-- 60_exceptions.md section 4 (errors are precise): when a command or a data word ends in ERROR, the tables, the tree and the
counters but SYMCNT are as before it, nothing went to BIT_OUT or TBL_OUT, and unless it is a DEC the cursor and SYM_OUT are as
before too; PEND, PENDW and OVR are clear. -/
def Obligations.ErrorsArePrecise : Prop :=
  ∀ (w : Word) (s t : State), s.ovr = false → s.stalled = false → s.phase ≠ .error → acceptWord w s = .next t → t.phase = .error →
    (t.errCode ≠ .none ∧ t.pend = false ∧ t.pendw = 0#4 ∧ t.ovr = false) ∧
    (t.freq = s.freq ∧ t.total = s.total ∧ t.nsym = s.nsym ∧ t.nodes = s.nodes ∧ t.root = s.root ∧ t.clen = s.clen ∧
      t.code = s.code ∧ t.bitcnt = s.bitcnt ∧ t.bitOut = s.bitOut ∧ t.tblOut = s.tblOut ∧ t.tlsym = s.tlsym ∧
      t.tllen = s.tllen ∧ t.ovrWord = s.ovrWord) ∧
    (s.pend = true ∨ opcOf w ≠ 8 → t.cur = s.cur ∧ t.symcnt = s.symcnt ∧ t.symOut = s.symOut)

/-- R237: a CMD write while BUSY = 1 is latched, the first one only; when the running command (one that is executed, not a word that
ERROR discards) ends, at once or with the take it waited for, it is reported unless that command raised an error; SRST drops it. -/
def Obligations.OverrunIsReportedAtTheEnd : Prop :=
  (∀ (s : State) (v : Word), s.busy = true → hostAct (.write cmdOffset .w32 v) s =
    .next { s with ovr := true, ovrWord := if s.ovr then s.ovrWord else v }) ∧
  (∀ (w : Word) (s t : State), s.ovr = true → s.phase ≠ .error → (w ≠ 0x10000000#32 ∨ s.pend = true) →
    acceptWord w { s with ovr := false } = .next t → t.stalled = false →
    acceptWord w s = .next (if t.phase = .error then t else t.raised .overrun s.ovrWord)) ∧
  (∀ (s : State) (q : StreamId), s.busy = true → s.ovr = true → (s.takeFrom q).stalled = false →
    hostTake q s = if s.phase = .error then { s.takeFrom q with ovr := false, busy := false }
      else (s.takeFrom q).raised .overrun s.ovrWord) ∧
  ∀ s : State, s.pend = false → ∃ t, acceptWord 0x10000000#32 s = .next t ∧ t.phase = .idle ∧ t.ovr = false

/-- The model's event for a write that lands while a command is BUSY (the model's choice, log 6; 60_exceptions.md section 4): the
command runs with the word latched. -/
def Obligations.WriteInTheBusyWindow : Prop :=
  ∀ (s : State) (w v : Word) (as : List HostAct) (rest : List HostEvent), s.busy = false → s.ovr = false →
    (s.pend = true → s.pendw.toNat ≤ 1) → s.inbox = .command w (.write cmdOffset .w32 v :: as) :: rest →
    (∀ a ∈ as, ∃ u, a = .write cmdOffset .w32 u) →
    step s = acceptWord w { s with inbox := rest, busy := true, ovr := true, ovrWord := v }

/-! ## COUNT (41_frequency_counter.md) -/

/-- R130: COUNT's effect and its errors, in order. -/
def Obligations.CountAddsOne : Prop :=
  ∀ (s : State) (sym : Byte), s.Ready → s.phase ≠ .error →
    ((s.phase = .idle ∨ s.phase = .counting) → s.total ≠ 0xFFFFFFFF#32 → exec (.count sym) s = .next
      { s with
        nsym := if Table.get s.freq sym = 0#32 then s.nsym + 1#9 else s.nsym
        freq := Table.set s.freq sym (Table.get s.freq sym + 1#32)
        total := s.total + 1#32
        phase := .counting
        busy := false }) ∧
    ((s.phase = .idle ∨ s.phase = .counting) → s.total = 0xFFFFFFFF#32 →
      exec (.count sym) s = .next (s.raised .countOvf (encode (.count sym)))) ∧
    (s.phase ≠ .idle → s.phase ≠ .counting → exec (.count sym) s = .next (s.raised .badSeq (encode (.count sym)))) ∧
    ∀ w, opcOf w = 2 → fieldOf w 8 20 ≠ 0 → acceptWord w s = .next (s.raised .badCmd w)

/-- R131: after COUNTs of b1 .. bm from IDLE, F[s] is how often s occurs, TOTAL is m, and NSYM the number of distinct bi. -/
def Obligations.CountsCountOccurrences : Prop :=
  ∀ (s : State) (bs : List Byte), s.Ready → s.phase = .idle → EmptySession s → bs.length ≤ 0xFFFFFFFF →
    ∃ t, acceptWords (countsWords bs) s = .next t ∧ (∀ x, (Table.get t.freq x).toNat = bs.count x) ∧
      t.total.toNat = bs.length ∧ t.nsym.toNat = bs.dedup.length ∧ t.phase = if bs = [] then .idle else .counting

/-! ## BUILD (42_tree_builder.md) -/

/-- BUILD in IDLE and COUNTING makes ROOT, NODES and the phase from F alone; elsewhere it raises BAD_SEQ (42_tree_builder.md section
1). -/
def Obligations.BuildMakesTheTree : Prop :=
  ∀ s : State, s.Ready → s.phase ≠ .error →
    ((s.phase = .idle ∨ s.phase = .counting) → exec .build s = .next
      { s with
        root := buildTree s.freq
        nodes := BitVec.ofNat 10 (2 * (countedSymbols s.freq).length - 1)
        phase := .built
        busy := false }) ∧
    (s.phase ≠ .idle → s.phase ≠ .counting → exec .build s = .next (s.raised .badSeq 0x30000000#32)) ∧
    ∀ w, opcOf w = 3 → fieldOf w 0 28 ≠ 0 → acceptWord w s = .next (s.raised .badCmd w)

/-- R141: the queue starts with one leaf for each symbol with a count, in ascending order of symbols, numbered 0, 1, ... -/
def Obligations.QueueStartsWithTheLeaves : Prop :=
  ∀ f : Table Word,
    (initialQueue f).map QEntry.node = (countedSymbols f).map HTree.leaf ∧
    (initialQueue f).map QEntry.freq = (countedSymbols f).map (Table.get f) ∧
    (initialQueue f).map QEntry.seq = List.range (countedSymbols f).length ∧
    (countedSymbols f).Pairwise fun x y => x.toNat < y.toNat

/-- R143, R147: the tree BUILD makes comes out of the merge rule (the two entries that come first in the order of R142, first left,
second right, weights added, next number) after N - 1 merges, each of which creates one internal node, and it is the only one that
does, whatever the layout of the queue. -/
def Obligations.BuildFollowsTheMergeRule : Prop :=
  ∀ f : Table Word, countedSymbols f ≠ [] →
    Merges (initialQueue f) (initialQueue f).length (buildTree f) ∧
    (buildTree f).internals = (countedSymbols f).length - 1 ∧
    ∀ (q : List QEntry) (t : HTree), q.Perm (initialQueue f) → Merges q (initialQueue f).length t → t = buildTree f

/-- 42_tree_builder.md section 2: BUILD of N symbols gives `Empty` for N = 0, the one leaf for N = 1, and for N ≥ 1 a tree of N
leaves, one for each symbol counted, N - 1 internal nodes and no `Empty` place; NODES is 2N - 1, or 0. -/
def Obligations.BuiltTreeShape : Prop :=
  ∀ s : State, s.Ready → (s.phase = .idle ∨ s.phase = .counting) → ∃ t, exec .build s = .next t ∧
    (countedSymbols s.freq = [] → t.root = .empty ∧ t.nodes = 0#10) ∧
    (∀ x, countedSymbols s.freq = [x] → t.root = .leaf x ∧ t.nodes = 1#10) ∧
    (countedSymbols s.freq ≠ [] →
      t.root.full = true ∧ t.root.leaves.Perm (countedSymbols s.freq) ∧
      t.root.internals + 1 = (countedSymbols s.freq).length ∧ t.nodes.toNat + 1 = 2 * (countedSymbols s.freq).length ∧
      t.nodes.toNat = t.root.size ∧
      (countTotal s.freq = s.total.toNat → (t.root.leaves.map fun x => (Table.get s.freq x).toNat).sum = s.total.toNat))

/-- R148: the weight of a combined node is the sum of the counts of the leaves under it, and the addition never wraps. -/
def Obligations.WeightsNeverWrap : Prop :=
  ∀ f : Table Word, countTotal f ≤ 0xFFFFFFFF →
    (Weighted f (initialQueue f) ∧ weightSum (initialQueue f) = countTotal f) ∧
    ∀ (q q1 q2 : List QEntry) (a b : QEntry) (seq : Nat), Weighted f q → weightSum q = countTotal f →
      extractMin q = some (a, q1) → extractMin q1 = some (b, q2) →
      (a.freq + b.freq).toNat = a.freq.toNat + b.freq.toNat ∧ Weighted f (combine a b seq :: q2) ∧
        weightSum (combine a b seq :: q2) = countTotal f

/-! ## GEN (43_code_table_generator.md) -/

/-- GEN in BUILT records the codes of the leaves, emits the table and enters CODED, BUSY while TBL_OUT is full; elsewhere it raises
BAD_SEQ (43_code_table_generator.md section 1). -/
def Obligations.GenRecordsAndEmits : Prop :=
  ∀ s : State, s.Ready → s.phase ≠ .error →
    (s.phase = .built → ∃ t : State, exec .gen s = .next { t with busy := t.stalled } ∧ t =
      { s with
        code := recordCodes (genEntries s.root) s.code
        clen := recordLens (genEntries s.root) s.clen
        tblOut := { s.tblOut with
          queued := s.tblOut.queued ++
            ((genEntries s.root).flatMap (fun e =>
              (0x60000000#32 ||| (BitVec.ofNat 8 e.2.length).setWidth 32 <<< 8 ||| e.1.setWidth 32) :: packCode e.2) ++
              [0x70000000#32]) }
        phase := .coded }) ∧
    (s.phase ≠ .built → exec .gen s = .next (s.raised .badSeq 0x40000000#32)) ∧
    ∀ w, opcOf w = 4 → fieldOf w 0 28 ≠ 0 → acceptWord w s = .next (s.raised .badCmd w)

/-- R161: the traversal visits every leaf exactly once, with its path, and the left subtree before the right one at every internal
node. -/
def Obligations.TraversalIsLeftFirst : Prop :=
  ∀ l r : HTree,
    (∀ x p, (x, p) ∈ genEntries (.internal l r) ↔ (HTree.internal l r).nodeAt p = .leaf x) ∧
    (genEntries (.internal l r)).Pairwise fun d e => ∃ u v w, d.2 = u ++ false :: v ∧ e.2 = u ++ true :: w

/-- R162, R163: in a session GEN sets CODE[s] to the path of the leaf of s and CLEN[s] to its length, the one leaf of N = 1 gets the
code "0", and a symbol without a leaf keeps CLEN[s] = 0. (43_code_table_generator.md section 2.) -/
def Obligations.CodesAreTheLeafPaths : Prop :=
  ∀ s : State, s.Ready → s.phase = .built → SessionInv s → ∃ t, exec .gen s = .next t ∧
    (∀ x p, p ≠ [] → s.root.nodeAt p = .leaf x → Table.get t.code x = p ∧ (Table.get t.clen x).toNat = p.length) ∧
    (∀ x, s.root = .leaf x → Table.get t.code x = [false] ∧ Table.get t.clen x = 1#8) ∧
    ∀ x, Table.get s.freq x = 0#32 → x ∉ s.root.leaves ∧ Table.get t.clen x = 0#8 ∧ Table.get t.code x = []

/-- R167: with ROOT = Empty no entry is recorded, CLEN stays all 0, and GEN emits only 0x70000000. -/
def Obligations.GenOfTheEmptyTree : Prop :=
  ∀ s : State, s.Ready → s.phase = .built → s.root = .empty → s.clen = Table.all 0#8 → ∃ t, exec .gen s = .next t ∧
    t.clen = Table.all 0#8 ∧ t.code = s.code ∧ t.tblOut.emitted = s.tblOut.emitted ++ [0x70000000#32]

/-- The table of a single symbol is 0x60000100 | s, 0x00000000, 0x70000000 (43_code_table_generator.md section 2; the rule of N =
1). -/
def Obligations.GenOfTheSingleLeaf : Prop :=
  ∀ (s : State) (x : Byte), s.Ready → s.phase = .built → s.root = .leaf x → ∃ t, exec .gen s = .next t ∧
    Table.get t.code x = [false] ∧ Table.get t.clen x = 1#8 ∧
    t.tblOut.emitted = s.tblOut.emitted ++ [0x60000100#32 ||| x.setWidth 32, 0x00000000#32, 0x70000000#32]

/-- 43_code_table_generator.md section 2, the table format: GEN emits 1 + Σ over s with CLEN[s] > 0 of (1 + ceil(CLEN[s] / 32)) words,
the last of them the TFIN word. -/
def Obligations.TableWordCount : Prop :=
  ∀ s : State, s.Ready → s.phase = .built → SessionInv s → ∃ t words, exec .gen s = .next t ∧
    t.tblOut.emitted = s.tblOut.emitted ++ words ∧ words.getLast? = some 0x70000000#32 ∧
    words.length = 1 + ((codedSymbols t.clen).map fun x => 1 + ((Table.get t.clen x).toNat + 31) / 32).sum

/-- R166: the codes of an encode session are prefix-free, 1 to N - 1 bits long (1 bit for N = 1), and for N ≥ 2 complete: Σ 2^(-CLEN) =
1, here multiplied by 2^255. -/
def Obligations.CodesAreCompleteAndPrefixFree : Prop :=
  ∀ s : State, s.phase = .coded → SessionInv s →
    (∀ x y, x ≠ y → Table.get s.clen x ≠ 0#8 → Table.get s.clen y ≠ 0#8 → ¬ Table.get s.code x <+: Table.get s.code y) ∧
    (∀ x, Table.get s.clen x ≠ 0#8 → (Table.get s.clen x).toNat = (Table.get s.code x).length ∧
      (2 ≤ s.nsym.toNat → (Table.get s.clen x).toNat ≤ s.nsym.toNat - 1) ∧
      (s.nsym.toNat = 1 → Table.get s.clen x = 1#8)) ∧
    (2 ≤ s.nsym.toNat →
      ((codedSymbols s.clen).map fun x => 2 ^ (255 - (Table.get s.clen x).toNat)).sum = 2 ^ 255)

/-! ## ENC (44_stream_encoder.md) -/

/-- R180: ENC's effect and its errors, in order; it is BUSY while BIT_OUT is full. -/
def Obligations.EncEmitsTheCode : Prop :=
  ∀ (s : State) (sym : Byte), s.Ready → s.phase ≠ .error →
    (s.phase = .coded → Table.get s.clen sym ≠ 0#8 → ∃ t : State, exec (.enc sym) s = .next { t with busy := t.stalled } ∧ t =
      { s with
        bitOut := { s.bitOut with
          queued := s.bitOut.queued ++ (Table.get s.code sym).take (Table.get s.clen sym).toNat }
        bitcnt := BitVec.ofNat 32 (s.bitcnt.toNat + (Table.get s.clen sym).toNat) }) ∧
    (s.phase = .coded → Table.get s.clen sym = 0#8 → exec (.enc sym) s = .next (s.raised .noCode (sym.setWidth 32))) ∧
    (s.phase ≠ .coded → exec (.enc sym) s = .next (s.raised .badSeq (encode (.enc sym)))) ∧
    ∀ w, opcOf w = 5 → fieldOf w 8 20 ≠ 0 → acceptWord w s = .next (s.raised .badCmd w)

/-- R181: ENC b1 .. ENC bm emit exactly CODE[b1] ++ ... ++ CODE[bm]; the length is Σ CLEN[bi], with no padding. (Said of an unbounded
BIT_OUT, which R57 calls exact in the values: no ENC waits.) -/
def Obligations.EncsConcatenateTheCodes : Prop :=
  ∀ (s : State) (bs : List Byte), s.Ready → s.phase = .coded → s.depths.bitq = .unbounded →
    (∀ b ∈ bs, Table.get s.clen b ≠ 0#8 ∧ (Table.get s.code b).length = (Table.get s.clen b).toNat) →
    ∃ t, acceptWords (encsWords bs) s = .next t ∧ t.phase = .coded ∧
      t.bitOut.emitted = s.bitOut.emitted ++ bs.flatMap (Table.get s.code) ∧
      t.bitcnt = s.bitcnt + BitVec.ofNat 32 (bs.flatMap (Table.get s.code)).length ∧
      (bs.flatMap (Table.get s.code)).length = (bs.map fun b => (Table.get s.clen b).toNat).sum

/-- 44_stream_encoder.md (totality): in an encode session every symbol that was counted has a code, so ENC of it never raises
NO_CODE. -/
def Obligations.CountedSymbolsHaveCodes : Prop :=
  ∀ (s : State) (x : Byte), s.Ready → s.phase = .coded → SessionInv s → Table.get s.freq x ≠ 0#32 →
    Table.get s.clen x ≠ 0#8 ∧ (Table.get s.code x).length = (Table.get s.clen x).toNat ∧
    ∃ t, exec (.enc x) s = .next t ∧ t.phase = .coded ∧ t.errCode = s.errCode

/-! ## TLOAD and TFIN (45_tree_rebuilder.md) -/

/-- R190: the TLOAD header's effect and its errors. -/
def Obligations.TloadHeaderStartsAnEntry : Prop :=
  ∀ (s : State) (len sym : Byte), s.Ready → s.phase ≠ .error → len ≠ 0#8 →
    (s.phase = .idle → exec (.tload len sym) s = .next
      { s with
        root := .internal .empty .empty, nodes := 1#10, cur := [], phase := .loading, tlsym := sym, tllen := len,
        tlbits := [], pend := true, pendw := BitVec.ofNat 4 ((len.toNat + 31) / 32), busy := false }) ∧
    (s.phase = .loading → exec (.tload len sym) s = .next
      { s with
        tlsym := sym, tllen := len, tlbits := [], pend := true, pendw := BitVec.ofNat 4 ((len.toNat + 31) / 32),
        busy := false }) ∧
    (s.phase ≠ .idle → s.phase ≠ .loading →
      exec (.tload len sym) s = .next (s.raised .badSeq (encode (.tload len sym)))) ∧
    ∀ w, opcOf w = 6 → (fieldOf w 16 12 ≠ 0 ∨ fieldOf w 8 8 = 0) → acceptWord w s = .next (s.raised .badCmd w)

/-- R193 to R196: the last data word applies the entry (s, c): DUP_SYM, CONFLICT when a leaf is on the path of c or something stands
at its end, TREE_FULL when the nodes it lacks do not fit, in this order; else the leaf stands at c, internal nodes above it, every
other place as before, and NODES, CLEN, CODE, NSYM count it. -/
def Obligations.EntryChecksThenInserts : Prop :=
  ∀ (s : State) (w : Word) (c : Bits) (sym : Byte), s.pend = true → s.pendw = 1#4 → s.ovr = false → s.stalled = false →
    s.phase = .loading → s.root.InternalAt [] → sym = s.tlsym →
    c = (s.tlbits ++ (List.range 32).map fun j => w.getLsbD (31 - j)).take s.tllen.toNat → c ≠ [] →
    ∃ t, acceptWord w s = .next t ∧
      (let s0 := { s with tlbits := s.tlbits ++ (List.range 32).map fun j => w.getLsbD (31 - j), pend := false, pendw := 0#4 }
       let missing := (c.inits.filter fun p => s.root.nodeAt p = .empty).length
       let collides := (∃ p x, p <+: c ∧ s.root.nodeAt p = .leaf x) ∨ s.root.nodeAt c ≠ .empty
       (Table.get s.clen sym ≠ 0#8 → t = s0.raised .dupSym (sym.setWidth 32)) ∧
       (Table.get s.clen sym = 0#8 → collides → t = s0.raised .conflict (sym.setWidth 32)) ∧
       (Table.get s.clen sym = 0#8 → ¬ collides → 511 < s.nodes.toNat + missing →
         t = s0.raised .treeFull (sym.setWidth 32)) ∧
       (Table.get s.clen sym = 0#8 → ¬ collides → s.nodes.toNat + missing ≤ 511 →
         t = { s0 with
           root := t.root
           nodes := BitVec.ofNat 10 (s.nodes.toNat + missing)
           clen := Table.set s.clen sym (BitVec.ofNat 8 c.length)
           code := Table.set s.code sym c
           nsym := s.nsym + 1#9
           busy := false } ∧
         (∀ p x, t.root.nodeAt p = .leaf x ↔ (p = c ∧ x = sym) ∨ s.root.nodeAt p = .leaf x) ∧
         (∀ p, t.root.InternalAt p ↔ (p <+: c ∧ p ≠ c) ∨ s.root.InternalAt p) ∧
         t.root.size = s.root.size + missing))

/-- R198: in a decode session begun in IDLE, entries with distinct symbols and prefix-free codes load in any order without an error
and give the same ROOT: the leaf of s at its code, the proper prefixes internal, every other place Empty; NODES is 1 and the distinct
non-empty prefixes. TFIN ends the table (and makes the tree of an empty one); where there is an entry, the tree is there before it. -/
def Obligations.LoadingOrderDoesNotMatter : Prop :=
  ∀ (s : State) (es es' : List (Byte × Bits)), s.Ready → s.phase = .idle → SessionInv s → Loadable es → es.Perm es' →
    ∃ t t', acceptWords (es.flatMap (fun e => entryWords e.1 e.2) ++ [encode .tfin]) s = .next t ∧
      acceptWords (es'.flatMap (fun e => entryWords e.1 e.2) ++ [encode .tfin]) s = .next t' ∧
      (t.phase = .decoding ∧ t.errCode = s.errCode) ∧ (t'.phase = .decoding ∧ t'.errCode = s.errCode) ∧
      t.root = t'.root ∧ t.clen = t'.clen ∧ t.code = t'.code ∧ t.nodes = t'.nodes ∧
      (∀ p x, t.root.nodeAt p = .leaf x ↔ (x, p) ∈ es) ∧
      (∀ p, t.root.InternalAt p ↔ p = [] ∨ ∃ e ∈ es, p <+: e.2 ∧ p ≠ e.2) ∧
      t.nodes.toNat = 1 + (codePrefixes es).length ∧
      (es ≠ [] → ∃ u, acceptWords (es.flatMap fun e => entryWords e.1 e.2) s = .next u ∧ u.phase = .loading ∧
        u.errCode = s.errCode ∧ u.root = t.root ∧ u.nodes = t.nodes ∧ u.clen = t.clen ∧ u.code = t.code)

/-- R199: the words GEN emitted, replayed in a decode session, rebuild the encode tree for N ≥ 2, Internal(Leaf(s), Empty) for N = 1 and
Internal(Empty, Empty) for N = 0; NODES is 2N - 1, 2 and 1. -/
def Obligations.ReplayRebuildsTheTree : Prop :=
  ∀ (s d : State), s.phase = .coded → SessionInv s → d.Ready → d.phase = .idle → SessionInv d →
    ∃ t, acceptWords (tableOut (genEntries s.root)) d = .next t ∧ t.phase = .decoding ∧ t.errCode = d.errCode ∧
      (2 ≤ s.nsym.toNat → t.root = s.root ∧ t.nodes.toNat = 2 * s.nsym.toNat - 1) ∧
      (∀ x, s.root = .leaf x → t.root = .internal (.leaf x) .empty ∧ t.nodes = 2#10) ∧
      (s.nsym.toNat = 0 → t.root = .internal .empty .empty ∧ t.nodes = 1#10) ∧
      ∀ x, Table.get t.clen x = Table.get s.clen x ∧ Table.get t.code x = Table.get s.code x

/-- R200: TFIN's effect and its errors. -/
def Obligations.TfinStartsDecoding : Prop :=
  ∀ s : State, s.Ready → s.phase ≠ .error →
    (s.phase = .idle → exec .tfin s = .next
      { s with root := .internal .empty .empty, nodes := 1#10, cur := [], phase := .decoding, busy := false }) ∧
    (s.phase = .loading → exec .tfin s = .next { s with cur := [], phase := .decoding, busy := false }) ∧
    (s.phase ≠ .idle → s.phase ≠ .loading → exec .tfin s = .next (s.raised .badSeq 0x70000000#32)) ∧
    (∀ w, opcOf w = 7 → fieldOf w 0 28 ≠ 0 → acceptWord w s = .next (s.raised .badCmd w)) ∧
    ∀ u : State, u.pend = true → acceptWord 0x70000000#32 u = .next (finish (tloadData 0x70000000#32 u))

/-! ## DEC and DFIN (46_stream_decoder.md) -/

/-- R210, R212, R213: a DEC walks the tree from the cursor over its bits, emitting a symbol at each leaf and going on from the root; at
the first bit that selects an Empty child it raises BAD_PATH, keeps what the bits before did, and consumes no more. Elsewhere than
in DECODING it raises BAD_SEQ. It is BUSY while SYM_OUT is full. -/
def Obligations.DecWalksTheTree : Prop :=
  ∀ (s : State) (n : BitVec 4) (b : BitVec 16), s.Ready → s.phase ≠ .error →
    (s.phase = .decoding →
      (∀ out cur, walk s.root s.cur (decBits n b) = some (out, cur) →
        ∃ t : State, exec (.dec n b) s = .next { t with busy := t.stalled } ∧ t =
          { s with
            symOut := { s.symOut with queued := s.symOut.queued ++ out }
            symcnt := BitVec.ofNat 32 (s.symcnt.toNat + out.length)
            cur := cur }) ∧
      (walk s.root s.cur (decBits n b) = none →
        ∃ j out cur, j ≤ n.toNat ∧ walk s.root s.cur ((decBits n b).take j) = some (out, cur) ∧
          s.root.nodeAt (cur ++ [b.getLsbD (15 - j)]) = .empty ∧
          ∃ t : State, exec (.dec n b) s = .next { t with busy := t.stalled } ∧ t =
            { s with
              symOut := { s.symOut with queued := s.symOut.queued ++ out }
              symcnt := BitVec.ofNat 32 (s.symcnt.toNat + out.length)
              cur := cur
              phase := .error
              errCode := .badPath
              errInfo := 0#19 ++ BitVec.ofBool (b.getLsbD (15 - j)) ++ BitVec.ofNat 4 j ++ BitVec.ofNat 8 cur.length
              pend := false
              pendw := 0#4
              ovr := false })) ∧
    (s.phase ≠ .decoding → exec (.dec n b) s = .next (s.raised .badSeq (encode (.dec n b)))) ∧
    ∀ w, opcOf w = 8 → fieldOf w 20 8 ≠ 0 → acceptWord w s = .next (s.raised .badCmd w)

/-- 46_stream_decoder.md sections 1 and 2: from the root, the bits of any symbols' codes, fed as DECS in words of up to 16 bits, emit
exactly the symbols and leave the cursor at the root; then DFIN ends the session. (Said of an unbounded SYM_OUT, which R57 calls exact
in the values: no DEC waits.) -/
def Obligations.CodesDecodeToTheirSymbols : Prop :=
  ∀ (s : State) (bs : List Byte) (code : Byte → Bits), s.Ready → s.phase = .decoding → s.cur = [] →
    s.depths.symq = .unbounded → s.root.InternalAt [] → (∀ b ∈ bs, s.root.nodeAt (code b) = .leaf b) →
    ∃ t u, acceptWords (decsWords (bs.flatMap code)) s = .next t ∧ t.symOut.emitted = s.symOut.emitted ++ bs ∧ t.cur = [] ∧
      t.symcnt = s.symcnt + BitVec.ofNat 32 bs.length ∧ t.phase = .decoding ∧
      exec .dfin t = .next u ∧ u.phase = .done ∧ u.symOut = t.symOut

/-- R215, R216: DFIN at the root gives DONE, off the root it raises TRUNCATED with the depth; elsewhere than in DECODING it raises
BAD_SEQ. -/
def Obligations.DfinChecksTheCursor : Prop :=
  ∀ s : State, s.Ready → s.phase ≠ .error →
    (s.phase = .decoding → s.cur = [] → exec .dfin s = .next { s with phase := .done, busy := false }) ∧
    (s.phase = .decoding → s.cur ≠ [] → exec .dfin s = .next (s.raised .truncated (BitVec.ofNat 32 s.cur.length))) ∧
    (s.phase ≠ .decoding → exec .dfin s = .next (s.raised .badSeq 0x90000000#32)) ∧
    ∀ w, opcOf w = 9 → fieldOf w 0 28 ≠ 0 → acceptWord w s = .next (s.raised .badCmd w)

/-- R214: decoding inverts encoding, for every byte sequence that TOTAL can count, the empty one and a single repeated byte among them,
from any two states between commands: the words of ENCODE complete an encode session (R276), whose result DECODE takes, and complete
a decode session with the bytes as its result. (Said of unbounded queues, which R57 calls exact in the values: no command waits.) -/
def Obligations.DecodingInvertsEncoding : Prop :=
  ∀ (bs : List Byte) (s d : State), bs.length ≤ 0xFFFFFFFF → s.Ready → d.Ready →
    s.depths = { bitq := .unbounded, symq := .unbounded, tblq := .unbounded } →
    d.depths = { bitq := .unbounded, symq := .unbounded, tblq := .unbounded } →
    ∃ s0 e d0 t, exec .srst s = .next s0 ∧ acceptWords (encodeWords bs) s = .next e ∧ EncodeCompleted s0 e ∧
      e.tblOut.emitted = s.tblOut.emitted ++ (encodeResult s0 e).table ∧
      e.bitOut.emitted = s.bitOut.emitted ++ (encodeResult s0 e).payload ∧
      exec .srst d = .next d0 ∧ acceptWords (decodeWords (encodeResult s0 e).table (encodeResult s0 e).payload) d = .next t ∧
      DecodeCompleted d0 t ∧ decodeResult d0 t = bs ∧ t.symOut.emitted = d.symOut.emitted ++ bs

/-! ## Ports and streams (20_memory.md) -/

/-- R52: a register read with BUSY = 0 returns the value of the register map, 0 for CMD and for every reserved offset, and changes
nothing else. -/
def Obligations.RegisterReads : Prop :=
  (∀ s : State, regRead s 0x000 = 0x48554631#32 ∧ regRead s 0x004 = 0#32 ∧
    regRead s 0x008 = BitVec.ofNat 32 ((phaseBits s.phase).toNat + 16 * s.busy.toNat + 32 * s.pend.toNat +
      256 * s.pendw.toNat + 65536 * (errCodeBits s.errCode).toNat) ∧
    regRead s 0x00C = s.errInfo ∧ (regRead s 0x010).toNat = s.nsym.toNat ∧ regRead s 0x014 = s.total ∧
    (regRead s 0x018).toNat = s.nodes.toNat ∧ regRead s 0x01C = BitVec.ofNat 32 (s.cur.length % 256) ∧
    regRead s 0x020 = s.bitcnt ∧ regRead s 0x024 = s.symcnt ∧
    (∀ x : Byte, regRead s (BitVec.ofNat 12 (0x400 + 4 * x.toNat)) = Table.get s.freq x) ∧
    (∀ x : Byte, (regRead s (BitVec.ofNat 12 (0x800 + 4 * x.toNat))).toNat = (Table.get s.clen x).toNat) ∧
    ∀ off : BitVec 12, off.toNat % 4 = 0 → (0x028 ≤ off.toNat ∧ off.toNat < 0x400) ∨ 0xC00 ≤ off.toNat →
      regRead s off = 0#32) ∧
  ∀ (s : State) (off : BitVec 12), s.busy = false → off.toNat % 4 = 0 →
    hostAct (.read off .w32) s = .next { s with readData := regRead s off }

/-- R60: a read while BUSY = 1 has no side effect on the block; STATUS reads with BUSY = 1, ID is constant, and the bits that STATUS,
NSYM, NODES, DEPTH, CLEN[s] and a reserved offset never use are 0. The other bits are the free value of log 4: nothing is said of
them. (A read of CMD is the statement ReadOfCmdWhileBusy.) -/
def Obligations.ReadsWhileBusy : Prop :=
  ∀ (s : State) (off : BitVec 12), s.busy = true → off.toNat % 4 = 0 →
    ∃ v, hostAct (.read off .w32) s = .next { s with readData := v, draws := s.draws + 1 } ∧
      (off = 0x000 → v = 0x48554631#32) ∧ (off = 0x008 → v.getLsbD 4 = true ∧ v &&& 0xFF00F0C0#32 = 0#32) ∧
      (off = 0x010 → v.toNat < 2 ^ 9) ∧ (off = 0x018 → v.toNat < 2 ^ 10) ∧ (off = 0x01C → v.toNat < 2 ^ 8) ∧
      (∀ x : Byte, off = BitVec.ofNat 12 (0x800 + 4 * x.toNat) → v.toNat < 2 ^ 8) ∧
      ((0x028 ≤ off.toNat ∧ off.toNat < 0x400) ∨ 0xC00 ≤ off.toNat → v = 0#32)

/-- R54: a write to any offset but CMD is ignored and changes no state; a reserved offset reads 0. -/
def Obligations.OtherWritesAreIgnored : Prop :=
  (∀ (s : State) (off : BitVec 12) (w : Word), off.toNat % 4 = 0 → off ≠ 0x004 → hostAct (.write off .w32 w) s = .next s) ∧
  ∀ (s : State) (off : BitVec 12), off.toNat % 4 = 0 → (0x028 ≤ off.toNat ∧ off.toNat < 0x400) ∨ 0xC00 ≤ off.toNat →
    s.busy = false → hostAct (.read off .w32) s = .next { s with readData := 0#32 }

/-- 20_memory.md section 1 (alignment and width): an access narrower than 32 bits or misaligned has no step; the run is refused. -/
def Obligations.UnadmittedAccessIsRefused : Prop :=
  ∀ (s : State) (off : BitVec 12) (wd : Width) (w : Word) (rest : List HostEvent), wd ≠ .w32 ∨ off.toNat % 4 ≠ 0 →
    (s.inbox = .act (.read off wd) :: rest ∨ s.inbox = .act (.write off wd w) :: rest) → step s = .refused .accessNotAdmitted

/-- 20_memory.md section 2: a step only appends to a stream what it emits and only takes from its head; nothing is removed, rewritten
or reordered, unless the host asserts RST. -/
def Obligations.StreamsOnlyGrow : Prop :=
  ∀ s s' : State, step s = .next s' → (∀ e rest, s.inbox = e :: rest → e.resets = false) →
    (s.bitOut.emitted <+: s'.bitOut.emitted ∧ s.bitOut.taken <+: s'.bitOut.taken) ∧
    (s.symOut.emitted <+: s'.symOut.emitted ∧ s.symOut.taken <+: s'.symOut.taken) ∧
    (s.tblOut.emitted <+: s'.tblOut.emitted ∧ s.tblOut.taken <+: s'.tblOut.taken)

/-- 20_memory.md section 2 and 10_state.md sections 1 to 3: which command writes which state, and that no other does. F and TOTAL:
COUNT and SRST. CLEN and CODE: GEN, SRST and TLOAD's data words. CUR: DEC; SRST, TLOAD and TFIN clear it. BIT_OUT: ENC, and BITCNT: ENC
and SRST. SYM_OUT: DEC, and SYMCNT: DEC and SRST. TBL_OUT: GEN. SRST keeps the streams. -/
def Obligations.EachStateHasItsWriters : Prop :=
  ∀ (i : Instr) (s t : State), exec i s = .next t →
    (t.freq = s.freq ∨ (∃ x, i = .count x ∧ t.freq = Table.set s.freq x (Table.get s.freq x + 1#32)) ∨
      (i = .srst ∧ t.freq = Table.all 0#32)) ∧
    (t.total = s.total ∨ (∃ x, i = .count x ∧ t.total = s.total + 1#32) ∨ (i = .srst ∧ t.total = 0#32)) ∧
    (i ≠ .gen → i ≠ .srst → s.pend = false → t.clen = s.clen ∧ t.code = s.code) ∧
    (t.cur = s.cur ∨ (∃ n b, i = .dec n b) ∨
      (t.cur = [] ∧ (i = .srst ∨ (∃ len x, i = .tload len x) ∨ i = .tfin))) ∧
    ((∀ x, i ≠ .enc x) → t.bitOut = s.bitOut ∧ (t.bitcnt = s.bitcnt ∨ (i = .srst ∧ t.bitcnt = 0#32))) ∧
    ((∀ n b, i ≠ .dec n b) → t.symOut = s.symOut ∧ (t.symcnt = s.symcnt ∨ (i = .srst ∧ t.symcnt = 0#32))) ∧
    (i ≠ .gen → t.tblOut = s.tblOut) ∧ (t.depths = s.depths ∧ t.inbox = s.inbox ∧ t.readData = s.readData ∧ t.draws = s.draws)

/-- R57: a command that has emitted into a full queue stays BUSY; the host's takes move its items through in order, and BUSY falls with
the take that lets the last one in, and not before. -/
def Obligations.DrainingReleasesBusy : Prop :=
  ∀ (s : State) (q : StreamId) (m k n : Nat), StatusInv s → s.ovr = false → s.depthOf q = .slots m →
    s.queuedCount q = m + 1 + k → 0 < k → (∀ r, r ≠ q → Depth.holds (s.depthOf r) (s.queuedCount r) = true) → n ≤ k →
    s.busy = true ∧ (takeMany q n s).busy = decide (n < k) ∧ (takeMany q n s).phase = s.phase ∧
      (takeMany q n s).queuedCount q = m + 1 + k - n ∧
      (takeMany q n s).bitOut.emitted = s.bitOut.emitted ∧ (takeMany q n s).symOut.emitted = s.symOut.emitted ∧
      (takeMany q n s).tblOut.emitted = s.tblOut.emitted

/-- The step stops with a fault exactly when the host waits for BUSY = 0 while a command waits on a full queue
(70_reset_and_hazards.md section 2, draining; 93_implementation_defined.md, `stuck`); that this stop is the fault `drainDeadlock` is
the model's choice, log 5. No command stops: each ends in a next state. -/
def Obligations.OnlyTheDrainDeadlockStops : Prop :=
  (∀ (s : State) (f : Fault), step s = .fault f ↔
    f = .drainDeadlock ∧ s.busy = true ∧ ∃ w during rest, s.inbox = .command w during :: rest) ∧
  ∀ (i : Instr) (s : State), ∃ t, exec i s = .next t

/-! ## Reset (70_reset_and_hazards.md) and the invariants (10_state.md) -/

/-- R45: RST, asserted at any time, sets every piece of state to the table's value and empties the queues; SRST sets those marked "yes"
and leaves queued items in place. -/
def Obligations.ResetValues : Prop :=
  (∀ (s : State) (rest : List HostEvent), s.inbox = .act .rst :: rest → step s = .next
    { phase := .idle, busy := false, pend := false, pendw := 0#4, errCode := .none, errInfo := 0#32, nsym := 0#9,
      total := 0#32, nodes := 0#10, bitcnt := 0#32, symcnt := 0#32, freq := Vector.replicate 256 0#32,
      clen := Vector.replicate 256 0#8, code := Vector.replicate 256 [], root := .empty, cur := [], tlsym := 0#8,
      tllen := 0#8, tlbits := [], ovr := false, ovrWord := 0#32, bitOut := ⟨[], []⟩, symOut := ⟨[], []⟩,
      tblOut := ⟨[], []⟩, depths := s.depths, inbox := rest, readData := s.readData, draws := s.draws }) ∧
  (∀ s : State, s.pend = false → ∃ t, exec .srst s = .next t ∧ t.bitOut = s.bitOut ∧ t.symOut = s.symOut ∧
    t.tblOut = s.tblOut ∧ { t with bitOut := ⟨[], []⟩, symOut := ⟨[], []⟩, tblOut := ⟨[], []⟩ } =
      { State.reset with depths := s.depths, inbox := s.inbox, readData := s.readData, draws := s.draws }) ∧
  (∀ s : State, regRead s 0x000 = 0x48554631#32) ∧
  ∀ s : State, s.depths = State.reset.depths → s.inbox = [.act .rst] → s.readData = 0#32 → s.draws = 0 →
    step s = .next State.reset

/-- R260: RST that lands while a command is BUSY abandons it: nothing of the command's effect is left (the model's event, log 6). -/
def Obligations.RstAbandonsTheCommand : Prop :=
  ∀ (s : State) (w : Word) (as : List HostAct) (rest : List HostEvent), s.busy = false →
    (s.pend = true → s.pendw.toNat ≤ 1) → s.inbox = .command w (.rst :: as) :: rest →
    step s = .next { State.reset with
      depths := s.depths, inbox := as.map HostEvent.act ++ rest, readData := s.readData, draws := s.draws }

/-- The invariant of the status fields, the cursor and the TLOAD buffer holds in the reset state, whatever the host will do
(10_state.md sections 1, 3 and 5). -/
def Obligations.ResetMeetsTheStatusInvariant : Prop :=
  ∀ (es : List HostEvent) (d : Config.Depths), StatusInv { State.reset with inbox := es, depths := d }

/-- Every step keeps that invariant (10_state.md sections 1, 3 and 5). -/
def Obligations.StepKeepsTheStatusInvariant : Prop :=
  ∀ s s' : State, StatusInv s → step s = .next s' → StatusInv s'

/-- The cursor never rests below depth 254, so the 8 bits of DEPTH hold |CUR|: in the reset state, after every step, and in what a
read returns (10_state.md section 1). -/
def Obligations.CursorDepthFitsTheRegister : Prop :=
  (∀ (es : List HostEvent) (d : Config.Depths), CursorInv { State.reset with inbox := es, depths := d }) ∧
  (∀ s s' : State, CursorInv s → step s = .next s' → CursorInv s') ∧
  ∀ s : State, CursorInv s → (regRead s 0x01C).toNat = s.cur.length

/-- The invariant of the session holds in the reset state, whatever the host will do (10_state.md section 5). -/
def Obligations.ResetMeetsTheSessionInvariant : Prop :=
  ∀ (es : List HostEvent) (d : Config.Depths), SessionInv { State.reset with inbox := es, depths := d }

/-- Every step keeps the invariant of the session: what F, the counters, the tree, the codes and the cursor hold in each phase
(10_state.md section 5). -/
def Obligations.StepKeepsTheSessionInvariant : Prop :=
  ∀ s s' : State, StatusInv s → SessionInv s → step s = .next s' → SessionInv s'

/-- R46: the six invariants hold between steps, whatever the host does, after any number of its events from reset; and CUR = [] in an
ERROR that was not entered from DECODING. -/
def Obligations.SpecInvariantsHoldBetweenSteps : Prop :=
  ∀ (es : List HostEvent) (d : Config.Depths) (n : Nat) (t : State),
    Sys2Proof.core.run n { State.reset with inbox := es, depths := d } = .next t →
      R46Invariants t ∧
      ∀ u, step t = .next u → t.phase ≠ .decoding → t.phase ≠ .error → u.phase = .error → u.cur = []

/-- A host that polls BUSY = 0 before every CMD write never sees OVERRUN (70_reset_and_hazards.md section 2, command pacing). -/
def Obligations.PoliteHostNeverOverruns : Prop :=
  ∀ (es : List HostEvent) (d : Config.Depths) (n : Nat) (t : State), (∀ e ∈ es, e.polite = true) →
    Sys2Proof.core.run n { State.reset with inbox := es, depths := d } = .next t → t.ovr = false ∧ t.errCode ≠ .overrun

/-- The model's choice (log 4): a read of CMD while BUSY = 1 returns 0 (10_state.md section 1: "A host read of CMD returns 0"), where
20_memory.md section 3 names only ID and BUSY as exceptions to the unspecified value; it has no side effect on the block. -/
def Obligations.ReadOfCmdWhileBusy : Prop :=
  ∀ s : State, s.busy = true → hostAct (.read 0x004 .w32) s = .next { s with readData := 0#32, draws := s.draws + 1 }
end

