-- ==== Sys2Proof/Laws/State.lean ====
section
/-! SUPPORT. State: what each shared update leaves in each field. -/

namespace Sys2Proof.Machine

variable (s : State) (c : ErrCode) (w : Word)


/-! ## `raise` (R236) -/

@[simp] theorem raise_phase : (raise c w s).phase = .error := rfl
@[simp] theorem raise_busy : (raise c w s).busy = s.busy := rfl
@[simp] theorem raise_pend : (raise c w s).pend = false := rfl
@[simp] theorem raise_pendw : (raise c w s).pendw = 0#4 := rfl
@[simp] theorem raise_errCode : (raise c w s).errCode = c := rfl
@[simp] theorem raise_errInfo : (raise c w s).errInfo = w := rfl
@[simp] theorem raise_nsym : (raise c w s).nsym = s.nsym := rfl
@[simp] theorem raise_total : (raise c w s).total = s.total := rfl
@[simp] theorem raise_nodes : (raise c w s).nodes = s.nodes := rfl
@[simp] theorem raise_bitcnt : (raise c w s).bitcnt = s.bitcnt := rfl
@[simp] theorem raise_symcnt : (raise c w s).symcnt = s.symcnt := rfl
@[simp] theorem raise_freq : (raise c w s).freq = s.freq := rfl
@[simp] theorem raise_clen : (raise c w s).clen = s.clen := rfl
@[simp] theorem raise_code : (raise c w s).code = s.code := rfl
@[simp] theorem raise_root : (raise c w s).root = s.root := rfl
@[simp] theorem raise_cur : (raise c w s).cur = s.cur := rfl
@[simp] theorem raise_tlsym : (raise c w s).tlsym = s.tlsym := rfl
@[simp] theorem raise_tllen : (raise c w s).tllen = s.tllen := rfl
@[simp] theorem raise_tlbits : (raise c w s).tlbits = s.tlbits := rfl
@[simp] theorem raise_ovr : (raise c w s).ovr = false := rfl
@[simp] theorem raise_ovrWord : (raise c w s).ovrWord = s.ovrWord := rfl
@[simp] theorem raise_bitOut : (raise c w s).bitOut = s.bitOut := rfl
@[simp] theorem raise_symOut : (raise c w s).symOut = s.symOut := rfl
@[simp] theorem raise_tblOut : (raise c w s).tblOut = s.tblOut := rfl
@[simp] theorem raise_depths : (raise c w s).depths = s.depths := rfl
@[simp] theorem raise_inbox : (raise c w s).inbox = s.inbox := rfl
@[simp] theorem raise_readData : (raise c w s).readData = s.readData := rfl
@[simp] theorem raise_draws : (raise c w s).draws = s.draws := rfl

/-! ## `softReset` (R116) -/

@[simp] theorem softReset_phase : (softReset s).phase = .idle := rfl
@[simp] theorem softReset_busy : (softReset s).busy = s.busy := rfl
@[simp] theorem softReset_pend : (softReset s).pend = false := rfl
@[simp] theorem softReset_pendw : (softReset s).pendw = 0#4 := rfl
@[simp] theorem softReset_errCode : (softReset s).errCode = .none := rfl
@[simp] theorem softReset_errInfo : (softReset s).errInfo = 0#32 := rfl
@[simp] theorem softReset_nsym : (softReset s).nsym = 0#9 := rfl
@[simp] theorem softReset_total : (softReset s).total = 0#32 := rfl
@[simp] theorem softReset_nodes : (softReset s).nodes = 0#10 := rfl
@[simp] theorem softReset_bitcnt : (softReset s).bitcnt = 0#32 := rfl
@[simp] theorem softReset_symcnt : (softReset s).symcnt = 0#32 := rfl
@[simp] theorem softReset_freq : (softReset s).freq = Table.all 0#32 := rfl
@[simp] theorem softReset_clen : (softReset s).clen = Table.all 0#8 := rfl
@[simp] theorem softReset_code : (softReset s).code = Table.all [] := rfl
@[simp] theorem softReset_root : (softReset s).root = .empty := rfl
@[simp] theorem softReset_cur : (softReset s).cur = [] := rfl
@[simp] theorem softReset_tlsym : (softReset s).tlsym = 0#8 := rfl
@[simp] theorem softReset_tllen : (softReset s).tllen = 0#8 := rfl
@[simp] theorem softReset_tlbits : (softReset s).tlbits = [] := rfl
@[simp] theorem softReset_ovr : (softReset s).ovr = false := rfl
@[simp] theorem softReset_ovrWord : (softReset s).ovrWord = 0#32 := rfl
@[simp] theorem softReset_bitOut : (softReset s).bitOut = s.bitOut := rfl
@[simp] theorem softReset_symOut : (softReset s).symOut = s.symOut := rfl
@[simp] theorem softReset_tblOut : (softReset s).tblOut = s.tblOut := rfl
@[simp] theorem softReset_depths : (softReset s).depths = s.depths := rfl
@[simp] theorem softReset_inbox : (softReset s).inbox = s.inbox := rfl
@[simp] theorem softReset_readData : (softReset s).readData = s.readData := rfl
@[simp] theorem softReset_draws : (softReset s).draws = s.draws := rfl

/-! ## `hardReset` (R260) -/

@[simp] theorem hardReset_phase : (hardReset s).phase = State.reset.phase := rfl
@[simp] theorem hardReset_busy : (hardReset s).busy = State.reset.busy := rfl
@[simp] theorem hardReset_pend : (hardReset s).pend = State.reset.pend := rfl
@[simp] theorem hardReset_pendw : (hardReset s).pendw = State.reset.pendw := rfl
@[simp] theorem hardReset_errCode : (hardReset s).errCode = State.reset.errCode := rfl
@[simp] theorem hardReset_errInfo : (hardReset s).errInfo = State.reset.errInfo := rfl
@[simp] theorem hardReset_nsym : (hardReset s).nsym = State.reset.nsym := rfl
@[simp] theorem hardReset_total : (hardReset s).total = State.reset.total := rfl
@[simp] theorem hardReset_nodes : (hardReset s).nodes = State.reset.nodes := rfl
@[simp] theorem hardReset_bitcnt : (hardReset s).bitcnt = State.reset.bitcnt := rfl
@[simp] theorem hardReset_symcnt : (hardReset s).symcnt = State.reset.symcnt := rfl
@[simp] theorem hardReset_freq : (hardReset s).freq = State.reset.freq := rfl
@[simp] theorem hardReset_clen : (hardReset s).clen = State.reset.clen := rfl
@[simp] theorem hardReset_code : (hardReset s).code = State.reset.code := rfl
@[simp] theorem hardReset_root : (hardReset s).root = State.reset.root := rfl
@[simp] theorem hardReset_cur : (hardReset s).cur = State.reset.cur := rfl
@[simp] theorem hardReset_tlsym : (hardReset s).tlsym = State.reset.tlsym := rfl
@[simp] theorem hardReset_tllen : (hardReset s).tllen = State.reset.tllen := rfl
@[simp] theorem hardReset_tlbits : (hardReset s).tlbits = State.reset.tlbits := rfl
@[simp] theorem hardReset_ovr : (hardReset s).ovr = State.reset.ovr := rfl
@[simp] theorem hardReset_ovrWord : (hardReset s).ovrWord = State.reset.ovrWord := rfl
@[simp] theorem hardReset_bitOut : (hardReset s).bitOut = State.reset.bitOut := rfl
@[simp] theorem hardReset_symOut : (hardReset s).symOut = State.reset.symOut := rfl
@[simp] theorem hardReset_tblOut : (hardReset s).tblOut = State.reset.tblOut := rfl
@[simp] theorem hardReset_depths : (hardReset s).depths = s.depths := rfl
@[simp] theorem hardReset_inbox : (hardReset s).inbox = s.inbox := rfl
@[simp] theorem hardReset_readData : (hardReset s).readData = s.readData := rfl
@[simp] theorem hardReset_draws : (hardReset s).draws = s.draws := rfl

/-! ## `latchOverrun` (R237) -/

@[simp] theorem latchOverrun_phase : (latchOverrun w s).phase = s.phase := by
  unfold latchOverrun; split <;> rfl
@[simp] theorem latchOverrun_busy : (latchOverrun w s).busy = s.busy := by
  unfold latchOverrun; split <;> rfl
@[simp] theorem latchOverrun_pend : (latchOverrun w s).pend = s.pend := by
  unfold latchOverrun; split <;> rfl
@[simp] theorem latchOverrun_pendw : (latchOverrun w s).pendw = s.pendw := by
  unfold latchOverrun; split <;> rfl
@[simp] theorem latchOverrun_errCode : (latchOverrun w s).errCode = s.errCode := by
  unfold latchOverrun; split <;> rfl
@[simp] theorem latchOverrun_errInfo : (latchOverrun w s).errInfo = s.errInfo := by
  unfold latchOverrun; split <;> rfl
@[simp] theorem latchOverrun_nsym : (latchOverrun w s).nsym = s.nsym := by
  unfold latchOverrun; split <;> rfl
@[simp] theorem latchOverrun_total : (latchOverrun w s).total = s.total := by
  unfold latchOverrun; split <;> rfl
@[simp] theorem latchOverrun_nodes : (latchOverrun w s).nodes = s.nodes := by
  unfold latchOverrun; split <;> rfl
@[simp] theorem latchOverrun_bitcnt : (latchOverrun w s).bitcnt = s.bitcnt := by
  unfold latchOverrun; split <;> rfl
@[simp] theorem latchOverrun_symcnt : (latchOverrun w s).symcnt = s.symcnt := by
  unfold latchOverrun; split <;> rfl
@[simp] theorem latchOverrun_freq : (latchOverrun w s).freq = s.freq := by
  unfold latchOverrun; split <;> rfl
@[simp] theorem latchOverrun_clen : (latchOverrun w s).clen = s.clen := by
  unfold latchOverrun; split <;> rfl
@[simp] theorem latchOverrun_code : (latchOverrun w s).code = s.code := by
  unfold latchOverrun; split <;> rfl
@[simp] theorem latchOverrun_root : (latchOverrun w s).root = s.root := by
  unfold latchOverrun; split <;> rfl
@[simp] theorem latchOverrun_cur : (latchOverrun w s).cur = s.cur := by
  unfold latchOverrun; split <;> rfl
@[simp] theorem latchOverrun_tlsym : (latchOverrun w s).tlsym = s.tlsym := by
  unfold latchOverrun; split <;> rfl
@[simp] theorem latchOverrun_tllen : (latchOverrun w s).tllen = s.tllen := by
  unfold latchOverrun; split <;> rfl
@[simp] theorem latchOverrun_tlbits : (latchOverrun w s).tlbits = s.tlbits := by
  unfold latchOverrun; split <;> rfl
@[simp] theorem latchOverrun_bitOut : (latchOverrun w s).bitOut = s.bitOut := by
  unfold latchOverrun; split <;> rfl
@[simp] theorem latchOverrun_symOut : (latchOverrun w s).symOut = s.symOut := by
  unfold latchOverrun; split <;> rfl
@[simp] theorem latchOverrun_tblOut : (latchOverrun w s).tblOut = s.tblOut := by
  unfold latchOverrun; split <;> rfl
@[simp] theorem latchOverrun_depths : (latchOverrun w s).depths = s.depths := by
  unfold latchOverrun; split <;> rfl
@[simp] theorem latchOverrun_inbox : (latchOverrun w s).inbox = s.inbox := by
  unfold latchOverrun; split <;> rfl
@[simp] theorem latchOverrun_readData : (latchOverrun w s).readData = s.readData := by
  unfold latchOverrun; split <;> rfl
@[simp] theorem latchOverrun_draws : (latchOverrun w s).draws = s.draws := by
  unfold latchOverrun; split <;> rfl

/-! ## `overrunCheck` and `finish` (R237) -/

@[simp] theorem overrunCheck_busy : (overrunCheck s).busy = s.busy := by
  unfold overrunCheck; split <;> rfl
@[simp] theorem overrunCheck_nsym : (overrunCheck s).nsym = s.nsym := by
  unfold overrunCheck; split <;> rfl
@[simp] theorem overrunCheck_total : (overrunCheck s).total = s.total := by
  unfold overrunCheck; split <;> rfl
@[simp] theorem overrunCheck_nodes : (overrunCheck s).nodes = s.nodes := by
  unfold overrunCheck; split <;> rfl
@[simp] theorem overrunCheck_bitcnt : (overrunCheck s).bitcnt = s.bitcnt := by
  unfold overrunCheck; split <;> rfl
@[simp] theorem overrunCheck_symcnt : (overrunCheck s).symcnt = s.symcnt := by
  unfold overrunCheck; split <;> rfl
@[simp] theorem overrunCheck_freq : (overrunCheck s).freq = s.freq := by
  unfold overrunCheck; split <;> rfl
@[simp] theorem overrunCheck_clen : (overrunCheck s).clen = s.clen := by
  unfold overrunCheck; split <;> rfl
@[simp] theorem overrunCheck_code : (overrunCheck s).code = s.code := by
  unfold overrunCheck; split <;> rfl
@[simp] theorem overrunCheck_root : (overrunCheck s).root = s.root := by
  unfold overrunCheck; split <;> rfl
@[simp] theorem overrunCheck_cur : (overrunCheck s).cur = s.cur := by
  unfold overrunCheck; split <;> rfl
@[simp] theorem overrunCheck_tlsym : (overrunCheck s).tlsym = s.tlsym := by
  unfold overrunCheck; split <;> rfl
@[simp] theorem overrunCheck_tllen : (overrunCheck s).tllen = s.tllen := by
  unfold overrunCheck; split <;> rfl
@[simp] theorem overrunCheck_tlbits : (overrunCheck s).tlbits = s.tlbits := by
  unfold overrunCheck; split <;> rfl
@[simp] theorem overrunCheck_ovrWord : (overrunCheck s).ovrWord = s.ovrWord := by
  unfold overrunCheck; split <;> rfl
@[simp] theorem overrunCheck_bitOut : (overrunCheck s).bitOut = s.bitOut := by
  unfold overrunCheck; split <;> rfl
@[simp] theorem overrunCheck_symOut : (overrunCheck s).symOut = s.symOut := by
  unfold overrunCheck; split <;> rfl
@[simp] theorem overrunCheck_tblOut : (overrunCheck s).tblOut = s.tblOut := by
  unfold overrunCheck; split <;> rfl
@[simp] theorem overrunCheck_depths : (overrunCheck s).depths = s.depths := by
  unfold overrunCheck; split <;> rfl
@[simp] theorem overrunCheck_inbox : (overrunCheck s).inbox = s.inbox := by
  unfold overrunCheck; split <;> rfl
@[simp] theorem overrunCheck_readData : (overrunCheck s).readData = s.readData := by
  unfold overrunCheck; split <;> rfl
@[simp] theorem overrunCheck_draws : (overrunCheck s).draws = s.draws := by
  unfold overrunCheck; split <;> rfl
@[simp] theorem finish_nsym : (finish s).nsym = s.nsym := by
  unfold finish; split <;> simp
@[simp] theorem finish_total : (finish s).total = s.total := by
  unfold finish; split <;> simp
@[simp] theorem finish_nodes : (finish s).nodes = s.nodes := by
  unfold finish; split <;> simp
@[simp] theorem finish_bitcnt : (finish s).bitcnt = s.bitcnt := by
  unfold finish; split <;> simp
@[simp] theorem finish_symcnt : (finish s).symcnt = s.symcnt := by
  unfold finish; split <;> simp
@[simp] theorem finish_freq : (finish s).freq = s.freq := by
  unfold finish; split <;> simp
@[simp] theorem finish_clen : (finish s).clen = s.clen := by
  unfold finish; split <;> simp
@[simp] theorem finish_code : (finish s).code = s.code := by
  unfold finish; split <;> simp
@[simp] theorem finish_root : (finish s).root = s.root := by
  unfold finish; split <;> simp
@[simp] theorem finish_cur : (finish s).cur = s.cur := by
  unfold finish; split <;> simp
@[simp] theorem finish_tlsym : (finish s).tlsym = s.tlsym := by
  unfold finish; split <;> simp
@[simp] theorem finish_tllen : (finish s).tllen = s.tllen := by
  unfold finish; split <;> simp
@[simp] theorem finish_tlbits : (finish s).tlbits = s.tlbits := by
  unfold finish; split <;> simp
@[simp] theorem finish_ovrWord : (finish s).ovrWord = s.ovrWord := by
  unfold finish; split <;> simp
@[simp] theorem finish_bitOut : (finish s).bitOut = s.bitOut := by
  unfold finish; split <;> simp
@[simp] theorem finish_symOut : (finish s).symOut = s.symOut := by
  unfold finish; split <;> simp
@[simp] theorem finish_tblOut : (finish s).tblOut = s.tblOut := by
  unfold finish; split <;> simp
@[simp] theorem finish_depths : (finish s).depths = s.depths := by
  unfold finish; split <;> simp
@[simp] theorem finish_inbox : (finish s).inbox = s.inbox := by
  unfold finish; split <;> simp
@[simp] theorem finish_readData : (finish s).readData = s.readData := by
  unfold finish; split <;> simp
@[simp] theorem finish_draws : (finish s).draws = s.draws := by
  unfold finish; split <;> simp

@[simp] theorem overrunCheck_ovr : (overrunCheck s).ovr = false := by
  unfold overrunCheck; split <;> rfl

end Sys2Proof.Machine
end

