-- ==== Sys2Proof/Laws/Ops.lean ====
section
/-! SUPPORT. The shared operations: one lemma each says what the operation can do. -/

namespace Sys2Proof.Machine

/-! ## Streams and stalls (R56, R57) -/

/-- A stalled state is told from the depths and the queued items alone. -/
theorem stalled_congr {s t : State} (hd : s.depths = t.depths) (hb : s.bitOut.queued = t.bitOut.queued)
    (hs : s.symOut.queued = t.symOut.queued) (ht : s.tblOut.queued = t.tblOut.queued) : s.stalled = t.stalled := by
  unfold State.stalled; rw [hd, hb, hs, ht]

@[simp] theorem raise_stalled (c : ErrCode) (w : Word) (s : State) : (raise c w s).stalled = s.stalled := rfl

@[simp] theorem softReset_stalled (s : State) : (softReset s).stalled = s.stalled := rfl

@[simp] theorem latchOverrun_stalled (w : Word) (s : State) : (latchOverrun w s).stalled = s.stalled :=
  stalled_congr (by simp) (by simp) (by simp) (by simp)

@[simp] theorem finish_stalled (s : State) : (finish s).stalled = s.stalled :=
  stalled_congr (by simp) (by simp) (by simp) (by simp)

theorem Depth.holds_mono {d : Config.Depth} {m n : Nat} (h : m ≤ n) (hn : Depth.holds d n = true) :
    Depth.holds d m = true := by
  cases d with
  | unbounded => rfl
  | slots k => simp only [Depth.holds, decide_eq_true_eq] at hn ⊢; omega

theorem hardReset_stalled (s : State) : (hardReset s).stalled = false := by
  have h : ∀ d, Depth.holds d 0 = true := fun d => by cases d <;> simp [Depth.holds]
  simp [State.stalled, State.reset, h]

@[simp] theorem emit_taken {α : Type} (q : OutStream α) (vs : List α) : (q.emit vs).taken = q.taken := rfl

@[simp] theorem emit_queued {α : Type} (q : OutStream α) (vs : List α) : (q.emit vs).queued = q.queued ++ vs := rfl

@[simp] theorem emit_nil {α : Type} (q : OutStream α) : q.emit [] = q := by simp [OutStream.emit]

@[simp] theorem emit_emit {α : Type} (q : OutStream α) (us vs : List α) : (q.emit us).emit vs = q.emit (us ++ vs) := by
  simp [OutStream.emit]

@[simp] theorem emit_emitted {α : Type} (q : OutStream α) (vs : List α) : (q.emit vs).emitted = q.emitted ++ vs := by
  simp [OutStream.emitted]

/-- Taking moves the head of the queue: nothing is dropped, duplicated or reordered. -/
@[simp] theorem take_emitted {α : Type} (q : OutStream α) : q.take.emitted = q.emitted := by
  unfold OutStream.take
  split
  · rfl
  · rename_i v vs h; simp [OutStream.emitted, h]

theorem take_queued {α : Type} (q : OutStream α) : q.take.queued = q.queued.tail := by
  unfold OutStream.take
  split
  · rename_i h; simp [h]
  · rename_i v vs h; simp [h]

/-- Taking an item never fills a queue. -/
theorem takeFrom_not_stalled {s : State} (q : StreamId) (h : s.stalled = false) : (s.takeFrom q).stalled = false := by
  simp only [State.stalled, Bool.not_eq_false', Bool.and_eq_true] at h ⊢
  cases q
  all_goals
    simp only [State.takeFrom, take_queued, List.length_tail]
    exact ⟨⟨Depth.holds_mono (by omega) h.1.1, Depth.holds_mono (by omega) h.1.2⟩, Depth.holds_mono (by omega) h.2⟩

/-! ## The end of a command (R237) -/

/-- With no write lost, a command ends with BUSY = 0 unless it waits on a full queue. -/
theorem finish_of_ovr_false {s : State} (h : s.ovr = false) : finish s = { s with busy := s.stalled } := by
  unfold finish overrunCheck
  cases hs : s.stalled <;> simp [h]

/-- Everything the end of a command can do: wait, report the lost word, or complete. -/
theorem finish_cases (s : State) :
    (s.stalled = true ∧ finish s = { s with busy := true }) ∨
    (s.stalled = false ∧ s.ovr = true ∧ s.phase ≠ .error ∧ finish s = raise .overrun s.ovrWord { s with busy := false }) ∨
    (s.stalled = false ∧ (s.ovr = false ∨ s.phase = .error) ∧ finish s = { s with busy := false, ovr := false }) := by
  unfold finish overrunCheck
  cases hs : s.stalled
  · by_cases h : s.ovr = true ∧ s.phase ≠ .error
    · exact .inr (.inl ⟨rfl, h.1, h.2, by simp [h]⟩)
    · refine .inr (.inr ⟨rfl, ?_, by simp_all⟩)
      by_cases ho : s.ovr = true
      · exact .inr (by_contra fun hp => h ⟨ho, hp⟩)
      · exact .inl (by simpa using ho)
  · exact .inl ⟨rfl, by simp⟩

@[simp] theorem finish_busy (s : State) : (finish s).busy = s.stalled := by
  rcases finish_cases s with ⟨h, e⟩ | ⟨h, _, _, e⟩ | ⟨h, _, e⟩ <;> rw [e, h] <;> rfl

/-! ## The step of every command (R110, R111) -/

theorem command_data {i : Instr} {s : State} (body : State → State) (h : s.pend = true) :
    command i body s = .next (finish (tloadData (encode i) s)) := by
  simp [command, h]

theorem command_discarded {i : Instr} {s : State} (body : State → State) (hp : s.pend = false) (h : s.phase = .error) :
    command i body s = .next (finish s) := by
  simp [command, h, hp]

theorem command_illegal {i : Instr} {s : State} (body : State → State) (hp : s.pend = false) (he : s.phase ≠ .error)
    (hw : i.wellFormed = true) (h : legal i s.phase = false) :
    command i body s = .next (finish (raise .badSeq (encode i) s)) := by
  simp [command, h, hp, he, hw, rejectWord]

theorem command_runs {i : Instr} {s : State} (body : State → State) (hp : s.pend = false) (hw : i.wellFormed = true)
    (h : legal i s.phase = true) : command i body s = .next (finish (body s)) := by
  have he : s.phase ≠ .error := fun e => by cases i <;> simp [legal, e] at h
  simp [command, h, hp, he, hw]

/-- Everything the step of a command can do. -/
theorem command_cases (i : Instr) (body : State → State) (s : State) :
    (s.pend = true ∧ command i body s = .next (finish (tloadData (encode i) s))) ∨
    (s.pend = false ∧ s.phase = .error ∧ command i body s = .next (finish s)) ∨
    (s.pend = false ∧ s.phase ≠ .error ∧ i.wellFormed = false ∧
      command i body s = .next (finish (raise .badCmd (encode i) s))) ∨
    (s.pend = false ∧ s.phase ≠ .error ∧ i.wellFormed = true ∧ legal i s.phase = false ∧
      command i body s = .next (finish (raise .badSeq (encode i) s))) ∨
    (s.pend = false ∧ s.phase ≠ .error ∧ i.wellFormed = true ∧ legal i s.phase = true ∧
      command i body s = .next (finish (body s))) := by
  cases hp : s.pend <;> by_cases he : s.phase = .error <;> cases hw : i.wellFormed <;>
    cases hl : legal i s.phase <;> simp [command, hp, he, hw, hl, rejectWord]

end Sys2Proof.Machine
end

