-- ==== Sys2Proof/Laws/Accept.lean ====
section
/-! SUPPORT. Accepting a word, and one event of the host: what each can do. -/

namespace Sys2Proof.Machine

/-! ## Errors on an idle block -/

/-- The end of a command that raised an error, when nothing waits (R236, R237). -/
theorem finish_raise {s : State} (c : ErrCode) (w : Word) (h : s.stalled = false) : finish (raise c w s) = s.raised c w := by
  rw [finish_of_ovr_false (by rfl), raise_stalled, h]; rfl

/-- The end of a command that raised nothing, when no write was lost and nothing waits. -/
theorem finish_quiet {s : State} (ho : s.ovr = false) (h : s.stalled = false) : finish s = { s with busy := false } := by
  rw [finish_of_ovr_false ho, h]

theorem rejectWord_ready {s : State} {c : ErrCode} {w : Word} (h : s.stalled = false) (he : s.phase ≠ .error) :
    rejectWord c w s = s.raised c w := by
  rw [rejectWord, if_neg he, finish_raise c w h]

/-- In ERROR a rejected word changes nothing (R112). -/
theorem rejectWord_error {s : State} {c : ErrCode} {w : Word} (ho : s.ovr = false) (h : s.stalled = false)
    (he : s.phase = .error) : rejectWord c w s = { s with busy := false } := by
  rw [rejectWord, if_pos he, finish_quiet ho h]

/-! ## Accepting (R110) -/

theorem acceptWord_data {s : State} (w : Word) (h : s.pend = true) : acceptWord w s = .next (finish (tloadData w s)) := by
  simp [acceptWord, decode, h]

theorem acceptWord_instr {s : State} {w : Word} {i : Instr} (hp : s.pend = false) (h : decodeCommand w = .instr i) :
    acceptWord w s = exec i s := by
  simp [acceptWord, decode, hp, h]

theorem acceptWord_badOpc {s : State} {w : Word} (hp : s.pend = false) (h : decodeCommand w = .badOpc) :
    acceptWord w s = .next (rejectWord .badOpc w s) := by
  simp [acceptWord, decode, hp, h]

theorem acceptWord_badCmd {s : State} {w : Word} (hp : s.pend = false) (h : decodeCommand w = .badCmd) :
    acceptWord w s = .next (rejectWord .badCmd w s) := by
  simp [acceptWord, decode, hp, h]

/-- Every command ends in a next state. -/
theorem exec_next (i : Instr) (s : State) : ∃ t, exec i s = .next t := by
  cases i
  case srst => simp only [exec, execSrst]; split <;> exact ⟨_, rfl⟩
  all_goals exact ⟨_, rfl⟩

/-- Every accepted word ends in a next state. -/
theorem acceptWord_next (w : Word) (s : State) : ∃ t, acceptWord w s = .next t := by
  unfold acceptWord
  split
  · exact ⟨_, rfl⟩
  · exact ⟨_, rfl⟩
  · exact ⟨_, rfl⟩
  · exact exec_next _ s

@[simp] theorem acceptWords_nil (s : State) : acceptWords [] s = .next s := rfl

theorem acceptWords_cons {w : Word} {s t : State} (ws : List Word) (h : acceptWord w s = .next t) :
    acceptWords (w :: ws) s = acceptWords ws t := by
  simp [acceptWords, h]

theorem acceptWords_append {ws : List Word} {s t : State} (vs : List Word) (h : acceptWords ws s = .next t) :
    acceptWords (ws ++ vs) s = acceptWords vs t := by
  induction ws generalizing s with
  | nil => cases h; rfl
  | cons w ws ih =>
    obtain ⟨u, hu⟩ := acceptWord_next w s
    rw [acceptWords_cons ws hu] at h
    rw [List.cons_append, acceptWords_cons _ hu, ih h]

/-! ## The step, by the host's oldest event -/

theorem step_idle {s : State} (h : s.inbox = []) : step s = .next s := by simp [step, h]

theorem step_event {s : State} {e : HostEvent} {es : List HostEvent} (h : s.inbox = e :: es) :
    step s = hostEvent e { s with inbox := es } := by simp [step, h]

/-- The window of a command that the host leaves alone. -/
@[simp] theorem busyWindow_nil (s : State) : busyWindow [] s = .runs s := rfl

/-- Everything one event of the host can do: stop at the drain deadlock, be refused, accept a word, be one of the other actions,
or abandon a command. -/
theorem hostEvent_cases (e : HostEvent) (s : State) :
    (hostEvent e s = .fault .drainDeadlock ∧ s.busy = true ∧ ∃ w d, e = .command w d) ∨
    (hostEvent e s = .refused .accessNotAdmitted) ∨
    (∃ off w, hostEvent e s = .next (if off = cmdOffset then latchOverrun w s else s) ∧
      e = .act (.write off .w32 w) ∧ (off = cmdOffset → s.busy = true)) ∨
    (∃ off, hostEvent e s = .next (hostRead off s) ∧ e = .act (.read off .w32)) ∨
    (∃ q, hostEvent e s = .next (hostTake q s) ∧ e = .act (.take q)) ∨
    (hostEvent e s = .next (hardReset s) ∧ e = .act .rst) ∨
    (∃ w, hostEvent e s = acceptCmd w s ∧ s.busy = false ∧ e = .act (.write cmdOffset .w32 w)) ∨
    (∃ w d t, hostEvent e s = acceptCmd w t ∧ s.busy = false ∧ e = .command w d ∧
      ((hasWindow s = true ∧ busyWindow d { s with busy := true } = .runs t) ∨
        (hasWindow s = false ∧ t = { s with inbox := d.map HostEvent.act ++ s.inbox }))) ∨
    (∃ w d t, hostEvent e s = .next t ∧ s.busy = false ∧ e = .command w d ∧ hasWindow s = true ∧
      busyWindow d { s with busy := true } = .abandoned t) := by
  have hadm : ∀ off wd, admitted off wd = true → wd = .w32 := by
    intro off wd h; simp [admitted] at h; exact h.1
  cases e with
  | act a =>
    cases a with
    | read off wd =>
      by_cases h : admitted off wd
      · obtain rfl := hadm _ _ h
        exact .inr (.inr (.inr (.inl ⟨off, by simp [hostEvent, hostAct, h], rfl⟩)))
      · exact .inr (.inl (by simp [hostEvent, hostAct, h]))
    | write off wd w =>
      by_cases h : admitted off wd
      · obtain rfl := hadm _ _ h
        by_cases hc : off = cmdOffset
        · cases hb : s.busy
          · subst hc
            exact .inr (.inr (.inr (.inr (.inr (.inr (.inl
              ⟨w, by simp [hostEvent, hostAct, h, hostWrite, hb], rfl, rfl⟩))))))
          · exact .inr (.inr (.inl ⟨off, w, by subst hc; simp [hostEvent, hostAct, h, hostWrite, hb], rfl, fun _ => rfl⟩))
        · exact .inr (.inr (.inl
            ⟨off, w, by simp [hostEvent, hostAct, h, hostWrite, hc], rfl, fun e => absurd e hc⟩))
      · exact .inr (.inl (by simp [hostEvent, hostAct, h]))
    | take q => exact .inr (.inr (.inr (.inr (.inl ⟨q, rfl, rfl⟩))))
    | rst => exact .inr (.inr (.inr (.inr (.inr (.inl ⟨rfl, rfl⟩)))))
  | command w d =>
    cases hb : s.busy
    · cases hw : hasWindow s
      · exact .inr (.inr (.inr (.inr (.inr (.inr (.inr (.inl
          ⟨w, d, _, by simp [hostEvent, hostCommand, hb, hw], rfl, rfl, .inr ⟨rfl, rfl⟩⟩)))))))
      · cases hd : busyWindow d { s with busy := true } with
        | runs t =>
          exact .inr (.inr (.inr (.inr (.inr (.inr (.inr (.inl
            ⟨w, d, t, by simp [hostEvent, hostCommand, hb, hw, hd], rfl, rfl, .inl ⟨rfl, hd⟩⟩)))))))
        | abandoned t =>
          exact .inr (.inr (.inr (.inr (.inr (.inr (.inr (.inr
            ⟨w, d, t, by simp [hostEvent, hostCommand, hb, hw, hd], rfl, rfl, rfl, hd⟩)))))))
        | refused => exact .inr (.inl (by simp [hostEvent, hostCommand, hb, hw, hd]))
    · exact .inl ⟨by simp [hostEvent, hostCommand, hb], rfl, w, d, rfl⟩

/-- A property of states that the host's actions in a BUSY window keep, a state the command then runs in has. -/
theorem busyWindow_runs {P : State → Prop} (hr : ∀ off s, P s → P (hostRead off s)) (hl : ∀ w s, P s → P (latchOverrun w s))
    (ht : ∀ q s, P s → P (s.takeFrom q)) {d : List HostAct} {s t : State} (h : busyWindow d s = .runs t) (hs : P s) : P t := by
  induction d generalizing s with
  | nil => cases h; exact hs
  | cons a d ih =>
    cases a with
    | read off wd =>
      rw [busyWindow] at h; split at h
      · exact ih h (hr off s hs)
      · cases h
    | write off wd w =>
      rw [busyWindow] at h; split at h
      · refine ih h ?_
        split
        · exact hl w s hs
        · exact hs
      · cases h
    | take q => exact ih h (ht q s hs)
    | rst => cases h

/-- A window RST ends leaves the reset state, with the host's further actions put back. -/
theorem busyWindow_abandoned {d : List HostAct} {s t : State} (h : busyWindow d s = .abandoned t) :
    .rst ∈ d ∧ ∃ u es, t = { hardReset u with inbox := es } ∧ u.depths = s.depths := by
  induction d generalizing s with
  | nil => cases h
  | cons a d ih =>
    cases a with
    | read off wd =>
      rw [busyWindow] at h; split at h
      · obtain ⟨hm, u, es, e, hu⟩ := ih h
        refine ⟨List.mem_cons_of_mem _ hm, u, es, e, hu.trans ?_⟩
        unfold hostRead; split <;> rfl
      · cases h
    | write off wd w =>
      rw [busyWindow] at h; split at h
      · obtain ⟨hm, u, es, e, hu⟩ := ih h
        refine ⟨List.mem_cons_of_mem _ hm, u, es, e, hu.trans ?_⟩
        split <;> simp
      · cases h
    | take q =>
      obtain ⟨hm, u, es, e, hu⟩ := ih h
      refine ⟨List.mem_cons_of_mem _ hm, u, es, e, hu.trans ?_⟩
      cases q <;> rfl
    | rst => cases h; exact ⟨List.mem_cons_self, s, _, rfl, rfl⟩

end Sys2Proof.Machine
end

