-- ==== Sys2Proof/Laws/Tables.lean ====
section
/-! SUPPORT. Tables: read after write, extensionality, and sums over the 256 symbols. -/

namespace Sys2Proof.Machine

variable {α : Type}

@[simp] theorem Table.get_set_self (t : Table α) (s : Byte) (v : α) : Table.get (Table.set t s v) s = v := by
  simp [Table.get, Table.set]

theorem Table.get_set_ne (t : Table α) {s r : Byte} (v : α) (h : s ≠ r) :
    Table.get (Table.set t s v) r = Table.get t r := by
  have h' : s.toNat ≠ r.toNat := fun e => h (BitVec.eq_of_toNat_eq e)
  simp [Table.get, Table.set, h']

theorem Table.get_set (t : Table α) (s r : Byte) (v : α) :
    Table.get (Table.set t s v) r = if s = r then v else Table.get t r := by
  split
  · subst s; simp
  · exact Table.get_set_ne t v ‹_›

@[simp] theorem Table.get_all (v : α) (s : Byte) : Table.get (Table.all v) s = v := by
  simp [Table.get, Table.all]

/-- Two tables with the same entries are equal. -/
theorem Table.ext_get {t u : Table α} (h : ∀ s, Table.get t s = Table.get u s) : t = u := by
  apply Vector.ext
  intro i hi
  have := h (BitVec.ofNat 8 i)
  have e : i % 256 = i := Nat.mod_eq_of_lt hi
  simpa [Table.get, e] using this

@[simp] theorem symbols_length : symbols.length = 256 := by simp [symbols, Config.nsymMax]

@[simp] theorem mem_symbols (s : Byte) : s ∈ symbols := by
  simp only [symbols, Config.nsymMax, List.mem_map, List.mem_range]
  exact ⟨s.toNat, s.isLt, by simp⟩

theorem symbols_nodup : symbols.Nodup := by
  refine List.Nodup.map_on ?_ List.nodup_range
  intro a ha b hb h
  simp only [Config.nsymMax, List.mem_range] at ha hb
  have := congrArg BitVec.toNat h
  simpa [Nat.mod_eq_of_lt ha, Nat.mod_eq_of_lt hb] using this

/-- Changing a function at one member of a list without repeats changes the sum by the difference. -/
theorem sum_update {l : List Byte} (hl : l.Nodup) {s : Byte} (hs : s ∈ l) (f g : Byte → Nat)
    (h : ∀ r, r ≠ s → f r = g r) : (l.map f).sum + g s = (l.map g).sum + f s := by
  induction l with
  | nil => cases hs
  | cons a l ih =>
    obtain ⟨ha, hl⟩ := List.nodup_cons.mp hl
    simp only [List.map_cons, List.sum_cons]
    rcases List.mem_cons.mp hs with rfl | hs
    · have : l.map f = l.map g := List.map_congr_left fun r hr => h r fun e => ha (e ▸ hr)
      rw [this]; omega
    · have := h a (fun e => ha (e ▸ hs))
      have := ih hl hs
      omega

end Sys2Proof.Machine
end

