-- ==== Sys2Proof/Laws/Tree.lean ====
section
/-! SUPPORT. Trees (R11): paths, leaves, insertion (R193) and the traversal (R161). -/

namespace Sys2Proof.Machine

/-! ## Paths -/

@[simp] theorem nodeAt_nil (t : HTree) : t.nodeAt [] = t := rfl

@[simp] theorem nodeAt_cons (t : HTree) (b : Bool) (p : Bits) : t.nodeAt (b :: p) = (t.child b).nodeAt p := rfl

@[simp] theorem child_empty (b : Bool) : HTree.empty.child b = .empty := by cases b <;> rfl

@[simp] theorem child_leaf (s : Byte) (b : Bool) : (HTree.leaf s).child b = .empty := by cases b <;> rfl

@[simp] theorem child_false (l r : HTree) : (HTree.internal l r).child false = l := rfl

@[simp] theorem child_true (l r : HTree) : (HTree.internal l r).child true = r := rfl

@[simp] theorem nodeAt_empty (p : Bits) : HTree.empty.nodeAt p = .empty := by
  induction p with
  | nil => rfl
  | cons b p ih => simpa using ih

theorem nodeAt_append (t : HTree) (p q : Bits) : t.nodeAt (p ++ q) = (t.nodeAt p).nodeAt q := by
  induction p generalizing t with
  | nil => rfl
  | cons b p ih => simp [ih]

/-- One more bit of a path is one step of the walk (R211). -/
theorem nodeAt_append_bit (t : HTree) (p : Bits) (b : Bool) : t.nodeAt (p ++ [b]) = (t.nodeAt p).child b := by
  simp [nodeAt_append]

/-- Nothing is below a leaf: a path that goes on after one meets `Empty` (R11). -/
theorem nodeAt_below_leaf {t : HTree} {p q : Bits} {s : Byte} (h : t.nodeAt p = .leaf s) (hq : q ≠ []) :
    t.nodeAt (p ++ q) = .empty := by
  cases q with
  | nil => exact absurd rfl hq
  | cons b q => simp [nodeAt_append, h]

/-- Two leaves at comparable paths are the same leaf: leaf paths are prefix-free (R166). -/
theorem leaf_paths_prefix_free {t : HTree} {p q : Bits} {s r : Byte} (hp : t.nodeAt p = .leaf s)
    (hq : t.nodeAt q = .leaf r) (h : p <+: q) : p = q ∧ s = r := by
  obtain ⟨u, rfl⟩ := h
  by_cases hu : u = []
  · subst hu; rw [List.append_nil, hp] at hq; cases hq; simp
  · rw [nodeAt_below_leaf hp hu] at hq; cases hq

/-- Above a node that is there, every place is an internal node. -/
theorem nodeAt_above {t : HTree} {p q : Bits} (h : t.nodeAt (p ++ q) ≠ .empty) (hq : q ≠ []) :
    ∃ l r, t.nodeAt p = .internal l r := by
  cases hp : t.nodeAt p with
  | empty => simp [nodeAt_append, hp] at h
  | leaf s => exact absurd (nodeAt_below_leaf hp hq) h
  | internal l r => exact ⟨l, r, rfl⟩

/-- The tree is determined by what stands at each path: its leaves and its internal nodes. -/
theorem tree_ext {t u : HTree} (hl : ∀ p s, t.nodeAt p = .leaf s ↔ u.nodeAt p = .leaf s)
    (hi : ∀ p, (∃ l r, t.nodeAt p = .internal l r) ↔ ∃ l r, u.nodeAt p = .internal l r) : t = u := by
  induction t generalizing u with
  | empty =>
    cases u with
    | empty => rfl
    | leaf s => have := (hl [] s).mpr rfl; cases this
    | internal l r => obtain ⟨_, _, h⟩ := (hi []).mpr ⟨l, r, rfl⟩; cases h
  | leaf s => exact ((hl [] s).mp rfl).symm
  | internal l r ihl ihr =>
    obtain ⟨l', r', h⟩ := (hi []).mp ⟨l, r, rfl⟩
    rw [nodeAt_nil] at h
    subst h
    rw [ihl (u := l') (fun p s => by simpa using hl (false :: p) s) (fun p => by simpa using hi (false :: p)),
      ihr (u := r') (fun p s => by simpa using hl (true :: p) s) (fun p => by simpa using hi (true :: p))]

/-! ## The paths at which a node stands -/

/-- The paths of all nodes, the root first. -/
def HTree.paths : HTree → List Bits
  | .empty => []
  | .leaf _ => [[]]
  | .internal l r => [] :: (l.paths.map (false :: ·) ++ r.paths.map (true :: ·))

theorem paths_length (t : HTree) : t.paths.length = t.size := by
  induction t with
  | empty => rfl
  | leaf s => rfl
  | internal l r ihl ihr => simp [HTree.paths, HTree.size, ihl, ihr]

theorem mem_paths {t : HTree} {p : Bits} : p ∈ t.paths ↔ t.nodeAt p ≠ .empty := by
  induction t generalizing p with
  | empty => simp [HTree.paths]
  | leaf s => cases p <;> simp [HTree.paths]
  | internal l r ihl ihr =>
    cases p with
    | nil => simp [HTree.paths]
    | cons b p => cases b <;> simp [HTree.paths, ihl, ihr]

theorem paths_nodup (t : HTree) : t.paths.Nodup := by
  induction t with
  | empty => simp [HTree.paths]
  | leaf s => simp [HTree.paths]
  | internal l r ihl ihr =>
    have hf := List.Nodup.map (f := ((false :: ·) : Bits → Bits)) (fun _ _ h => by simpa using h) ihl
    have ht := List.Nodup.map (f := ((true :: ·) : Bits → Bits)) (fun _ _ h => by simpa using h) ihr
    simp only [HTree.paths, List.nodup_cons, List.nodup_append]
    refine ⟨by simp, hf, ht, ?_⟩
    rintro a ha b hb rfl
    simp only [List.mem_map] at ha hb
    obtain ⟨_, _, rfl⟩ := ha
    obtain ⟨_, _, h⟩ := hb
    simp at h

/-! ## The walk of an entry and its insertion (R193) -/

/-- The place of a code in a tree is free: no leaf is on its path and nothing stands at its end. It is what R195's three cases of
CONFLICT leave out. -/
def HTree.Free (t : HTree) (c : Bits) : Prop := (∀ q s, q <+: c → t.nodeAt q ≠ .leaf s) ∧ t.nodeAt c = .empty

theorem free_nil {t : HTree} : t.Free [] ↔ t = .empty := by
  constructor
  · exact fun h => h.2
  · rintro rfl; exact ⟨by simp, rfl⟩

theorem free_empty (c : Bits) : HTree.empty.Free c := ⟨by simp, by simp⟩

theorem free_internal_cons {l r : HTree} {b : Bool} {c : Bits} :
    (HTree.internal l r).Free (b :: c) ↔ ((HTree.internal l r).child b).Free c := by
  constructor
  · rintro ⟨h1, h2⟩
    exact ⟨fun q s hq => by simpa using h1 (b :: q) s (by simpa using hq), by simpa using h2⟩
  · rintro ⟨h1, h2⟩
    refine ⟨fun q s hq => ?_, by simpa using h2⟩
    cases q with
    | nil => simp
    | cons b' q =>
      obtain ⟨rfl, hq'⟩ := List.cons_prefix_cons.mp hq
      simpa using h1 q s hq'

/-- From an internal node the walk of R193 meets a conflict exactly when the place is not free (R195). -/
theorem entryWalk_conflict_iff {l r : HTree} {c : Bits} {d : Nat} :
    entryWalk (.internal l r) c d = .conflict ↔ ¬ (HTree.internal l r).Free c := by
  induction c generalizing l r d with
  | nil => simp [entryWalk, free_nil]
  | cons b c ih =>
    rw [entryWalk, free_internal_cons]
    split <;> rename_i h
    · simp [h, free_empty]
    · simp only [true_iff, h]
      rintro ⟨h1, _⟩
      exact h1 [] _ List.nil_prefix rfl
    · rw [h]; exact ih

/-- The nodes an entry adds are those of its code from depth d on (R193). -/
theorem insert_size {t : HTree} {c : Bits} {s : Byte} {d e : Nat} (h : entryWalk t c d = .room e) (ht : t ≠ .empty)
    (hl : ∀ x, t ≠ .leaf x) : (t.insert c s).size + e = t.size + c.length + d ∧ d ≤ e ∧ e < d + c.length := by
  have hempty : ∀ c : Bits, (HTree.empty.insert c s).size = c.length + 1 := by
    intro c
    induction c with
    | nil => rfl
    | cons b c ih => cases b <;> simp [HTree.insert, HTree.size, ih]
  induction c generalizing t d with
  | nil => simp [entryWalk] at h
  | cons b c ih =>
    cases t with
    | empty => exact absurd rfl ht
    | leaf x => exact absurd rfl (hl x)
    | internal l r =>
      rw [entryWalk] at h
      split at h <;> rename_i hc
      · cases h
        cases b <;> simp_all [HTree.insert, HTree.size] <;> omega
      · cases h
      · have := ih h (by simp) (by simp)
        cases b <;> simp_all [HTree.insert, HTree.size] <;> omega

/-- After an entry is inserted in a free place, its leaf stands at its code and every other leaf where it stood (R193). -/
theorem insert_leaf_iff {t : HTree} {c p : Bits} {s x : Byte} (h : t.Free c) :
    (t.insert c s).nodeAt p = .leaf x ↔ (p = c ∧ x = s) ∨ t.nodeAt p = .leaf x := by
  induction c generalizing t p with
  | nil =>
    rw [free_nil] at h
    subst h
    cases p <;> simp [HTree.insert, eq_comm]
  | cons b c ih =>
    have hc : (t.child b).Free c := by
      cases t with
      | empty => simpa using free_empty c
      | leaf y => exact absurd rfl (h.1 [] y List.nil_prefix)
      | internal l r => exact free_internal_cons.mp h
    have hn : ∀ y, t ≠ .leaf y := fun y => by simpa using h.1 [] y List.nil_prefix
    cases p with
    | nil => cases b <;> simp [HTree.insert, hn]
    | cons b' p => cases b <;> cases b' <;> simp [HTree.insert, ih hc]

/-- After an entry is inserted in a free place, the proper prefixes of its code are internal nodes, with those there were (R193). -/
theorem insert_internal_iff {t : HTree} {c p : Bits} {s : Byte} (h : t.Free c) :
    (∃ l r, (t.insert c s).nodeAt p = .internal l r) ↔ (p <+: c ∧ p ≠ c) ∨ ∃ l r, t.nodeAt p = .internal l r := by
  induction c generalizing t p with
  | nil =>
    rw [free_nil] at h
    subst h
    cases p <;> simp [HTree.insert]
  | cons b c ih =>
    have hc : (t.child b).Free c := by
      cases t with
      | empty => simpa using free_empty c
      | leaf y => exact absurd rfl (h.1 [] y List.nil_prefix)
      | internal l r => exact free_internal_cons.mp h
    cases p with
    | nil => cases b <;> simp [HTree.insert]
    | cons b' p => cases b <;> cases b' <;> simp [HTree.insert, ih hc]

/-! ## The traversal (R161) -/

/-- The traversal reaches exactly the leaves, each with its path after the path the traversal started with (R161). -/
theorem mem_visit {t : HTree} {p q : Bits} {s : Byte} : (s, q) ∈ t.visit p ↔ ∃ u, q = p ++ u ∧ t.nodeAt u = .leaf s := by
  induction t generalizing p with
  | empty => simp [HTree.visit]
  | leaf x =>
    simp only [HTree.visit, List.mem_singleton, Prod.mk.injEq]
    constructor
    · rintro ⟨rfl, rfl⟩; exact ⟨[], by simp, rfl⟩
    · rintro ⟨u, rfl, h⟩
      cases u with
      | nil => simpa [eq_comm] using h
      | cons b u => simp at h
  | internal l r ihl ihr =>
    simp only [HTree.visit, List.mem_append, ihl, ihr]
    constructor
    · rintro (⟨u, rfl, h⟩ | ⟨u, rfl, h⟩)
      · exact ⟨false :: u, by simp, by simpa using h⟩
      · exact ⟨true :: u, by simp, by simpa using h⟩
    · rintro ⟨u, rfl, h⟩
      cases u with
      | nil => simp at h
      | cons b u =>
        cases b
        · exact .inl ⟨u, by simp, by simpa using h⟩
        · exact .inr ⟨u, by simp, by simpa using h⟩

theorem visit_symbols (t : HTree) (p : Bits) : (t.visit p).map Prod.fst = t.leaves := by
  induction t generalizing p with
  | empty => rfl
  | leaf s => rfl
  | internal l r ihl ihr => simp [HTree.visit, HTree.leaves, ihl, ihr]

theorem mem_leaves {t : HTree} {s : Byte} : s ∈ t.leaves ↔ ∃ p, t.nodeAt p = .leaf s := by
  rw [← visit_symbols t [], List.mem_map]
  constructor
  · rintro ⟨⟨x, q⟩, h, rfl⟩
    obtain ⟨u, _, hu⟩ := mem_visit.mp h
    exact ⟨u, hu⟩
  · rintro ⟨p, h⟩
    exact ⟨(s, p), mem_visit.mpr ⟨p, rfl, h⟩, rfl⟩

theorem full_leaves_pos {t : HTree} (h : t.full = true) : 0 < t.leaves.length := by
  induction t with
  | empty => simp [HTree.full] at h
  | leaf s => simp [HTree.leaves]
  | internal l r ihl _ =>
    simp only [HTree.full, Bool.and_eq_true] at h
    have := ihl h.1
    simp [HTree.leaves]; omega

/-- N leaves and N - 1 internal nodes (R144). -/
theorem full_size {t : HTree} (h : t.full = true) : t.size + 1 = 2 * t.leaves.length := by
  induction t with
  | empty => simp [HTree.full] at h
  | leaf s => rfl
  | internal l r ihl ihr =>
    simp only [HTree.full, Bool.and_eq_true] at h
    have := ihl h.1
    have := ihr h.2
    simp [HTree.leaves, HTree.size]; omega

/-- A leaf of a full tree of N leaves is at depth at most N - 1 (R166). -/
theorem full_depth {t : HTree} {p : Bits} {s : Byte} (h : t.full = true) (hp : t.nodeAt p = .leaf s) :
    p.length + 1 ≤ t.leaves.length := by
  induction t generalizing p with
  | empty => simp [HTree.full] at h
  | leaf x =>
    cases p with
    | nil => simp [HTree.leaves]
    | cons b p => simp at hp
  | internal l r ihl ihr =>
    simp only [HTree.full, Bool.and_eq_true] at h
    have hl := full_leaves_pos h.1
    have hr := full_leaves_pos h.2
    cases p with
    | nil => simp at hp
    | cons b p =>
      cases b
      · have := ihl h.1 (by simpa using hp)
        simp [HTree.leaves]; omega
      · have := ihr h.2 (by simpa using hp)
        simp [HTree.leaves]; omega

end Sys2Proof.Machine
end

