-- ==== Sys2Proof/Laws/Build.lean ====
section
/-! SUPPORT. BUILD (R140 to R148): the queue's order, extraction, and the tree the merges make. -/

namespace Sys2Proof.Machine

/-! ## The order of the queue (R142) -/

theorem before_iff {x y : QEntry} : x.before y = true ↔ x.freq.toNat < y.freq.toNat ∨ (x.freq = y.freq ∧ x.seq < y.seq) := by
  simp [QEntry.before]

theorem before_trans {x y z : QEntry} (h : x.before y = true) (h' : y.before z = true) : x.before z = true := by
  rw [before_iff] at *
  rcases h with h | ⟨h, hs⟩ <;> rcases h' with h' | ⟨h', hs'⟩
  · exact .inl (by omega)
  · exact .inl (h' ▸ h)
  · exact .inl (h ▸ h')
  · exact .inr ⟨h.trans h', by omega⟩

theorem before_irrefl (x : QEntry) : x.before x = false := by
  rw [Bool.eq_false_iff, Ne, before_iff]; omega

/-- Of two entries with different sequence numbers one comes first. -/
theorem before_total {x y : QEntry} (h : x.seq ≠ y.seq) : x.before y = true ∨ y.before x = true := by
  rw [before_iff, before_iff]
  by_cases hf : x.freq = y.freq
  · rcases Nat.lt_or_gt_of_ne h with h | h
    · exact .inl (.inr ⟨hf, h⟩)
    · exact .inr (.inr ⟨hf.symm, h⟩)
  · have : x.freq.toNat ≠ y.freq.toNat := fun e => hf (BitVec.eq_of_toNat_eq e)
    omega

/-! ## Extraction (R140) -/

@[simp] theorem extractMin_nil : extractMin [] = none := rfl

theorem extractMin_eq_none {q : List QEntry} : extractMin q = none ↔ q = [] := by
  cases q with
  | nil => simp
  | cons x q => simp only [extractMin]; split <;> (try split) <;> simp

/-- Extraction removes one entry and keeps the others. -/
theorem extractMin_perm {q r : List QEntry} {m : QEntry} (h : extractMin q = some (m, r)) : (m :: r).Perm q := by
  induction q generalizing m r with
  | nil => simp at h
  | cons x q ih =>
    rw [extractMin] at h
    split at h
    · rename_i hq
      cases h
      rw [extractMin_eq_none.mp hq]
    · rename_i m' rest hq
      split at h <;> cases h
      · exact (List.Perm.swap _ _ _).trans ((ih hq).cons x)
      · exact .refl _

theorem extractMin_length {q r : List QEntry} {m : QEntry} (h : extractMin q = some (m, r)) :
    q.length = r.length + 1 := by simpa using (extractMin_perm h).length_eq.symm

/-- The extracted entry comes before every other (R142). -/
theorem extractMin_least {q r : List QEntry} {m : QEntry} (hn : (q.map QEntry.seq).Nodup)
    (h : extractMin q = some (m, r)) : ∀ e ∈ r, m.before e = true := by
  induction q generalizing m r with
  | nil => simp at h
  | cons x q ih =>
    obtain ⟨hx, hn⟩ := List.nodup_cons.mp hn
    rw [extractMin] at h
    split at h
    · cases h; simp
    · rename_i m' rest hq
      have hp := extractMin_perm hq
      have hxs : ∀ e ∈ q, x.seq ≠ e.seq := fun e he hs => hx (hs ▸ List.mem_map_of_mem he)
      split at h <;> rename_i hb <;> cases h
      · intro e he
        rcases List.mem_cons.mp he with rfl | he
        · exact hb
        · exact ih hn hq e he
      · have hxm : x.before m' = true := by
          rcases before_total (hxs m' (hp.subset (List.mem_cons_self))) with h | h
          · exact h
          · exact absurd h hb
        intro e he
        rcases List.mem_cons.mp (hp.symm.subset he) with rfl | he
        · exact hxm
        · exact before_trans hxm (ih hn hq e he)

/-- The layout of the queue does not matter: permuted queues give the same entry and permuted rests (R147). -/
theorem extractMin_congr {q q' r : List QEntry} {m : QEntry} (hn : (q.map QEntry.seq).Nodup) (hp : q.Perm q')
    (h : extractMin q = some (m, r)) : ∃ r', extractMin q' = some (m, r') ∧ r.Perm r' := by
  cases h' : extractMin q' with
  | none =>
    rw [extractMin_eq_none] at h'
    subst h'
    rw [hp.eq_nil] at h
    simp at h
  | some mr =>
    obtain ⟨m', r'⟩ := mr
    have hn' : (q'.map QEntry.seq).Nodup := (hp.map _).nodup_iff.mp hn
    have hm := (extractMin_perm h).trans (hp.trans (extractMin_perm h').symm)
    have e : m = m' := by
      by_contra hne
      have h1 : m' ∈ r := by
        rcases List.mem_cons.mp (hm.symm.subset List.mem_cons_self) with e | e
        · exact absurd e.symm hne
        · exact e
      have h2 : m ∈ r' := by
        rcases List.mem_cons.mp (hm.subset List.mem_cons_self) with e | e
        · exact absurd e hne
        · exact e
      have := before_trans (extractMin_least hn h m' h1) (extractMin_least hn' h' m h2)
      rw [before_irrefl] at this
      cases this
    subst e
    exact ⟨r', rfl, hm.cons_inv⟩

/-! ## The merges (R143) -/

/-- One turn of the loop on a queue of two or more (R143). -/
theorem mergeLoop_step {fuel seq : Nat} {q q1 q2 : List QEntry} {a b : QEntry} (ha : extractMin q = some (a, q1))
    (hb : extractMin q1 = some (b, q2)) :
    mergeLoop (fuel + 1) q seq = mergeLoop fuel (combine a b seq :: q2) (seq + 1) := by
  rw [mergeLoop, ha]; simp only; rw [hb]

/-- The loop on a queue of one: its node is the root. -/
@[simp] theorem mergeLoop_single (fuel seq : Nat) (e : QEntry) : mergeLoop (fuel + 1) [e] seq = e.node := by
  simp [mergeLoop, extractMin]

@[simp] theorem mergeLoop_nil (fuel seq : Nat) : mergeLoop fuel [] seq = .empty := by cases fuel <;> rfl

/-- A queue of two or more gives up two entries. -/
theorem extract_two {q : List QEntry} (h : 2 ≤ q.length) :
    ∃ a q1 b q2, extractMin q = some (a, q1) ∧ extractMin q1 = some (b, q2) ∧ q.length = q2.length + 2 := by
  cases ha : extractMin q with
  | none => rw [extractMin_eq_none] at ha; simp [ha] at h
  | some p =>
    obtain ⟨a, q1⟩ := p
    have h1 := extractMin_length ha
    cases hb : extractMin q1 with
    | none => rw [extractMin_eq_none] at hb; simp [hb] at h1; omega
    | some p =>
      obtain ⟨b, q2⟩ := p
      exact ⟨a, q1, b, q2, rfl, hb, by have := extractMin_length hb; omega⟩

/-- The merges keep the leaves and give every internal node two children (R144). -/
theorem mergeLoop_spec {fuel seq : Nat} {q : List QEntry} (hq : q ≠ []) (hf : q.length ≤ fuel)
    (hn : ∀ e ∈ q, e.node.full = true) :
    (mergeLoop fuel q seq).full = true ∧ (mergeLoop fuel q seq).leaves.Perm (q.flatMap fun e => e.node.leaves) := by
  induction fuel generalizing q seq with
  | zero => simp at hf; exact absurd hf hq
  | succ fuel ih =>
    by_cases h2 : 2 ≤ q.length
    · obtain ⟨a, q1, b, q2, ha, hb, hl⟩ := extract_two h2
      rw [mergeLoop_step ha hb]
      have hp : (a :: b :: q2).Perm q := ((extractMin_perm hb).cons a).trans (extractMin_perm ha)
      have hn' : ∀ e ∈ a :: b :: q2, e.node.full = true := fun e he => hn e (hp.subset he)
      have := ih (q := combine a b seq :: q2) (seq := seq + 1) (by simp) (by simp; omega) (fun e he => by
        rcases List.mem_cons.mp he with rfl | he
        · simp [combine, HTree.full, hn']
        · exact hn' e (by simp [he]))
      refine ⟨this.1, this.2.trans ?_⟩
      refine List.Perm.trans ?_ (hp.flatMap_right _)
      simp [combine, HTree.leaves]
    · match q, hq, h2 with
      | [e], _, _ => simp [hn e (by simp)]
      | _ :: _ :: _, _, h2 => simp at h2

/-- Permuted queues with distinct sequence numbers below the next give the same tree (R147). -/
theorem mergeLoop_congr {fuel seq : Nat} {q q' : List QEntry} (hn : (q.map QEntry.seq).Nodup)
    (hs : ∀ e ∈ q, e.seq < seq) (hp : q.Perm q') : mergeLoop fuel q seq = mergeLoop fuel q' seq := by
  induction fuel generalizing q q' seq with
  | zero => rfl
  | succ fuel ih =>
    by_cases h2 : 2 ≤ q.length
    · obtain ⟨a, q1, b, q2, ha, hb, _⟩ := extract_two h2
      obtain ⟨q1', ha', hp1⟩ := extractMin_congr hn hp ha
      have hn0 : ((a :: q1).map QEntry.seq).Nodup := ((extractMin_perm ha).map _).nodup_iff.mpr hn
      have hn1 : (q1.map QEntry.seq).Nodup := (List.nodup_cons.mp hn0).2
      obtain ⟨q2', hb', hp2⟩ := extractMin_congr hn1 hp1 hb
      have hn2 : ((b :: q2).map QEntry.seq).Nodup := ((extractMin_perm hb).map _).nodup_iff.mpr hn1
      have hs2 : ∀ e ∈ q2, e.seq < seq := fun e he =>
        hs e ((extractMin_perm ha).subset (List.mem_cons_of_mem _ ((extractMin_perm hb).subset (List.mem_cons_of_mem _ he))))
      rw [mergeLoop_step ha hb, mergeLoop_step ha' hb']
      refine ih ?_ ?_ (hp2.cons _)
      · refine List.nodup_cons.mpr ⟨fun h => ?_, (List.nodup_cons.mp hn2).2⟩
        obtain ⟨e, he, hes⟩ := List.mem_map.mp h
        have := hs2 e he
        simp [combine] at hes
        omega
      · intro e he
        rcases List.mem_cons.mp he with rfl | he
        · simp [combine]
        · have := hs2 e he; omega
    · match q, h2 with
      | [], _ => rw [hp.nil_eq]
      | [e], _ => rw [List.singleton_perm.mp hp]
      | _ :: _ :: _, h2 => simp at h2


/-- Combining two entries keeps the sum of the weights, which never wraps (R148). -/
theorem combine_weight {q q1 q2 : List QEntry} {a b : QEntry} {seq : Nat} (ha : extractMin q = some (a, q1))
    (hb : extractMin q1 = some (b, q2)) (h : weightSum q < 2 ^ 32) :
    (a.freq + b.freq).toNat = a.freq.toNat + b.freq.toNat ∧ weightSum (combine a b seq :: q2) = weightSum q := by
  have hp : (a :: b :: q2).Perm q := ((extractMin_perm hb).cons a).trans (extractMin_perm ha)
  have e : a.freq.toNat + (b.freq.toNat + weightSum q2) = weightSum q := by
    simpa [weightSum] using (hp.map fun e => e.freq.toNat).sum_eq
  have h1 : (a.freq + b.freq).toNat = a.freq.toNat + b.freq.toNat := by
    rw [BitVec.toNat_add]; omega
  refine ⟨h1, ?_⟩
  rw [← e]
  simp only [weightSum, combine, List.map_cons, List.sum_cons, h1]
  omega

/-! ## The initial queue (R141) -/

theorem leafEntries_nodes (f : Table Word) (l : List Byte) (seq : Nat) :
    (leafEntries f l seq).map QEntry.node = (l.filter fun s => Table.get f s ≠ 0#32).map HTree.leaf := by
  induction l generalizing seq with
  | nil => rfl
  | cons s l ih =>
    rw [leafEntries]
    split <;> rename_i h <;> simp [h, ih]

theorem leafEntries_seqs (f : Table Word) (l : List Byte) (seq : Nat) :
    (leafEntries f l seq).map QEntry.seq = List.range' seq (leafEntries f l seq).length := by
  induction l generalizing seq with
  | nil => rfl
  | cons s l ih =>
    rw [leafEntries]
    split
    · exact ih seq
    · simp [ih, List.range'_succ]

theorem leafEntries_length (f : Table Word) (l : List Byte) (seq : Nat) :
    (leafEntries f l seq).length = (l.filter fun s => Table.get f s ≠ 0#32).length := by
  simpa using congrArg List.length (leafEntries_nodes f l seq)

theorem leafEntries_weight (f : Table Word) (l : List Byte) (seq : Nat) :
    weightSum (leafEntries f l seq) = (l.map fun s => (Table.get f s).toNat).sum := by
  induction l generalizing seq with
  | nil => rfl
  | cons s l ih =>
    have := fun n => ih n
    rw [leafEntries]
    split <;> rename_i h
    · simp [h, ih]
    · simp [weightSum] at this ⊢
      rw [this]

theorem leafEntries_mem {f : Table Word} {l : List Byte} {seq : Nat} {e : QEntry} (h : e ∈ leafEntries f l seq) :
    ∃ s ∈ l, e.node = .leaf s ∧ e.freq = Table.get f s ∧ Table.get f s ≠ 0#32 := by
  induction l generalizing seq with
  | nil => simp [leafEntries] at h
  | cons s l ih =>
    rw [leafEntries] at h
    split at h <;> rename_i hz
    · obtain ⟨x, hx, h⟩ := ih h
      exact ⟨x, List.mem_cons_of_mem _ hx, h⟩
    · rcases List.mem_cons.mp h with rfl | h
      · exact ⟨s, by simp, rfl, rfl, hz⟩
      · obtain ⟨x, hx, h⟩ := ih h
        exact ⟨x, List.mem_cons_of_mem _ hx, h⟩

theorem initialQueue_leaves (f : Table Word) :
    ((initialQueue f).flatMap fun e => e.node.leaves) = symbols.filter fun s => Table.get f s ≠ 0#32 := by
  have h : ∀ q : List QEntry, (q.flatMap fun e => e.node.leaves) = (q.map QEntry.node).flatMap HTree.leaves := by
    intro q; induction q <;> simp_all
  rw [h, initialQueue, leafEntries_nodes]
  generalize (symbols.filter _) = l
  induction l <;> simp_all [HTree.leaves]

/-- What BUILD makes of a table with a count (R144, R145): a full tree whose leaves are the symbols counted. -/
theorem buildTree_spec {f : Table Word} (h : initialQueue f ≠ []) :
    (buildTree f).full = true ∧ (buildTree f).leaves.Perm (symbols.filter fun s => Table.get f s ≠ 0#32) := by
  have := mergeLoop_spec (seq := (initialQueue f).length) h (Nat.le_refl _) (fun e he => by
    obtain ⟨s, _, hn, _⟩ := leafEntries_mem he
    rw [hn]; rfl)
  rwa [initialQueue_leaves] at this

/-- BUILD without a count (R146). -/
theorem buildTree_empty {f : Table Word} (h : initialQueue f = []) : buildTree f = .empty := by simp [buildTree, h]

end Sys2Proof.Machine
end

