-- ==== Sys2Proof/Laws/Words.lean ====
section
/-! SUPPORT. Bits in words (R84, R85): packing a bit sequence and reading it back. -/

namespace Sys2Proof

theorem bitsToNat_append_bit (c : Bits) (b : Bool) : bitsToNat (c ++ [b]) = 2 * bitsToNat c + b.toNat := by
  simp [bitsToNat]

/-- Bit k of the number, from the least significant, is bit k of the sequence from its end. -/
theorem bitsToNat_testBit (c : Bits) (k : Nat) : (bitsToNat c).testBit k = c.reverse.getD k false := by
  induction c using List.reverseRecOn generalizing k with
  | nil => simp [bitsToNat]
  | append_singleton c b ih =>
    rw [bitsToNat_append_bit, List.reverse_append, List.reverse_singleton, List.singleton_append]
    cases k with
    | zero => cases b <;> simp [Nat.testBit_zero]
    | succ k =>
      have : (2 * bitsToNat c + b.toNat) / 2 = bitsToNat c := by cases b <;> simp <;> omega
      rw [Nat.testBit_succ, this, ih, List.getD_cons_succ]

@[simp] theorem wordBits_length (w : Word) : (wordBits w).length = 32 := by simp [wordBits]

theorem wordBits_getElem (w : Word) (i : Nat) (h : i < (wordBits w).length) : (wordBits w)[i] = w.getLsbD (31 - i) := by
  simp [wordBits]

/-- A word holds 32 bits in their order. -/
theorem wordBits_ofBits {c : Bits} (h : c.length = 32) : wordBits (BitVec.ofNat 32 (bitsToNat c)) = c := by
  apply List.ext_getElem
  · simp [h]
  · intro i _ hi
    have e : 31 - (31 - i) = i := by omega
    rw [wordBits_getElem, BitVec.getLsbD_ofNat, bitsToNat_testBit, List.getD_eq_getElem _ _ (by simp; omega)]
    simp [h, e]
    omega

/-- Reading a packed word back gives the bits, then zeros (R84). -/
theorem wordBits_packWord {c : Bits} (h : c.length ≤ 32) :
    wordBits (packWord c) = c ++ List.replicate (32 - c.length) false :=
  wordBits_ofBits (by simp; omega)

@[simp] theorem packCode_length (c : Bits) : (packCode c).length = dataWords c.length := by simp [packCode]

/-- Reading the data words of a code back gives the code, then zeros to the end of the last word (R84). -/
theorem packCode_bits (c : Bits) :
    (packCode c).flatMap wordBits = c ++ List.replicate (32 * dataWords c.length - c.length) false := by
  have key : ∀ k, 32 * k ≤ c.length + 31 →
      ((List.range k).map fun j => packWord ((c.drop (32 * j)).take 32)).flatMap wordBits
        = c.take (32 * k) ++ List.replicate (32 * k - c.length) false := by
    intro k
    induction k with
    | zero => simp
    | succ k ih =>
      intro h
      rw [List.range_succ, List.map_append, List.flatMap_append, ih (by omega)]
      simp only [List.map_cons, List.map_nil, List.flatMap_cons, List.flatMap_nil, List.append_nil]
      rw [wordBits_packWord (by simp), show 32 * k - c.length = 0 by omega, List.replicate_zero, List.append_nil,
        ← List.append_assoc, ← List.take_add, show 32 * k + 32 = 32 * (k + 1) by omega]
      congr 2
      simp; omega
  have h := key (dataWords c.length) (by unfold dataWords; omega)
  rwa [List.take_of_length_le (by unfold dataWords; omega)] at h

/-- The first bits of the data words are the code (R84, R192). -/
theorem packCode_take (c : Bits) : ((packCode c).flatMap wordBits).take c.length = c := by
  rw [packCode_bits]; simp

theorem dataWords_pos {n : Nat} (h : 0 < n) : 0 < dataWords n := by unfold dataWords; omega

theorem dataWords_le {n : Nat} (h : n ≤ 255) : dataWords n ≤ 8 := by unfold dataWords; omega

end Sys2Proof

namespace Sys2Proof.Machine

/-- K fits PENDW for every 8-bit length (R84). -/
@[simp] theorem pendWords_toNat (len : Byte) : (pendWords len).toNat = dataWords len.toNat := by
  have := dataWords_le (n := len.toNat) (by omega)
  simp [pendWords]; omega

theorem decBits_length (nm1 : BitVec 4) (bits : BitVec 16) : (decBits nm1 bits).length = decCount nm1 := by simp [decBits]

/-- Bit j that a DEC consumes is BITS[15 - j] (R85). -/
theorem decBits_getElem (nm1 : BitVec 4) (bits : BitVec 16) (j : Nat) (h : j < (decBits nm1 bits).length) :
    (decBits nm1 bits)[j] = bits.getLsbD (15 - j) := by simp [decBits]

/-- The DEC word of 1 to 16 bits consumes exactly them (R85, R89). -/
theorem decBits_packed {c : Bits} (h0 : c ≠ []) (h : c.length ≤ 16) :
    decBits (BitVec.ofNat 4 (c.length - 1)) ((packWord c).extractLsb' 16 16) = c := by
  have hpos := List.length_pos_iff.mpr h0
  have hn : decCount (BitVec.ofNat 4 (c.length - 1)) = c.length := by simp [decCount]; omega
  apply List.ext_getElem
  · rw [decBits_length, hn]
  · intro i hi hi'
    rw [decBits_getElem]
    have h1 : (wordBits (packWord c))[i]'(by simp; omega) = (packWord c).getLsbD (31 - i) := wordBits_getElem ..
    have h2 := wordBits_packWord (c := c) (by omega)
    simp only [h2] at h1
    rw [List.getElem_append_left hi'] at h1
    rw [h1, BitVec.getLsbD_extractLsb', show 16 + (15 - i) = 31 - i by omega]
    simp; omega

end Sys2Proof.Machine
end

