-- ==== Sys2Proof/Laws/TreeRebuilder.lean ====
section
/-! SUPPORT. TLOAD entries (R191 to R198): what one does, and the tree a list of them makes. -/

namespace Sys2Proof.Machine

/-! ## An entry (R193 to R197) -/

/-- Everything an entry can do. -/
theorem applyEntry_cases (sym : Byte) (c : Bits) (s : State) :
   (∃ e, e ∈ [ErrCode.dupSym, .conflict, .treeFull] ∧ applyEntry sym c s = raise e (symInfo sym) s) ∨
   (Table.get s.clen sym = 0#8 ∧ ∃ d, entryWalk s.root c 0 = .room d ∧ s.nodes.toNat + (c.length - d) ≤ 511 ∧
       applyEntry sym c s = { s with
          root := s.root.insert c sym
          nodes := s.nodes + BitVec.ofNat 10 (c.length - d)
          clen := Table.set s.clen sym (BitVec.ofNat 8 c.length)
          code := Table.set s.code sym c
          nsym := s.nsym + 1#9 }) := by
  unfold applyEntry
  split
  · exact .inl ⟨_, by simp, rfl⟩
  · split
    · exact .inl ⟨_, by simp, rfl⟩
    · split
      · exact .inl ⟨_, by simp, rfl⟩
      · refine .inr ⟨by simp_all, _, ‹_›, ?_, rfl⟩
        rename_i h; simp only [Config.nodeCap] at h; omega

/-- An entry does not depend on BUSY. -/
theorem applyEntry_busy (sym : Byte) (c : Bits) (s : State) (b : Bool) :
    { applyEntry sym c { s with busy := b } with busy := false } = { applyEntry sym c s with busy := false } := by
  unfold applyEntry
  simp only
  split
  · rfl
  · cases entryWalk s.root c 0 with
    | conflict => rfl
    | room d => simp only; split <;> rfl

/-- What a data word leaves alone. -/
theorem tloadData_frame (w : Word) (s : State) :
    (tloadData w s).freq = s.freq ∧ (tloadData w s).cur = s.cur ∧
    (tloadData w s).bitOut = s.bitOut ∧ (tloadData w s).bitcnt = s.bitcnt ∧
    (tloadData w s).symOut = s.symOut ∧ (tloadData w s).symcnt = s.symcnt ∧
    (tloadData w s).tblOut = s.tblOut ∧ (tloadData w s).depths = s.depths ∧ (tloadData w s).inbox = s.inbox ∧
    (tloadData w s).readData = s.readData ∧ (tloadData w s).draws = s.draws := by
  unfold tloadData
  simp only
  split
  · rcases applyEntry_cases s.tlsym ((s.tlbits ++ wordBits w).take s.tllen.toNat)
      { s with tlbits := s.tlbits ++ wordBits w, pendw := s.pendw - 1#4, pend := false } with
      ⟨e, _, h⟩ | ⟨_, d, _, _, h⟩
    all_goals rw [h]; exact ⟨rfl, rfl, rfl, rfl, rfl, rfl, rfl, rfl, rfl, rfl, rfl⟩
  · exact ⟨rfl, rfl, rfl, rfl, rfl, rfl, rfl, rfl, rfl, rfl, rfl⟩

theorem inits_below_empty (c : Bits) : (c.inits.filter fun p => HTree.empty.nodeAt p = .empty).length = c.length + 1 := by
  simp

/-- The nodes an entry lacks are the prefixes of its code at which nothing stands (R193, R196). -/
theorem room_missing {c : Bits} {l r d e} (h : entryWalk (.internal l r) c d = .room e) :
   (c.inits.filter fun p => (HTree.internal l r).nodeAt p = .empty).length + e = c.length + d := by
  induction c generalizing l r d with
  | nil => simp [entryWalk] at h
  | cons b c ih =>
    rw [entryWalk] at h
    have : ((b :: c).inits.filter fun p => (HTree.internal l r).nodeAt p = .empty).length =
        (c.inits.filter fun p => ((HTree.internal l r).child b).nodeAt p = .empty).length := by
      simp only [List.inits_cons, List.filter_cons, nodeAt_nil, List.filter_map]
      simp; rfl
    rw [this]
    split at h <;> rename_i hc
    · cases h; rw [hc, inits_below_empty]; simp
    · cases h
    · rw [hc]; have := ih h; simp; omega

/-- Where the walk of R193 finds room the place is free (R195). -/
theorem free_of_room {l r c d} (h : entryWalk (.internal l r) c 0 = .room d) : (HTree.internal l r).Free c := by
  by_contra hc
  rw [entryWalk_conflict_iff.mpr hc] at h; cases h

/-! ## The tree of a list of entries (R198) -/

/-- The tree holds exactly these entries: a leaf at each code, internal nodes at their proper prefixes, nothing else (R198). -/
structure HTree.Loaded (t : HTree) (pre : List (Byte × Bits)) : Prop where
  root : t.InternalAt []
  leaf : ∀ p x, t.nodeAt p = .leaf x ↔ (x, p) ∈ pre
  internal : ∀ p, t.InternalAt p ↔ p = [] ∨ ∃ e ∈ pre, p <+: e.2 ∧ p ≠ e.2

theorem mem_codePrefixes {es : List (Byte × Bits)} {p} : p ∈ codePrefixes es ↔ p ≠ [] ∧ ∃ e ∈ es, p <+: e.2 := by
  unfold codePrefixes
  rw [List.mem_dedup, List.mem_filter, List.mem_flatMap]
  simp only [List.mem_inits, ne_eq, decide_not, Bool.not_eq_true', decide_eq_false_iff_not]
  exact and_comm

/-- The nodes of the tree are the root and the distinct non-empty prefixes (R198). -/
theorem loaded_size {t pre} (h : HTree.Loaded t pre) : t.size = 1 + (codePrefixes pre).length := by
  rw [← paths_length]
  have hn : (([] : Bits) :: codePrefixes pre).Nodup := List.nodup_cons.mpr ⟨fun h => (mem_codePrefixes.mp h).1 rfl,
      List.nodup_dedup _⟩
  have : t.paths.Perm ([] :: codePrefixes pre) := by
    refine (List.perm_ext_iff_of_nodup (paths_nodup t) hn).mpr fun p => ?_
    rw [mem_paths, List.mem_cons, mem_codePrefixes]
    constructor
    · intro hp
      by_cases h0 : p = []
      · exact .inl h0
      right; refine ⟨h0, ?_⟩
      cases hx : t.nodeAt p with
      | empty => exact absurd hx hp
      | leaf x => exact ⟨_, (h.leaf p x).mp hx, List.prefix_refl _⟩
      | internal l r =>
        rcases (h.internal p).mp ⟨l, r, hx⟩ with h1 | ⟨e, he, hpe, _⟩
        · exact absurd h1 h0
        · exact ⟨e, he, hpe⟩
    · rintro (rfl | ⟨h0, e, he, hpe⟩)
      · obtain ⟨l, r, hx⟩ := h.root; rw [hx]; simp
      · by_cases hq : p = e.2
        · rw [hq, (h.leaf e.2 e.1).mpr he]; simp
        · obtain ⟨l, r, hx⟩ := (h.internal p).mpr (.inr ⟨e, he, hpe, hq⟩); rw [hx]; simp
  rw [this.length_eq]; simp [Nat.add_comm]

/-- Two trees that hold the same entries are equal. -/
theorem loaded_unique {t t' pre pre'} (h : HTree.Loaded t pre) (h' : HTree.Loaded t' pre') (hp : ∀ e,
    e ∈ pre ↔ e ∈ pre') : t = t' := by
  apply tree_ext
  · intro p s; rw [h.leaf, h'.leaf, hp]
  · intro p
    show t.InternalAt p ↔ t'.InternalAt p
    rw [h.internal, h'.internal]
    constructor
    · rintro (h | ⟨e, he, h⟩); exact .inl h; exact .inr ⟨e, (hp e).mp he, h⟩
    · rintro (h | ⟨e, he, h⟩); exact .inl h; exact .inr ⟨e, (hp e).mpr he, h⟩

/-- The tree a decode session starts with holds nothing (R190, R200). -/
theorem loaded_nil : HTree.Loaded (.internal .empty .empty) [] := by
  refine ⟨⟨_, _, rfl⟩, fun p x => ?_, fun p => ?_⟩
  · cases p with
    | nil => simp
    | cons b p => cases b <;> simp
  · cases p with
    | nil => simp [HTree.InternalAt]
    | cons b p => cases b <;> simp [HTree.InternalAt]

/-- A code that is comparable with none of those held has a free place. -/
theorem loaded_free {t pre} {c : Bits} (h : HTree.Loaded t pre) (hc : c ≠ []) (hp : ∀ e ∈ pre, ¬ e.2 <+: c ∧
    ¬ c <+: e.2) : t.Free c := by
  refine ⟨fun q s hq hs => (hp _ ((h.leaf q s).mp hs)).1 hq, ?_⟩
  cases hx : t.nodeAt c with
  | empty => rfl
  | leaf s => exact absurd (List.prefix_refl _) (hp _ ((h.leaf c s).mp hx)).1
  | internal l r =>
    rcases (h.internal c).mp ⟨l, r, hx⟩ with h1 | ⟨e, he, hpe, _⟩
    · exact absurd h1 hc
    · exact absurd hpe (hp e he).2

/-- Inserting an entry in a free place adds it to those held. -/
theorem loaded_insert {t pre x c} (h : HTree.Loaded t pre) (hf : t.Free c) (hc : c ≠ []) : HTree.Loaded (t.insert c x)
    (pre ++ [(x, c)]) := by
  refine ⟨(insert_internal_iff hf).mpr (.inr h.root), fun p y => ?_, fun p => ?_⟩
  · rw [insert_leaf_iff hf, h.leaf]
    simp only [List.mem_append, List.mem_singleton, Prod.mk.injEq]
    constructor
    · rintro (⟨rfl, rfl⟩ | h); exact .inr ⟨rfl, rfl⟩; exact .inl h
    · rintro (h | ⟨rfl, rfl⟩); exact .inr h; exact .inl ⟨rfl, rfl⟩
  · rw [show (t.insert c x).InternalAt p ↔ _ from insert_internal_iff hf]
    rw [show (∃ l r, t.nodeAt p = .internal l r) ↔ _ from h.internal p]
    simp only [List.mem_append, List.mem_singleton]
    constructor
    · rintro (h | h | ⟨e, he, h⟩)
      · exact .inr ⟨_, .inr rfl, h⟩
      · exact .inl h
      · exact .inr ⟨e, .inl he, h⟩
    · rintro (h | ⟨e, he | rfl, h⟩)
      · exact .inr (.inl h)
      · exact .inr (.inr ⟨e, he, h⟩)
      · exact .inl h

theorem codePrefixes_le {a b : List (Byte × Bits)} (h : ∀ e ∈ a, e ∈ b) : (codePrefixes a).length ≤
    (codePrefixes b).length := by
  refine (List.Nodup.subperm (List.nodup_dedup _) fun p hp => ?_).length_le
  obtain ⟨h1, e, he, h2⟩ := mem_codePrefixes.mp hp
  exact mem_codePrefixes.mpr ⟨h1, e, h e he, h2⟩

end Sys2Proof.Machine
end

