-- ==== Sys2Proof/Laws/CodeTable.lean ====
section
/-! SUPPORT. GEN (R160 to R167): the entries of a tree and the tables they make. -/

namespace Sys2Proof.Machine

/-! ## The entries GEN records (R160) -/

/-- An entry is a leaf with its path, or the one leaf with the code "0" (R160, R163). -/
theorem genEntries_mem {t : HTree} {x p} (hp : (x, p) ∈ genEntries t) :
    x ∈ t.leaves ∧ p ≠ [] ∧ (t.nodeAt p = .leaf x ∨ t = .leaf x ∧ p = [false]) := by
  cases t with
  | empty => simp [genEntries] at hp
  | leaf y => simp [genEntries] at hp; obtain ⟨rfl, rfl⟩ := hp; simp [HTree.leaves]
  | internal l r =>
    obtain ⟨u, rfl, hu⟩ := mem_visit.mp hp
    refine ⟨mem_leaves.mpr ⟨_, hu⟩, ?_, .inl (by simpa using hu)⟩
    intro e
    subst e; simp at hu

/-- One entry for each leaf, in the order of the leaves (R161). -/
theorem genEntries_symbols (t : HTree) : (genEntries t).map Prod.fst = t.leaves := by
  cases t with
  | empty => rfl
  | leaf x => rfl
  | internal l r => exact visit_symbols _ _

theorem genEntries_of_leaves {t : HTree} {x} (h : x ∈ t.leaves) : ∃ p, (x, p) ∈ genEntries t := by
  rw [← genEntries_symbols] at h
  obtain ⟨⟨y, p⟩, h', e⟩ := List.mem_map.mp h
  cases e
  exact ⟨p, h'⟩

theorem genEntries_of_leaf {t : HTree} {x p} (hp : p ≠ []) (h : t.nodeAt p = .leaf x) : (x, p) ∈ genEntries t := by
  cases t with
  | empty => simp at h
  | leaf y => cases p with
    | nil => exact absurd rfl hp
    | cons b p => simp at h
  | internal l r => exact mem_visit.mpr ⟨p, by simp, h⟩

/-- Code lengths (R166). -/
theorem genEntries_length {t : HTree} {x p} (hf : t.full = true) (h : (x, p) ∈ genEntries t) :
    1 ≤ p.length ∧ p.length ≤ max 1 (t.leaves.length - 1) := by
  obtain ⟨h1, h2, h3 | ⟨rfl, rfl⟩⟩ := genEntries_mem h
  · have := full_depth hf h3
    exact ⟨List.length_pos_iff.mpr h2, by omega⟩
  · simp

/-- Codes of different symbols are no prefixes of one another (R166). -/
theorem genEntries_prefix_free {t : HTree} {x y p q} (hxy : x ≠ y) (hn : t.leaves.Nodup) (hp : (x, p) ∈ genEntries t)
    (hq : (y, q) ∈ genEntries t) : ¬ p <+: q := by
  intro h
  obtain ⟨_, _, h3 | ⟨rfl, rfl⟩⟩ := genEntries_mem hp
  · obtain ⟨_, _, h4 | ⟨rfl, rfl⟩⟩ := genEntries_mem hq
    · exact hxy (leaf_paths_prefix_free h3 h4 h).2
    · simp [genEntries] at hp; exact hxy hp.1
  · simp [genEntries] at hq; exact hxy hq.1.symm

/-- The leaves of a full tree fill the code space (R166). -/
theorem kraft {t : HTree} (hf : t.full = true) : ∀ (p : Bits) (N : Nat), (∀ x q, (x, q) ∈ t.visit p → q.length ≤ N) →
    ((t.visit p).map fun e => 2 ^ (N - e.2.length)).sum = 2 ^ (N - p.length) := by
  induction t with
  | empty => simp [HTree.full] at hf
  | leaf s => intro p N _; simp [HTree.visit]
  | internal l r ihl ihr =>
    simp only [HTree.full, Bool.and_eq_true] at hf
    intro p N h
    simp only [HTree.visit, List.map_append, List.sum_append, List.mem_append] at h ⊢
    rw [ihl hf.1 _ _ fun x q hq => h x q (.inl hq), ihr hf.2 _ _ fun x q hq => h x q (.inr hq)]
    have hlen : p.length + 1 ≤ N := by
      have := full_leaves_pos hf.1
      rw [← visit_symbols l (p ++ [false])] at this
      cases hv : l.visit (p ++ [false]) with
      | nil => rw [hv] at this; simp at this
      | cons e es =>
        have h2 := h e.1 e.2 (.inl (by rw [hv]; simp))
        obtain ⟨u, hu, _⟩ := mem_visit.mp (show (e.1, e.2) ∈ l.visit (p ++ [false]) by rw [hv]; simp)
        rw [hu] at h2; simp at h2; omega
    simp only [List.length_append, List.length_singleton]
    rw [← Nat.two_mul, ← Nat.pow_succ']
    congr 1; omega

/-! ## The tables after the entries are recorded (R162) -/

theorem recordCodes_not_mem {es : List (Byte × Bits)} {t : Table Bits} {x} (h : x ∉ es.map Prod.fst) :
    Table.get (recordCodes es t) x = Table.get t x := by
  induction es generalizing t with
  | nil => rfl
  | cons e es ih =>
    simp only [List.map_cons, List.mem_cons, not_or] at h
    show Table.get (recordCodes es (Table.set t e.1 e.2)) x = _
    rw [ih h.2, Table.get_set_ne _ _ (Ne.symm h.1)]

theorem recordCodes_mem {es : List (Byte × Bits)} {t : Table Bits} {x p} (hn : (es.map Prod.fst).Nodup)
    (h : (x, p) ∈ es) : Table.get (recordCodes es t) x = p := by
  induction es generalizing t with
  | nil => cases h
  | cons e es ih =>
    simp only [List.map_cons, List.nodup_cons] at hn
    show Table.get (recordCodes es (Table.set t e.1 e.2)) x = _
    rcases List.mem_cons.mp h with rfl | h
    · rw [recordCodes_not_mem hn.1, Table.get_set_self]
    · exact ih hn.2 h

theorem recordLens_not_mem {es : List (Byte × Bits)} {t : Table Byte} {x} (h : x ∉ es.map Prod.fst) :
    Table.get (recordLens es t) x = Table.get t x := by
  induction es generalizing t with
  | nil => rfl
  | cons e es ih =>
    simp only [List.map_cons, List.mem_cons, not_or] at h
    show Table.get (recordLens es (Table.set t e.1 _)) x = _
    rw [ih h.2, Table.get_set_ne _ _ (Ne.symm h.1)]

theorem recordLens_mem {es : List (Byte × Bits)} {t : Table Byte} {x p} (hn : (es.map Prod.fst).Nodup)
    (h : (x, p) ∈ es) : Table.get (recordLens es t) x = BitVec.ofNat 8 p.length := by
  induction es generalizing t with
  | nil => cases h
  | cons e es ih =>
    simp only [List.map_cons, List.nodup_cons] at hn
    show Table.get (recordLens es (Table.set t e.1 _)) x = _
    rcases List.mem_cons.mp h with rfl | h
    · rw [recordLens_not_mem hn.1, Table.get_set_self]
    · exact ih hn.2 h

/-! ## A full tree holds the entries GEN records of it (R199) -/

theorem full_leaf_below {t : HTree} (h : t.full = true) : ∃ q x, t.nodeAt q = .leaf x := by
  induction t with
  | empty => simp [HTree.full] at h
  | leaf s => exact ⟨[], s, rfl⟩
  | internal l r ihl _ =>
    simp only [HTree.full, Bool.and_eq_true] at h
    obtain ⟨q, x, hq⟩ := ihl h.1
    exact ⟨false :: q, x, by simpa using hq⟩

theorem full_subtree {t : HTree} (h : t.full = true) {p l r} (hp : t.nodeAt p = .internal l r) :
    (HTree.internal l r).full = true := by
  induction p generalizing t with
  | nil => simp at hp; rw [← hp]; exact h
  | cons b p ih =>
    cases t with
    | empty => simp at hp
    | leaf => simp at hp
    | internal l' r' =>
      simp only [HTree.full, Bool.and_eq_true] at h
      cases b
      · exact ih h.1 (by simpa using hp)
      · exact ih h.2 (by simpa using hp)

/-- The encode tree holds exactly its own entries. -/
theorem loaded_full {l r : HTree} (h : (HTree.internal l r).full = true) :
    HTree.Loaded (.internal l r) (genEntries (.internal l r)) := by
  refine ⟨⟨l, r, rfl⟩, fun p x => ?_, fun p => ?_⟩
  · unfold genEntries; rw [mem_visit]; simp
  · constructor
    · rintro ⟨l', r', hp⟩
      by_cases h0 : p = []
      · exact .inl h0
      right
      have hf := full_subtree h hp
      obtain ⟨q, x, hq⟩ := full_leaf_below hf
      have hq0 : q ≠ [] := by rintro rfl; simp at hq
      refine ⟨(x, p ++ q), mem_visit.mpr ⟨p ++ q, by simp, by rw [nodeAt_append, hp, hq]⟩, by simp, by simpa using hq0⟩
    · rintro (rfl | ⟨⟨x, c⟩, he, ⟨q, hq⟩, hne⟩)
      · exact ⟨l, r, rfl⟩
      · obtain ⟨u, hu, hx⟩ := mem_visit.mp he
        simp at hu hq hne; subst hu; subst hq
        exact nodeAt_above (by rw [hx]; simp) (by rintro rfl; simp at hne)

end Sys2Proof.Machine
end

