-- ==== Sys2Proof/Laws/Codec.lean ====
section
/-! SUPPORT. The fields of command words (R80 to R83, R86): how encoding places them and what decoding asks of them. -/

namespace Sys2Proof

open Machine

/-! ## Fields as numbers -/

theorem extract_toNat (w : Word) (lo n : Nat) : (w.extractLsb' lo n).toNat = fieldOf w lo n := by
  simp [BitVec.extractLsb'_toNat, fieldOf, Nat.shiftRight_eq_div_pow]

/-- A field is 0 as bits exactly when it is 0 as a number (R8). -/
theorem extract_eq_zero (w : Word) (lo n : Nat) : w.extractLsb' lo n = 0#n ↔ fieldOf w lo n = 0 := by
  rw [← extract_toNat]
  constructor
  · intro h; rw [h]; simp
  · intro h; exact BitVec.eq_of_toNat_eq (by simpa using h)

theorem opcField_toNat (w : Word) : (opcField w).toNat = opcOf w := by
  rw [opcField, extract_toNat]
  have := w.isLt
  simp only [fieldOf, opcOf]; omega

/-! ## What encoding places -/

/-- The opcode of a command (R82). -/
def opcode : Instr → BitVec 4
  | .nop => 0x0#4
  | .srst => 0x1#4
  | .count _ => 0x2#4
  | .build => 0x3#4
  | .gen => 0x4#4
  | .enc _ => 0x5#4
  | .tload _ _ => 0x6#4
  | .tfin => 0x7#4
  | .dec _ _ => 0x8#4
  | .dfin => 0x9#4

/-- OPC is in bits [31:28] of every command word (R80, R82). -/
theorem opcField_encode (i : Instr) : opcField (encode i) = opcode i := by
  cases i <;> simp only [opcField, encode, opcode] <;>
    repeat (first | rw [BitVec.extractLsb'_append_eq_of_le (by omega)] | rfl)

/-- A concatenation as a number: the high part above the low one. -/
theorem append_toNat {n m : Nat} (x : BitVec n) (y : BitVec m) : (x ++ y).toNat = x.toNat * 2 ^ m + y.toNat := by
  rw [BitVec.toNat_append, ← Nat.shiftLeft_add_eq_or_of_lt y.isLt, Nat.shiftLeft_eq]

/-- The word of a command as a number (R82). -/
theorem encode_toNat (i : Instr) : (encode i).toNat =
    match i with
    | .nop => 0x00000000
    | .srst => 0x10000000
    | .count sym => 0x20000000 + sym.toNat
    | .build => 0x30000000
    | .gen => 0x40000000
    | .enc sym => 0x50000000 + sym.toNat
    | .tload len sym => 0x60000000 + len.toNat * 2 ^ 8 + sym.toNat
    | .tfin => 0x70000000
    | .dec nm1 bits => 0x80000000 + nm1.toNat * 2 ^ 16 + bits.toNat
    | .dfin => 0x90000000 := by
  cases i <;> simp only [encode] <;> (try rfl) <;> (try rw [append_toNat]) <;> (try rw [append_toNat]) <;> simp <;> omega

/-! ## What decoding asks (R88) -/

/-- decode(w, 0) by the number OPC. -/
theorem decodeCommand_eq (w : Word) : decodeCommand w =
    match opcOf w with
    | 0 => decodeZ w .nop
    | 1 => decodeZ w .srst
    | 2 => decodeS w .count
    | 3 => decodeZ w .build
    | 4 => decodeZ w .gen
    | 5 => decodeS w .enc
    | 6 => decodeT w
    | 7 => decodeZ w .tfin
    | 8 => decodeD w
    | 9 => decodeZ w .dfin
    | _ => .badOpc := by
  have h := opcField_toNat w
  unfold decodeCommand
  generalize opcField w = o at h
  rw [← h]
  obtain ⟨⟨n, hn⟩⟩ := o
  clear h
  interval_cases n <;> rfl

theorem decodeZ_eq (w : Word) (i : Instr) : decodeZ w i = if fieldOf w 0 28 = 0 then .instr i else .badCmd := by
  simp only [decodeZ, extract_eq_zero]

theorem decodeS_eq (w : Word) (f : Byte → Instr) :
    decodeS w f = if fieldOf w 8 20 = 0 then .instr (f (symField w)) else .badCmd := by
  simp only [decodeS, extract_eq_zero]

theorem decodeT_eq (w : Word) : decodeT w =
    if fieldOf w 16 12 = 0 ∧ fieldOf w 8 8 ≠ 0 then .instr (.tload (lenField w) (symField w)) else .badCmd := by
  simp only [decodeT, extract_eq_zero, lenField, ne_eq]

theorem decodeD_eq (w : Word) :
    decodeD w = if fieldOf w 20 8 = 0 then .instr (.dec (nm1Field w) (bitsField w)) else .badCmd := by
  simp only [decodeD, extract_eq_zero]

@[simp] theorem symField_toNat (w : Word) : (symField w).toNat = fieldOf w 0 8 := extract_toNat ..

@[simp] theorem lenField_toNat (w : Word) : (lenField w).toNat = fieldOf w 8 8 := extract_toNat ..

@[simp] theorem nm1Field_toNat (w : Word) : (nm1Field w).toNat = fieldOf w 16 4 := extract_toNat ..

@[simp] theorem bitsField_toNat (w : Word) : (bitsField w).toNat = fieldOf w 0 16 := extract_toNat ..

end Sys2Proof
end

