-- ==== Sys2Proof/Laws/Exec.lean ====
section
/-! SUPPORT. Each command's effect, once: what `exec` and `acceptWord` do with a word, whichever command it is. -/

namespace Sys2Proof.Machine

/-- The effect a command has when it is legal (SRST has none of this form: it does not go through `command`). -/
def effectOf : Instr → State → State
  | .nop => fun s => s
  | .srst => fun s => s
  | .count sym => countSymbol sym
  | .build => buildEffect
  | .gen => genEffect
  | .enc sym => encodeSymbol sym
  | .tload len sym => tloadHeader len sym
  | .tfin => tfinEffect
  | .dec nm1 bits => decodeBits (decBits nm1 bits) 0
  | .dfin => dfinEffect

/-- Every command but SRST is the shared step around its effect (R110, R111). -/
theorem exec_eq {i : Instr} (h : i ≠ .srst) (s : State) : exec i s = command i (effectOf i) s := by
  cases i
  case srst => exact absurd rfl h
  all_goals rfl

/-- SRST outside TLOAD data (R116). -/
theorem exec_srst {s : State} (h : s.pend = false) : exec .srst s = .next { softReset s with busy := false } := by
  simp [exec, execSrst, h]

/-- A command the table of R113 forbids raises BAD_SEQ. -/
theorem exec_illegal {i : Instr} {s : State} (hs : s.Ready) (he : s.phase ≠ .error) (hw : i.wellFormed = true)
    (hl : legal i s.phase = false) : exec i s = .next (s.raised .badSeq (encode i)) := by
  have hi : i ≠ .srst := by rintro rfl; cases h : s.phase <;> simp_all [legal]
  rw [exec_eq hi, command_illegal _ hs.pend he hw hl, finish_raise _ _ hs.stalled]

/-- A legal command has its effect, and stays BUSY while an item of it waits (R110, R57). -/
theorem exec_run {i : Instr} {s : State} (hs : s.Ready) (hi : i ≠ .srst) (hw : i.wellFormed = true)
    (hl : legal i s.phase = true) (ho : (effectOf i s).ovr = false) :
    exec i s = .next { effectOf i s with busy := (effectOf i s).stalled } := by
  rw [exec_eq hi, command_runs _ hs.pend hw hl, finish_of_ovr_false ho]

/-- A legal command whose effect leaves nothing waiting ends with BUSY = 0. -/
theorem exec_quiet {i : Instr} {s u : State} (hs : s.Ready) (hi : i ≠ .srst) (hw : i.wellFormed = true)
    (hl : legal i s.phase = true) (e : effectOf i s = u) (ho : u.ovr = false) (hst : u.stalled = false) :
    exec i s = .next { u with busy := false } := by
  rw [exec_run hs hi hw hl (by rw [e]; exact ho), e, hst]

/-- In ERROR every command but SRST is discarded (R112). -/
theorem exec_error {i : Instr} {s : State} (hi : i ≠ .srst) (hs : s.Ready) (he : s.phase = .error) :
    exec i s = .next { s with busy := false } := by
  rw [exec_eq hi, command_discarded _ hs.pend he, finish_quiet hs.ovr hs.stalled]

/-! ## Which word is what (R86) -/

/-- Without PEND no word is data. -/
theorem decodeCommand_ne_data (w v : Word) : decodeCommand w ≠ .data v := by
  rw [decodeCommand_eq]
  split
  all_goals first | (simp only [decodeZ_eq, decodeS_eq, decodeT_eq, decodeD_eq]; split <;> simp) | simp

/-- The one word that decodes to SRST (R82). -/
theorem decodeCommand_srst {w : Word} (h : decodeCommand w = .instr .srst) : w = 0x10000000#32 := by
  rw [decodeCommand_eq] at h
  split at h
  all_goals try simp only [decodeZ_eq, decodeS_eq, decodeT_eq, decodeD_eq] at h
  all_goals first | (split at h <;> simp at h; done) | (simp at h; done) | skip
  rename_i ho
  have hf : fieldOf w 0 28 = 0 := by by_contra hf; simp [hf] at h
  refine BitVec.eq_of_toNat_eq ?_
  have := w.isLt
  simp only [opcOf, fieldOf] at ho hf
  simp only [BitVec.toNat_ofNat]
  omega

/-- A reserved field that is not 0, or LEN = 0, makes a word BAD_CMD (R86). -/
theorem decodeCommand_badCmd {w : Word} (ho : opcOf w ≤ 9) (h : ¬ reservedZero w ∨ (opcOf w = 6 ∧ fieldOf w 8 8 = 0)) :
    decodeCommand w = .badCmd := by
  rw [decodeCommand_eq]
  generalize he : opcOf w = o at ho h
  unfold reservedZero at h
  rw [he] at h
  interval_cases o <;> simp [decodeZ_eq, decodeS_eq, decodeT_eq, decodeD_eq] at h ⊢ <;> try exact h
  intro h2
  rcases h with h | h
  · exact absurd h2 h
  · exact h

theorem acceptWord_badCmd_ready {w : Word} {s : State} (hs : s.Ready) (he : s.phase ≠ .error) (ho : opcOf w ≤ 9)
    (h : ¬ reservedZero w ∨ (opcOf w = 6 ∧ fieldOf w 8 8 = 0)) : acceptWord w s = .next (s.raised .badCmd w) := by
  rw [acceptWord_badCmd hs.pend (decodeCommand_badCmd ho h), rejectWord_ready hs.stalled he]

/-! ## The change a word makes before its command ends -/

/-- What an accepted word does before `finish`: TLOAD data, a discarded word, an error on acceptance, or a command's effect. -/
def acceptBody (w : Word) (s : State) : State :=
  if s.pend then tloadData w s
  else if s.phase = .error then s
  else
    match decodeCommand w with
    | .instr i =>
      if i.wellFormed then if legal i s.phase then effectOf i s else raise .badSeq (encode i) s
      else raise .badCmd (encode i) s
    | .badOpc => raise .badOpc w s
    | .badCmd => raise .badCmd w s
    | .data _ => s

/-- While PEND = 1, SRST's word is data too. -/
theorem exec_pend {i : Instr} {s : State} (h : s.pend = true) : exec i s = .next (finish (tloadData (encode i) s)) := by
  by_cases hi : i = .srst
  · subst hi; simp [exec, execSrst, h]
  · rw [exec_eq hi, command_data _ h]

/-- Everything an accepted word does: SRST resets the session, every other word makes its change and ends (R110). -/
theorem acceptWord_cases (w : Word) (s : State) :
    (w = 0x10000000#32 ∧ s.pend = false ∧ acceptWord w s = .next { softReset s with busy := false }) ∨
    ((w ≠ 0x10000000#32 ∨ s.pend = true) ∧ acceptWord w s = .next (finish (acceptBody w s))) := by
  unfold acceptBody
  by_cases hp : s.pend = true
  · exact .inr ⟨.inr hp, by rw [acceptWord_data w hp, if_pos hp]⟩
  have hp' : s.pend = false := by simpa using hp
  by_cases hw : w = 0x10000000#32
  · exact .inl ⟨hw, hp', by rw [acceptWord_instr (i := .srst) hp' (by rw [hw]; rfl), exec_srst hp']⟩
  refine .inr ⟨.inl hw, ?_⟩
  rw [if_neg hp]
  rcases hd : decodeCommand w with i | v | _ | _
  · have hi : i ≠ .srst := by rintro rfl; exact hw (decodeCommand_srst hd)
    rw [acceptWord_instr hp' hd, exec_eq hi]
    rcases command_cases i (effectOf i) s with ⟨h, _⟩ | ⟨_, h, e⟩ | ⟨_, h1, h, e⟩ | ⟨_, h1, h, h2, e⟩ | ⟨_, h1, h, h2, e⟩
    · exact absurd h hp
    all_goals simp [*]
  · exact absurd hd (decodeCommand_ne_data w v)
  · rw [acceptWord_badOpc hp' hd, rejectWord]
  · rw [acceptWord_badCmd hp' hd, rejectWord]

end Sys2Proof.Machine
end

