-- ==== Sys2Proof/Laws/StreamDecoder.lean ====
section
/-! SUPPORT. DEC (R210 to R213) as a walk, and the walk along codes. -/

namespace Sys2Proof.Machine

/-- The state after a walk has emitted `out` and left the cursor at `cur` (R211). -/
def afterWalk (s : State) (out : List Byte) (cur : Bits) : State :=
  { s with
    symOut := { s.symOut with queued := s.symOut.queued ++ out }
    symcnt := BitVec.ofNat 32 (s.symcnt.toNat + out.length)
    cur := cur }

/-- The walk over two bit sequences is the walk over the second from where the first ends (R211). -/
theorem walk_append (root : HTree) (cur : Bits) (a b : Bits) :
    walk root cur (a ++ b) = (walk root cur a).bind fun r => (walk root r.2 b).map fun r' => (r.1 ++ r'.1, r'.2) := by
  induction a generalizing cur with
  | nil => simp [walk]
  | cons x a ih =>
    simp only [List.cons_append, walk]
    split
    · rfl
    · rw [ih]; cases walk root [] a <;> simp
      cases walk root _ b <;> simp
    · exact ih _

/-- The effect of DEC when no bit selects an `Empty` child (R211). -/
theorem decodeBits_walk {bs : Bits} {j : Nat} {s : State} {out : List Byte} {cur : Bits}
    (h : walk s.root s.cur bs = some (out, cur)) : decodeBits bs j s = afterWalk s out cur := by
  unfold afterWalk
  induction bs generalizing j s out with
  | nil =>
    simp only [walk, Option.some.injEq, Prod.mk.injEq] at h
    obtain ⟨rfl, rfl⟩ := h; simp [decodeBits]
  | cons b bs ih =>
    simp only [walk] at h
    simp only [decodeBits]
    rw [nodeAt_append_bit] at h
    split <;> rename_i hc <;> rw [hc] at h
    · cases h
    · simp only [Option.map_eq_some_iff] at h
      obtain ⟨⟨o, c⟩, h, e⟩ := h
      cases e
      rw [ih (out := o) (by exact h)]
      simp only [OutStream.emit]
      congr 1
      · apply BitVec.eq_of_toNat_eq; simp; omega
      · simp
    · exact ih h

/-- The effect of DEC when a bit does: the bits before it have theirs, and BAD_PATH (R212). -/
theorem decodeBits_stuck {bs : Bits} {j : Nat} {s : State} (h : walk s.root s.cur bs = none) :
    ∃ k out cur, ∃ hk : k < bs.length, walk s.root s.cur (bs.take k) = some (out, cur) ∧
      s.root.nodeAt (cur ++ [bs[k]]) = .empty ∧
      decodeBits bs j s = raise .badPath (badPathInfo bs[k] (j + k) cur.length) (afterWalk s out cur) := by
  unfold afterWalk
  induction bs generalizing j s with
  | nil => simp [walk] at h
  | cons b bs ih =>
    simp only [walk] at h
    simp only [decodeBits]
    rw [nodeAt_append_bit] at h
    split
    all_goals (rename_i x hc; rw [hc] at h)
    · exact ⟨0, [], s.cur, by simp, rfl, by simpa [nodeAt_append_bit] using hc, by simp [raise]⟩
    · simp only [Option.map_eq_none_iff] at h
      obtain ⟨k, out, cur, hk, h1, h2, h3⟩ := ih (j := j + 1)
        (s := { s with symOut := s.symOut.emit [x], symcnt := s.symcnt + 1#32, cur := [] }) h
      refine ⟨k + 1, x :: out, cur, by simpa using hk, ?_, by simpa using h2, ?_⟩
      · simp only [List.take_succ_cons, walk, nodeAt_append_bit, hc]; simp only at h1; rw [h1]; rfl
      · rw [h3]; simp only [OutStream.emit, List.getElem_cons_succ, show j + 1 + k = j + (k + 1) by omega]
        congr 2
        · apply BitVec.eq_of_toNat_eq; simp; omega
        · simp
    · obtain ⟨k, out, cur, hk, h1, h2, h3⟩ := ih (j := j + 1) (s := { s with cur := s.cur ++ [b] }) h
      refine ⟨k + 1, out, cur, by simpa using hk, ?_, by simpa using h2, ?_⟩
      · simp only [List.take_succ_cons, walk, nodeAt_append_bit, hc]; exact h1
      · rw [h3]; simp only [List.getElem_cons_succ, show j + 1 + k = j + (k + 1) by omega]

/-- Everything the effect of DEC can do. -/
theorem decodeBits_cases (bs : Bits) (j : Nat) (s : State) : ∃ out cur,
    (decodeBits bs j s = afterWalk s out cur ∧ walk s.root s.cur bs = some (out, cur)) ∨
    ∃ k, ∃ hk : k < bs.length,
      decodeBits bs j s = raise .badPath (badPathInfo bs[k] (j + k) cur.length) (afterWalk s out cur) := by
  cases h : walk s.root s.cur bs with
  | none => obtain ⟨k, out, cur, hk, _, _, e⟩ := decodeBits_stuck (j := j) h; exact ⟨out, cur, .inr ⟨k, hk, e⟩⟩
  | some r => exact ⟨r.1, r.2, .inl ⟨decodeBits_walk h, rfl⟩⟩

/-- The walk along the code of a leaf emits its symbol and goes on from the root (R211). -/
theorem walk_code {t : HTree} : ∀ (q p : Bits) (x : Byte) (rest : Bits), t.nodeAt (p ++ q) = .leaf x → q ≠ [] →
    walk t p (q ++ rest) = (walk t [] rest).map fun r => (x :: r.1, r.2) := by
  intro q
  induction q with
  | nil => intro p x rest _ h; exact absurd rfl h
  | cons b q ih =>
    intro p x rest h _
    simp only [List.cons_append, walk]
    by_cases hq : q = []
    · subst hq; rw [h]; rfl
    · have : ∃ l r, t.nodeAt (p ++ [b]) = .internal l r := nodeAt_above (q := q) (by simp [h]) hq
      obtain ⟨l, r, hi⟩ := this
      rw [hi]; simp only
      exact ih (p ++ [b]) x rest (by simpa using h) hq

/-- The walk along the codes of leaves emits their symbols and ends at the root. -/
theorem walk_codes {t : HTree} (h0 : t.InternalAt []) {code : Byte → Bits} (bs : List Byte)
    (h : ∀ b ∈ bs, t.nodeAt (code b) = .leaf b) : walk t [] (bs.flatMap code) = some (bs, []) := by
  induction bs with
  | nil => rfl
  | cons b bs ih =>
    have hb := h b (by simp)
    have hne : code b ≠ [] := by intro e; rw [e] at hb; obtain ⟨l, r, hi⟩ := h0; rw [hi] at hb; cases hb
    rw [List.flatMap_cons, walk_code (code b) [] b _ (by simpa using hb) hne, ih fun x hx => h x (by simp [hx])]
    rfl

end Sys2Proof.Machine
end

