-- ==== Sys2Proof/Laws/Path.lean ====
section
/-! SUPPORT. Words accepted one after another make a path of steps (R110, R270, R276). -/

namespace Sys2Proof.Machine

/-! ## Accepting a word does not read BUSY, and keeps the depths -/

theorem finish_of_busy (s : State) (b : Bool) : finish { s with busy := b } = finish s := rfl

theorem tloadData_busy (w : Word) (s : State) (b : Bool) : tloadData w { s with busy := b } = { tloadData w s with busy := b } := by
  unfold tloadData applyEntry
  simp only
  split
  · split
    · rfl
    · split
      · rfl
      · split <;> rfl
  · rfl

theorem decodeBits_busy (bs : Bits) (j : Nat) (s : State) (b : Bool) :
    decodeBits bs j { s with busy := b } = { decodeBits bs j s with busy := b } := by
  induction bs generalizing j s with
  | nil => rfl
  | cons x bs ih =>
    simp only [decodeBits]
    split
    · rfl
    · exact ih (j + 1) { s with symOut := s.symOut.emit [_], symcnt := s.symcnt + 1#32, cur := [] }
    · exact ih (j + 1) { s with cur := s.cur ++ [x] }

theorem effectOf_busy (i : Instr) (s : State) (b : Bool) : effectOf i { s with busy := b } = { effectOf i s with busy := b } := by
  cases i with
  | nop => rfl
  | srst => rfl
  | count sym => simp only [effectOf, countSymbol]; split <;> rfl
  | build => rfl
  | gen => rfl
  | enc sym => simp only [effectOf, encodeSymbol]; split <;> rfl
  | tload len sym => simp only [effectOf, tloadHeader, startDecodeTree]; split <;> rfl
  | tfin => simp only [effectOf, tfinEffect, startDecodeTree]; split <;> rfl
  | dec nm1 bits => exact decodeBits_busy ..
  | dfin => simp only [effectOf, dfinEffect]; split <;> rfl

theorem acceptBody_busy (w : Word) (s : State) (b : Bool) :
    acceptBody w { s with busy := b } = { acceptBody w s with busy := b } := by
  unfold acceptBody
  simp only
  split
  · exact tloadData_busy ..
  · split
    · rfl
    · split
      · split
        · split
          · exact effectOf_busy ..
          · rfl
        · rfl
      all_goals rfl

/-- What an accepted word does, does not depend on BUSY. -/
theorem acceptWord_busy (w : Word) (s : State) (b : Bool) : acceptWord w { s with busy := b } = acceptWord w s := by
  rcases acceptWord_cases w s with ⟨rfl, hp, e⟩ | ⟨h, e⟩
  · rcases acceptWord_cases 0x10000000#32 { s with busy := b } with ⟨_, _, e'⟩ | ⟨h' | h', _⟩
    · rw [e, e']; rfl
    · exact absurd rfl h'
    · rw [show s.pend = true from h'] at hp; cases hp
  · rcases acceptWord_cases w { s with busy := b } with ⟨rfl, hp, _⟩ | ⟨_, e'⟩
    · rcases h with h | h
      · exact absurd rfl h
      · rw [show s.pend = false from hp] at h; cases h
    · rw [e, e', acceptBody_busy, finish_of_busy]

theorem effectOf_depths (i : Instr) (s : State) : (effectOf i s).depths = s.depths := by
  cases i with
  | nop => rfl
  | srst => rfl
  | count sym => simp only [effectOf, countSymbol]; split <;> rfl
  | build => rfl
  | gen => rfl
  | enc sym => simp only [effectOf, encodeSymbol]; split <;> rfl
  | tload len sym => simp only [effectOf, tloadHeader, startDecodeTree]; split <;> rfl
  | tfin => simp only [effectOf, tfinEffect, startDecodeTree]; split <;> rfl
  | dec nm1 bits =>
    obtain ⟨out, cur, ⟨e, _⟩ | ⟨k, _, e⟩⟩ := decodeBits_cases (decBits nm1 bits) 0 s <;> rw [effectOf, e] <;> rfl
  | dfin => simp only [effectOf, dfinEffect]; split <;> rfl

theorem acceptBody_depths (w : Word) (s : State) : (acceptBody w s).depths = s.depths := by
  unfold acceptBody
  split
  · exact (tloadData_frame w s).2.2.2.2.2.2.2.1
  · split
    · rfl
    · split
      · split
        · split
          · exact effectOf_depths ..
          · rfl
        · rfl
      all_goals rfl

/-- An accepted word keeps the depths (R7). -/
theorem acceptWord_depths {w : Word} {s t : State} (h : acceptWord w s = .next t) : t.depths = s.depths := by
  rcases acceptWord_cases w s with ⟨_, _, e⟩ | ⟨_, e⟩ <;> rw [e] at h <;> cases h
  · rfl
  · rw [finish_depths, acceptBody_depths]

/-- With unbounded queues no command waits (R57). -/
theorem not_stalled_of_unbounded {s : State} (h : s.depths = { bitq := .unbounded, symq := .unbounded, tblq := .unbounded }) :
    s.stalled = false := by unfold State.stalled; rw [h]; rfl

/-- With unbounded queues a word's command has ended when its step has. -/
theorem acceptWord_ended {w : Word} {s t : State} (hd : s.depths = { bitq := .unbounded, symq := .unbounded, tblq := .unbounded })
    (h : acceptWord w s = .next t) : t.busy = false := by
  rcases acceptWord_cases w s with ⟨_, _, e⟩ | ⟨_, e⟩ <;> rw [e] at h <;> cases h
  · rfl
  · have hs : (acceptBody w s).stalled = false := not_stalled_of_unbounded (by rw [acceptBody_depths]; exact hd)
    rw [finish_busy, hs]

/-- Only SRST leaves ERROR (R112, R238). -/
theorem acceptWord_error {w : Word} {s t : State} (hp : s.phase = .error) (hw : w ≠ 0x10000000#32 ∨ s.pend = true)
    (h : acceptWord w s = .next t) : t.phase = .error := by
  have hd : (tloadData w s).phase = .error := by
    unfold tloadData
    simp only
    split
    · rcases applyEntry_cases s.tlsym ((s.tlbits ++ wordBits w).take s.tllen.toNat)
        { s with tlbits := s.tlbits ++ wordBits w, pendw := s.pendw - 1#4, pend := false } with ⟨e, _, h⟩ | ⟨_, d, _, _, h⟩
      all_goals rw [h]
      · rfl
      · exact hp
    · exact hp
  have hb : (acceptBody w s).phase = .error := by
    unfold acceptBody
    split
    · exact hd
    · exact hp
  rcases acceptWord_cases w s with ⟨rfl, h0, _⟩ | ⟨_, e⟩
  · rcases hw with hw | hw
    · exact absurd rfl hw
    · rw [hw] at h0; cases h0
  · rw [e] at h
    cases h
    rcases finish_cases (acceptBody w s) with ⟨_, e⟩ | ⟨_, _, _, e⟩ | ⟨_, _, e⟩ <;> rw [e]
    · exact hb
    · rfl
    · exact hb

theorem acceptWords_error (vs : List Word) : ∀ {s t : State}, s.phase = .error → (∀ w ∈ vs, w ≠ 0x10000000#32) →
    acceptWords vs s = .next t → t.phase = .error := by
  induction vs with
  | nil => intro s t hp _ h; cases h; exact hp
  | cons w vs ih =>
    intro s t hp hw h
    obtain ⟨u, hu⟩ := acceptWord_next w s
    rw [acceptWords_cons vs hu] at h
    exact ih (acceptWord_error hp (.inl (hw w (by simp))) hu) (fun v hv => hw v (by simp [hv])) h

/-- The word of no other command is SRST's. -/
theorem encode_ne_srst {i : Instr} (h : i ≠ .srst) : encode i ≠ 0x10000000#32 := by
  intro e
  have := congrArg opcField e
  rw [opcField_encode] at this
  cases i
  case srst => exact h rfl
  all_goals exact absurd (show opcode _ = 1#4 from this) (by simp [opcode])

/-- A word is not the command SRST when it is another word, or data (R191). -/
theorem decode_ne_srst {w : Word} {b : Bool} (h : w ≠ 0x10000000#32 ∨ b = true) : decode w b ≠ .instr .srst := by
  unfold decode
  rcases h with h | rfl
  · cases b
    · exact fun e => h (decodeCommand_srst e)
    · exact fun e => by cases e
  · exact fun e => by cases e

/-! ## Paths -/

/-- A path from a state without error stays without error (R246). -/
theorem SessionPath.noError {s t : State} {ws : List Word} (h : SessionPath s ws t) (h0 : s.NoError) : t.NoError := by
  cases h with
  | start => exact h0
  | step _ _ _ _ _ he => exact he

/-- A word accepted with BUSY = 0 goes on with a path, unless it is SRST or raises an error: the host writes it, and it is the step's
word. -/
theorem SessionPath.accept {s t u : State} {ws : List Word} {w : Word} (h : SessionPath s ws t) (hb : t.busy = false)
    (hw : w ≠ 0x10000000#32 ∨ t.pend = true) (ha : acceptWord w t = .next u) (he : u.NoError) : SessionPath s (ws ++ [w]) u := by
  have key : Machine.step { t with inbox := .command w [] :: t.inbox } = .next u := by
    rw [← ha, ← acceptWord_busy w t true]
    simp only [Machine.step, hostEvent, hostCommand, hb, Bool.false_eq_true, if_false, busyWindow, acceptCmd, List.map_nil, List.nil_append]
    split <;> rfl
  have ew : acceptedWord { t with inbox := .command w [] :: t.inbox } = some w := by simp [acceptedWord, hb]
  have := SessionPath.step (.command w [] :: t.inbox) h (fun e rest he => by cases he; rfl)
    (fun v hv => by rw [ew] at hv; cases hv; exact decode_ne_srst hw) key he
  simpa [ew] using this

/-- So do the words of a list, on unbounded queues, when none is SRST's and no error is left at the end. -/
theorem SessionPath.acceptAll {s u : State} (vs : List Word) : ∀ {t : State} {ws : List Word}, SessionPath s ws t → t.busy = false →
    t.depths = { bitq := .unbounded, symq := .unbounded, tblq := .unbounded } → (∀ w ∈ vs, w ≠ 0x10000000#32) →
    acceptWords vs t = .next u → u.NoError → SessionPath s (ws ++ vs) u ∧ u.busy = false := by
  induction vs with
  | nil => intro t ws h hb _ _ ha _; cases ha; simpa using ⟨h, hb⟩
  | cons w vs ih =>
    intro t ws h hb hd hw ha he
    obtain ⟨v, hv⟩ := acceptWord_next w t
    rw [acceptWords_cons vs hv] at ha
    have hr : ∀ x ∈ vs, x ≠ 0x10000000#32 := fun x hx => hw x (by simp [hx])
    have hn : v.NoError := fun e => he (acceptWords_error vs e hr ha)
    simpa using ih (h.accept hb (.inl (hw w (by simp))) hv hn) (acceptWord_ended hd hv) ((acceptWord_depths hv).trans hd) hr ha he

/-- So do the data words a TLOAD owes, whatever they are: SRST's word among them is data (R191). -/
theorem SessionPath.acceptData {s u : State} (ds : List Word) : ∀ {t : State} {ws : List Word}, SessionPath s ws t → t.busy = false →
    t.depths = { bitq := .unbounded, symq := .unbounded, tblq := .unbounded } → t.NoError → t.ovr = false →
    (ds ≠ [] → t.pend = true) → t.pendw.toNat = ds.length → acceptWords ds t = .next u → u.NoError →
    SessionPath s (ws ++ ds) u ∧ u.busy = false := by
  induction ds with
  | nil => intro t ws h hb _ _ _ _ _ ha _; cases ha; simpa using ⟨h, hb⟩
  | cons w ds ih =>
    intro t ws h hb hd hn ho hp hl ha he
    have hp' := hp (by simp)
    obtain ⟨v, hv⟩ := acceptWord_next w t
    rw [acceptWords_cons ds hv] at ha
    by_cases h0 : ds = []
    · subst h0; cases ha
      exact ⟨h.accept hb (.inr hp') hv he, acceptWord_ended hd hv⟩
    · have hpos : 0 < ds.length := List.length_pos_iff.mpr h0
      have h1 : (t.pendw - 1#4).toNat = ds.length := by have := t.pendw.isLt; simp at hl ⊢; omega
      have h2 : t.pendw - 1#4 ≠ 0#4 := fun e => by rw [e] at h1; simp at h1; exact h0 (by simpa using h1.symm)
      have e : v = { t with tlbits := t.tlbits ++ wordBits w, pendw := t.pendw - 1#4, busy := false } := by
        rw [acceptWord_data w hp', tloadData] at hv
        simp only [h2, if_false] at hv
        rw [finish_of_ovr_false (by exact ho), not_stalled_of_unbounded (by exact hd)] at hv
        exact (Host.Outcome.next.inj hv).symm
      have hvn : v.NoError := by rw [e]; exact hn
      simpa using ih (h.accept hb (.inr hp') hv hvn) (acceptWord_ended hd hv) ((acceptWord_depths hv).trans hd) hvn
        (by rw [e]; exact ho) (fun _ => by rw [e]; exact hp') (by rw [e]; exact h1) ha he

/-- So do the words of an entry of a symbol table, header and data (R164, R271), given that the header's word decodes to the TLOAD it
encodes. -/
theorem SessionPath.acceptEntry {s t u : State} {ws : List Word} {sym : Byte} {c : Bits} (h : SessionPath s ws t) (hr : t.Ready)
    (hb : t.busy = false) (hd : t.depths = { bitq := .unbounded, symq := .unbounded, tblq := .unbounded })
    (hp : t.phase = .idle ∨ t.phase = .loading) (h1 : 1 ≤ c.length) (h2 : c.length ≤ Config.lMax)
    (hi : decodeCommand (encode (.tload (BitVec.ofNat 8 c.length) sym)) = .instr (.tload (BitVec.ofNat 8 c.length) sym))
    (ha : acceptWords (entryWords sym c) t = .next u) (he : u.NoError) : SessionPath s (ws ++ entryWords sym c) u ∧ u.busy = false := by
  have h2 : c.length ≤ 255 := h2
  have hl : (BitVec.ofNat 8 c.length).toNat = c.length := by simp; omega
  have hl0 : BitVec.ofNat 8 c.length ≠ 0#8 := fun e => by rw [e] at hl; simp at hl; omega
  have hw : (Instr.tload (BitVec.ofNat 8 c.length) sym).wellFormed = true := by simpa [Instr.wellFormed] using hl0
  have hlg : legal (.tload (BitVec.ofNat 8 c.length) sym) t.phase = true := by rcases hp with h | h <;> simp [legal, h]
  have ho : (startDecodeTree t).ovr = false := by unfold startDecodeTree; split <;> exact hr.ovr
  have hst : (startDecodeTree t).stalled = false := by unfold startDecodeTree; split <;> exact hr.stalled
  have hx := (acceptWord_instr hr.pend hi).trans (exec_quiet hr (by simp) hw hlg rfl (by exact ho) (by exact hst))
  unfold entryWords at ha ⊢
  rw [acceptWords_cons _ hx] at ha
  have := SessionPath.acceptData (packCode c) (h.accept hb (.inl (encode_ne_srst (by simp))) hx (by simp [State.NoError, effectOf, tloadHeader]))
    rfl ((acceptWord_depths hx).trans hd) (by simp [State.NoError, effectOf, tloadHeader]) (by exact ho) (fun _ => rfl)
    (by show (pendWords (BitVec.ofNat 8 c.length)).toNat = _
        rw [pendWords_toNat, hl]; simp) ha he
  simpa using this

end Sys2Proof.Machine
end

