-- ==== Sys2Proof/Laws/PerInstr.lean ====
section
/-! SUPPORT. What holds of the word of every command, one lemma for each constructor: the opcode is in [31:28], the reserved fields of
the format are 0, and a well-formed command's LEN is not. -/

namespace Sys2Proof.Laws.WordFields

open Sys2Proof Sys2Proof.Machine

/-- The fields of a command's word that carry no operand (R80 to R83, R86). -/
def Statement (i : Instr) : Prop :=
  opcField (encode i) = opcode i ∧ reservedZero (encode i) ∧
    (i.wellFormed = true → opcOf (encode i) = 6 → fieldOf (encode i) 8 8 ≠ 0)

theorem nop : Statement .nop := by
  refine ⟨opcField_encode _, ?_, ?_⟩
  all_goals simp [reservedZero, opcOf, fieldOf, encode_toNat]

theorem srst : Statement .srst := by
  refine ⟨opcField_encode _, ?_, ?_⟩
  all_goals simp [reservedZero, opcOf, fieldOf, encode_toNat]

theorem count (sym : Byte) : Statement (.count sym) := by
  refine ⟨opcField_encode _, ?_, ?_⟩
  all_goals simp only [reservedZero, opcOf, fieldOf, encode_toNat]
  · rw [if_pos (.inl (by omega))]; omega
  · omega

theorem build : Statement .build := by
  refine ⟨opcField_encode _, ?_, ?_⟩
  all_goals simp [reservedZero, opcOf, fieldOf, encode_toNat]

theorem gen : Statement .gen := by
  refine ⟨opcField_encode _, ?_, ?_⟩
  all_goals simp [reservedZero, opcOf, fieldOf, encode_toNat]

theorem enc (sym : Byte) : Statement (.enc sym) := by
  refine ⟨opcField_encode _, ?_, ?_⟩
  all_goals simp only [reservedZero, opcOf, fieldOf, encode_toNat]
  · rw [if_pos (.inr (by omega))]; omega
  · omega

theorem tload (len sym : Byte) : Statement (.tload len sym) := by
  refine ⟨opcField_encode _, ?_, ?_⟩
  all_goals simp only [reservedZero, opcOf, fieldOf, encode_toNat]
  · rw [if_neg (by omega), if_pos (by omega)]; omega
  · intro h _ e
    have h0 : len ≠ 0#8 := by simpa [Instr.wellFormed] using h
    exact h0 (BitVec.eq_of_toNat_eq (by simp; omega))

theorem tfin : Statement .tfin := by
  refine ⟨opcField_encode _, ?_, ?_⟩
  all_goals simp [reservedZero, opcOf, fieldOf, encode_toNat]

theorem dec (nm1 : BitVec 4) (bits : BitVec 16) : Statement (.dec nm1 bits) := by
  refine ⟨opcField_encode _, ?_, ?_⟩
  all_goals simp only [reservedZero, opcOf, fieldOf, encode_toNat]
  · rw [if_neg (by omega), if_neg (by omega), if_pos (by omega)]; omega
  · omega

theorem dfin : Statement .dfin := by
  refine ⟨opcField_encode _, ?_, ?_⟩
  all_goals simp [reservedZero, opcOf, fieldOf, encode_toNat]

end Sys2Proof.Laws.WordFields
end

