-- ==== Sys2Proof/Laws/Session.lean ====
section
/-! SUPPORT. The pieces of the session invariant (R46) and what each command does to them. -/

namespace Sys2Proof.Machine

/-! ## Sums and counts over the symbols (R30, R46) -/

/-- Changing one count changes TOTAL by the difference. -/
theorem countTotal_set (f : Table Word) (x : Byte) (v : Word) :
    countTotal (Table.set f x v) + (Table.get f x).toNat = countTotal f + v.toNat := by
  have := sum_update symbols_nodup (mem_symbols x) (fun s => (Table.get (Table.set f x v) s).toNat) (fun s =>
      (Table.get f s).toNat) (fun r hr => by simp only [Table.get_set_ne f v (Ne.symm hr)])
  simpa [countTotal] using this

theorem filter_symbols_length (p : Byte → Bool) : (symbols.filter p).length = (symbols.map fun s => (p s).toNat).sum := by
  generalize symbols = l
  induction l with
  | nil => rfl
  | cons a l ih => cases h : p a <;> simp [h, ih]; omega

/-- Giving a symbol an entry that is not the neutral one adds it to those that have one. -/
theorem counted_set {α} [DecidableEq α] (f : Table α) (z : α) (x : Byte) (v : α) (hv : v ≠ z) :
    (symbols.filter fun s => Table.get (Table.set f x v) s ≠ z).length =
    (symbols.filter fun s => Table.get f s ≠ z).length + if Table.get f x = z then 1 else 0 := by
  rw [filter_symbols_length, filter_symbols_length]
  have := sum_update symbols_nodup (mem_symbols x) (fun s => (decide (Table.get (Table.set f x v) s ≠ z)).toNat)
      (fun s => (decide (Table.get f s ≠ z)).toNat) (fun r hr => by simp only [Table.get_set_ne f v (Ne.symm hr)])
  simp only [Table.get_set_self] at this
  have e : (decide (v ≠ z)).toNat = 1 := by simp [hv]
  rw [e] at this
  split <;> rename_i hz <;> simp only [hz, ne_eq, not_true, not_false_iff, decide_true, decide_false, Bool.toNat_true,
      Bool.toNat_false] at this ⊢ <;> omega

theorem filter_symbols_le (p : Byte → Bool) : (symbols.filter p).length ≤ 256 := by
  have := List.length_filter_le p symbols
  rwa [symbols_length] at this

theorem countTotal_le_get (f : Table Word) (x : Byte) : (Table.get f x).toNat ≤ countTotal f := by
  unfold countTotal
  exact List.single_le_sum (by simp) _ (List.mem_map_of_mem (mem_symbols x))

theorem mem_counted {f : Table Word} {x} : x ∈ countedSymbols f ↔ Table.get f x ≠ 0#32 := by simp [countedSymbols]

theorem nodup_counted {f : Table Word} : (countedSymbols f).Nodup := symbols_nodup.filter _

theorem initialQueue_length (f : Table Word) : (initialQueue f).length = (countedSymbols f).length :=
  leafEntries_length ..

theorem initialQueue_nil {f : Table Word} : initialQueue f = [] ↔ countedSymbols f = [] := by
  rw [← List.length_eq_zero_iff, initialQueue_length, List.length_eq_zero_iff]

/-! ## The invariant of the session, piece by piece (R46) -/

/-- The invariant speaks of nine fields only. -/
theorem sessionInv_congr {s t : State} (h : SessionInv s) (h1 : t.phase = s.phase) (h2 : t.freq = s.freq)
    (h3 : t.total = s.total) (h4 : t.nsym = s.nsym) (h5 : t.nodes = s.nodes) (h6 : t.root = s.root)
    (h7 : t.clen = s.clen) (h8 : t.code = s.code) (h9 : t.cur = s.cur) : SessionInv t := by
  unfold SessionInv at *
  rw [h1]
  cases hp : s.phase <;> rw [hp] at h <;> simp only at h ⊢
  · exact ⟨⟨h2 ▸ h.1.1, h3 ▸ h.1.2, h4 ▸ h.1.3⟩, ⟨h7 ▸ h.2.1.1, h8 ▸ h.2.1.2⟩, ⟨h6 ▸ h.2.2.1, h5 ▸ h.2.2.2⟩⟩
  · exact ⟨⟨by rw [h2, h3]; exact h.1.1, by rw [h2, h4]; exact h.1.2⟩, ⟨h7 ▸ h.2.1.1, h8 ▸ h.2.1.2⟩, ⟨h6 ▸ h.2.2.1,
      h5 ▸ h.2.2.2⟩⟩
  · obtain ⟨a, b, c⟩ := h
    refine ⟨⟨by rw [h2, h3]; exact a.1, by rw [h2, h4]; exact a.2⟩, ⟨h7 ▸ b.1, h8 ▸ b.2⟩, ?_⟩
    exact ⟨by rw [h2, h6]; exact c.1, by rw [h2, h6]; exact c.2, by rw [h6]; exact c.3, by rw [h2, h6]; exact c.4,
        by rw [h5, h6]; exact c.5⟩
  · obtain ⟨a, c, d⟩ := h
    refine ⟨⟨by rw [h2, h3]; exact a.1, by rw [h2, h4]; exact a.2⟩, ?_, ?_⟩
    · exact ⟨by rw [h2, h6]; exact c.1, by rw [h2, h6]; exact c.2, by rw [h6]; exact c.3, by rw [h2, h6]; exact c.4,
        by rw [h5, h6]; exact c.5⟩
    · exact ⟨by rw [h6, h7, h8]; exact d.1, by rw [h2, h7, h8]; exact d.2⟩
  · exact ⟨h2 ▸ h.1, h3 ▸ h.2, h6 ▸ h.3, by rw [h5, h6]; exact h.4, by rw [h6]; exact h.5, by rw [h4, h7]; exact h.6,
      by rw [h7, h8]; exact h.7, by rw [h6, h7, h8]; exact h.8⟩
  · obtain ⟨h, hc⟩ := h
    exact ⟨⟨h2 ▸ h.1, h3 ▸ h.2, h6 ▸ h.3, by rw [h5, h6]; exact h.4, by rw [h6]; exact h.5, by rw [h4, h7]; exact h.6,
        by rw [h7, h8]; exact h.7, by rw [h6, h7, h8]; exact h.8⟩, by rw [h6, h9]; exact hc⟩
  · exact ⟨h2 ▸ h.1, h3 ▸ h.2, h6 ▸ h.3, by rw [h5, h6]; exact h.4, by rw [h6]; exact h.5, by rw [h4, h7]; exact h.6,
      by rw [h7, h8]; exact h.7, by rw [h6, h7, h8]; exact h.8⟩

theorem sessionInv_error {s : State} (h : s.phase = .error) : SessionInv s := by unfold SessionInv; rw [h]; trivial

/-- The end of a command keeps it. -/
theorem sessionInv_finish {s : State} (h : SessionInv s) : SessionInv (finish s) := by
  rcases finish_cases s with ⟨h1, e⟩ | ⟨h1, h2, h3, e⟩ | ⟨h1, h2, e⟩ <;> rw [e]
  · exact sessionInv_congr h rfl rfl rfl rfl rfl rfl rfl rfl rfl
  · exact sessionInv_error rfl
  · exact sessionInv_congr h rfl rfl rfl rfl rfl rfl rfl rfl rfl

theorem counts_empty {s : State} (h : EmptySession s) : Counts s := by
  refine ⟨?_, ?_⟩
  · rw [h.total, h.freq, countTotal]; generalize symbols = l; induction l <;> simp_all
  · rw [h.nsym, h.freq]; simp [countedSymbols]

/-- COUNT keeps TOTAL and NSYM right (R130, R131). -/
theorem counts_count {s : State} {sym} (h : Counts s) (ht : s.total ≠ 0xFFFFFFFF#32) : Counts { s with
      nsym := if Table.get s.freq sym = 0#32 then s.nsym + 1#9 else s.nsym
      freq := Table.set s.freq sym (Table.get s.freq sym + 1#32)
      total := s.total + 1#32
      phase := .counting } := by
  have h1 : s.total.toNat ≠ 0xFFFFFFFF := fun e => ht (BitVec.eq_of_toNat_eq e)
  have h2 := s.total.isLt
  have h3 := countTotal_le_get s.freq sym
  have h4 := h.total
  have hv : (Table.get s.freq sym + 1#32).toNat = (Table.get s.freq sym).toNat + 1 := by simp; omega
  refine ⟨?_, ?_⟩
  · have := countTotal_set s.freq sym (Table.get s.freq sym + 1#32)
    simp only [BitVec.toNat_add]
    simp; omega
  · have := counted_set s.freq 0#32 sym (Table.get s.freq sym + 1#32) (fun e => by rw [e] at hv; simp at hv)
    have hle := filter_symbols_le (fun r => decide (Table.get (Table.set s.freq sym
        (Table.get s.freq sym + 1#32)) r ≠ 0#32))
    have hn := h.nsym
    simp only [countedSymbols] at hn ⊢
    rw [this] at hle ⊢
    split
    · rename_i h0
      simp only [h0, if_true] at hle ⊢
      rw [BitVec.toNat_add, hn]; simp at hle ⊢; omega
    · rename_i h0
      simpa [h0] using hn

/-- BUILD makes an encode tree (R140, R144 to R146). -/
theorem encodeTree_build {s : State} : EncodeTree (buildEffect s) := by
  by_cases h : countedSymbols s.freq = []
  · have hb : buildTree s.freq = .empty := buildTree_empty (initialQueue_nil.mpr h)
    have hz : ∀ x, Table.get s.freq x = 0#32 := fun x => by
      by_contra hc; have := mem_counted.mpr hc; rw [h] at this; cases this
    refine ⟨fun _ => hb, fun h' => absurd h h', ?_, fun x => ?_, ?_⟩
    · show (buildTree s.freq).leaves.Nodup; rw [hb]; exact List.nodup_nil
    · show x ∈ (buildTree s.freq).leaves ↔ _; rw [hb]; simp [HTree.leaves, hz, buildEffect]
    · show (BitVec.ofNat 10 (2 * (initialQueue s.freq).length - 1)).toNat = (buildTree s.freq).size
      rw [hb, initialQueue_nil.mpr h]; rfl
  · obtain ⟨hf, hp⟩ := buildTree_spec (f := s.freq) (fun e => h (initialQueue_nil.mp e))
    refine ⟨fun h' => absurd h' h, fun _ => hf, hp.nodup_iff.mpr nodup_counted, fun x => ?_, ?_⟩
    · show x ∈ (buildTree s.freq).leaves ↔ _
      rw [hp.mem_iff]; exact mem_counted
    · show (BitVec.ofNat 10 (2 * (initialQueue s.freq).length - 1)).toNat = (buildTree s.freq).size
      have h1 := full_size hf
      have h2 := hp.length_eq
      have h3 := filter_symbols_le (fun r => decide (Table.get s.freq r ≠ 0#32))
      have h4 : 0 < (countedSymbols s.freq).length := List.length_pos_iff.mpr h
      rw [initialQueue_length]
      simp only [countedSymbols] at *
      rw [BitVec.toNat_ofNat]; omega

/-- GEN makes the codes of the tree (R160 to R163). -/
theorem encodeCodes_gen {s : State} (ht : EncodeTree s) (hn : NoCodes s) : EncodeCodes (genEffect s) := by
  have hnd : ((genEntries s.root).map Prod.fst).Nodup := by rw [genEntries_symbols]; exact ht.nodup
  refine ⟨fun x p h => ⟨recordCodes_mem hnd h, recordLens_mem hnd h⟩, fun x h => ?_⟩
  have hx : x ∉ (genEntries s.root).map Prod.fst := by rw [genEntries_symbols, ht.mem]; exact fun hc => hc h
  refine ⟨?_, ?_⟩
  · show Table.get (recordCodes _ _) x = _; rw [recordCodes_not_mem hx, hn.code]; simp
  · show Table.get (recordLens _ _) x = _; rw [recordLens_not_mem hx, hn.clen]; simp

/-- A decode session starts with an empty tree (R190, R200). -/
theorem decodeTree_fresh {s t : State} (h : EmptySession s) (hn : NoCodes s) (h1 : t.freq = s.freq)
    (h2 : t.total = s.total) (h3 : t.nsym = s.nsym) (h4 : t.clen = s.clen) (h5 : t.code = s.code)
    (h6 : t.root = .internal .empty .empty) (h7 : t.nodes = 1#10) : DecodeTree t := by
  refine ⟨h1.trans h.freq, h2.trans h.total, ⟨_, _, by rw [h6]; rfl⟩, by rw [h6, h7]; rfl, by rw [h6]; decide,
      by rw [h3, h4, h.nsym, hn.clen]; simp [codedSymbols], by rw [h4, h5, hn.clen, hn.code]; simp, ?_⟩
  intro x p
  rw [h6, h4, hn.clen]
  simp
  cases p with
  | nil => simp
  | cons b p => cases b <;> simp

/-- The leaves of an encode tree are the symbols counted (R145). -/
theorem leaves_counted {s : State} (ht : EncodeTree s) : s.root.leaves.Perm (countedSymbols s.freq) :=
  (List.perm_ext_iff_of_nodup ht.nodup nodup_counted).mpr fun x => by rw [ht.mem, mem_counted]

theorem countedSymbols_le (f : Table Word) : (countedSymbols f).length ≤ 256 := filter_symbols_le _

/-- In CODED a counted symbol has a code of the right length (R162, R166). -/
theorem coded_facts {s : State} (hc : Counts s) (ht : EncodeTree s) (hk : EncodeCodes s) (x : Byte)
    (hx : Table.get s.freq x ≠ 0#32) :
    ∃ p, (x, p) ∈ genEntries s.root ∧ Table.get s.code x = p ∧ (Table.get s.clen x).toNat = p.length ∧
      1 ≤ p.length ∧ p.length ≤ max 1 (s.nsym.toNat - 1) := by
  obtain ⟨p, hp⟩ := genEntries_of_leaves ((ht.mem x).mpr hx)
  obtain ⟨h1, h2⟩ := hk.coded x p hp
  have hne : countedSymbols s.freq ≠ [] := fun e => by have := mem_counted.mpr hx; rw [e] at this; cases this
  obtain ⟨h3, h4⟩ := genEntries_length (ht.full hne) hp
  have h5 := (leaves_counted ht).length_eq
  have h6 := countedSymbols_le s.freq
  have h7 := hc.nsym
  refine ⟨p, hp, h1, ?_, h3, by rw [h7, ← h5]; exact h4⟩
  rw [h2]; simp; omega

end Sys2Proof.Machine
end

