-- ==== Sys2Proof/Machine/Assembler.lean ====
section
/-! DEFINITION. The assembler and the pseudo-instructions (R89, R90): from a line of text to words. Log 11. -/

namespace Sys2Proof

/-! ## Lines and their words -/

/-- A line of assembly (R89, R90), its operands read: a symbol as the number it is written as, a bit string, a text as its bytes. -/
inductive AsmLine where
  | nop
  | srst
  | count (sym : Nat)
  | build
  | gen
  | enc (sym : Nat)
  | tload (sym : Nat) (code : Bits)
  | tfin
  | dec (c : Bits)
  | dfin
  /-- `.word w` -/
  | word (w : Word)
  | counts (syms : List Nat)
  | encs (syms : List Nat)
  | decs (c : Bits)
  /-- `ENCODE s1, ..., sm` -/
  | encodeAll (syms : List Nat)
  /-- `DECODE table, "bits"`, whatever words stand for the table (log 11) -/
  | decodeAll (table : List Word) (c : Bits)
  deriving DecidableEq, Repr

/-- A symbol operand: "a symbol above 255" is an assembly error (R89). -/
def asmSymbol (n : Nat) : Option Byte := if n ≤ 255 then some (BitVec.ofNat 8 n) else none

/-- A list of symbol operands; one out of range is an error of the line. -/
def asmSymbols : List Nat → Option (List Byte)
  | [] => some []
  | n :: ns =>
    match asmSymbol n, asmSymbols ns with
    | some s, some ss => some (s :: ss)
    | some _, none | none, some _ | none, none => none

/-- The words a line assembles to (R89, R90); none for an operand out of range, "an assembly error" that "produces no word". -/
def assemble : AsmLine → Option (List Word)
  | .nop => some [encode .nop]
  | .srst => some [encode .srst]
  | .count sym => (asmSymbol sym).map fun s => [encode (.count s)]
  | .build => some [encode .build]
  | .gen => some [encode .gen]
  | .enc sym => (asmSymbol sym).map fun s => [encode (.enc s)]
  | .tload sym code => if 1 ≤ code.length ∧ code.length ≤ 255 then (asmSymbol sym).map fun s => entryWords s code else none
  | .tfin => some [encode .tfin]
  | .dec c => if 1 ≤ c.length ∧ c.length ≤ 16 then some [decWord c] else none
  | .dfin => some [encode .dfin]
  | .word w => some [w]
  | .counts syms => (asmSymbols syms).map countsWords
  | .encs syms => (asmSymbols syms).map encsWords
  | .decs c => some (decsWords c)
  | .encodeAll syms => (asmSymbols syms).map encodeWords
  | .decodeAll table c => some (decodeWords table c)

/-! ## The text of a line -/

/-- A token of a line: a mnemonic or a number, a quoted character, a bit string or text in double quotes, a comma. -/
inductive AsmToken where
  | name (cs : List Char)
  | char (c : Char)
  | string (cs : List Char)
  | comma
  deriving DecidableEq, Repr

/-- Where the reader of a line stands. -/
inductive LexMode where
  | plain (acc : List Char)
  | inString (acc : List Char)
  | inChar (acc : List Char)
  deriving DecidableEq, Repr

/-- The name read so far, if any. -/
def nameToken (acc : List Char) : List AsmToken := if acc = [] then [] else [.name acc]

/-- The tokens of a line. 0x3B is `;`, which "starts a comment", 0x22 the double quote, 0x27 the single one, 0x2C the comma (R89).
DESIGN CHOICE: inside single or double quotes `;` is an ordinary character and starts no comment; and there is no escape, so 0x27
cannot be written as a quoted character (it is written as the number 0x27) nor 0x22 inside a text, and three apostrophes are an
error. Log 11. -/
def lexAsm : LexMode → List Char → Option (List AsmToken)
  | .plain acc, [] => some (nameToken acc)
  | .inString _, [] => none
  | .inChar _, [] => none
  | .plain acc, c :: cs =>
    if c.toNat = 0x3B then some (nameToken acc)
    else if c.toNat = 0x22 then (lexAsm (.inString []) cs).map (nameToken acc ++ ·)
    else if c.toNat = 0x27 then (lexAsm (.inChar []) cs).map (nameToken acc ++ ·)
    else if c.toNat = 0x2C then (lexAsm (.plain []) cs).map (nameToken acc ++ .comma :: ·)
    else if c.toNat ≤ 0x20 then (lexAsm (.plain []) cs).map (nameToken acc ++ ·)
    else lexAsm (.plain (acc ++ [c])) cs
  | .inString acc, c :: cs =>
    if c.toNat = 0x22 then (lexAsm (.plain []) cs).map (.string acc :: ·) else lexAsm (.inString (acc ++ [c])) cs
  | .inChar acc, c :: cs =>
    if c.toNat = 0x27 then
      match acc with
      | [a] => (lexAsm (.plain []) cs).map (.char a :: ·)
      | _ => none
    else lexAsm (.inChar (acc ++ [c])) cs

/-- The value of a digit, at most 15. -/
def digitValue (c : Char) : Option Nat :=
  if 0x30 ≤ c.toNat ∧ c.toNat ≤ 0x39 then some (c.toNat - 0x30)
  else if 0x41 ≤ c.toNat ∧ c.toNat ≤ 0x46 then some (c.toNat - 0x41 + 10)
  else if 0x61 ≤ c.toNat ∧ c.toNat ≤ 0x66 then some (c.toNat - 0x61 + 10)
  else none

/-- The number the digits make, n before them. -/
def digitsValue (base : Nat) : List Char → Nat → Option Nat
  | [], n => some n
  | c :: cs, n =>
    match digitValue c with
    | some d => if d < base then digitsValue base cs (base * n + d) else none
    | none => none

/-- A number: `0x61` or `97` (R89). -/
def asmNumber : List Char → Option Nat
  | [] => none
  | '0' :: 'x' :: c :: cs => digitsValue 16 (c :: cs) 0
  | c :: cs => digitsValue 10 (c :: cs) 0

/-- An ASCII character's byte (R89, R90). -/
def asciiByte (c : Char) : Option Nat := if c.toNat ≤ 0x7F then some c.toNat else none

/-- A symbol operand: "a number ... or ... a quoted ASCII character" (R89). -/
def symbolOperand : AsmToken → Option Nat
  | .name cs => asmNumber cs
  | .char c => asciiByte c
  | .string _ => none
  | .comma => none

/-- A bit string, "first bit first" (R89). -/
def bitsOperand : List Char → Option Bits
  | [] => some []
  | c :: cs =>
    if c.toNat = 0x30 then (bitsOperand cs).map (false :: ·)
    else if c.toNat = 0x31 then (bitsOperand cs).map (true :: ·)
    else none

/-- The ASCII bytes of a text (R90). -/
def textOperand : List Char → Option (List Nat)
  | [] => some []
  | c :: cs =>
    match asciiByte c, textOperand cs with
    | some n, some ns => some (n :: ns)
    | some _, none | none, some _ | none, none => none

/-- `s1, s2, ..., sm` (R90), at least one. -/
def symbolList : List AsmToken → Option (List Nat)
  | [] => none
  | [t] => (symbolOperand t).map fun n => [n]
  | t :: .comma :: ts =>
    match symbolOperand t, symbolList ts with
    | some n, some ns => some (n :: ns)
    | some _, none | none, some _ | none, none => none
  | _ :: _ :: _ => none

/-- The symbols of ENCODE; "m may be 0" (R90). -/
def symbolsOrNone : List AsmToken → Option (List Nat)
  | [] => some []
  | t :: ts => symbolList (t :: ts)

/-- The symbols of COUNTS and ENCS: a list, or one text in quotes (R90). -/
def symbolOperands : List AsmToken → Option (List Nat)
  | [.string cs] => textOperand cs
  | ts => symbolsOrNone ts

/-- A word written as a number; a number of more than 32 bits is out of range (R89). -/
def wordOperand (cs : List Char) : Option Word := (asmNumber cs).bind fun n => if n < 2 ^ 32 then some (BitVec.ofNat 32 n) else none

/-- `table, "bits"`: the words of the table as numbers, then the bit string (R90). A table of no words is a missing operand, an error.
DESIGN CHOICE: the words are taken as they are written; that they are "a TBL_OUT capture, which ends with TFIN" is the programmer's
to see to, and is not checked. Log 11. -/
def tableOperands : List AsmToken → Option (List Word × Bits)
  | [.name cs, .comma, .string bs] =>
    match wordOperand cs, bitsOperand bs with
    | some w, some c => some ([w], c)
    | some _, none | none, some _ | none, none => none
  | .name cs :: .comma :: ts =>
    match wordOperand cs, tableOperands ts with
    | some w, some r => some (w :: r.1, r.2)
    | some _, none | none, some _ | none, none => none
  | _ => none

/-- The line the tokens of a mnemonic's operands make (R89, R90). -/
def parseAsm (m : List Char) (ts : List AsmToken) : Option AsmLine :=
  if m = ['N', 'O', 'P'] then if ts = [] then some .nop else none
  else if m = ['S', 'R', 'S', 'T'] then if ts = [] then some .srst else none
  else if m = ['B', 'U', 'I', 'L', 'D'] then if ts = [] then some .build else none
  else if m = ['G', 'E', 'N'] then if ts = [] then some .gen else none
  else if m = ['T', 'F', 'I', 'N'] then if ts = [] then some .tfin else none
  else if m = ['D', 'F', 'I', 'N'] then if ts = [] then some .dfin else none
  else if m = ['C', 'O', 'U', 'N', 'T', 'S'] then (symbolOperands ts).map .counts
  else if m = ['E', 'N', 'C', 'S'] then (symbolOperands ts).map .encs
  else if m = ['E', 'N', 'C', 'O', 'D', 'E'] then (symbolsOrNone ts).map .encodeAll
  else if m = ['D', 'E', 'C', 'O', 'D', 'E'] then (tableOperands ts).map fun r => .decodeAll r.1 r.2
  else
    match ts with
    | [.string cs] =>
      if m = ['D', 'E', 'C'] then (bitsOperand cs).map .dec
      else if m = ['D', 'E', 'C', 'S'] then (bitsOperand cs).map .decs
      else none
    | [t, .comma, .string cs] =>
      if m = ['T', 'L', 'O', 'A', 'D'] then
        match symbolOperand t, bitsOperand cs with
        | some n, some c => some (.tload n c)
        | some _, none | none, some _ | none, none => none
      else none
    | [t] =>
      if m = ['C', 'O', 'U', 'N', 'T'] then (symbolOperand t).map .count
      else if m = ['E', 'N', 'C'] then (symbolOperand t).map .enc
      else if m = ['.', 'w', 'o', 'r', 'd'] then
        match t with
        | .name cs => (wordOperand cs).map .word
        | .char _ | .string _ | .comma => none
      else none
    | _ => none

/-- The words of one line of text, "one command per line" (R89); a line with a comment alone, or nothing, makes none. -/
def assembleText (cs : List Char) : Option (List Word) :=
  match lexAsm (.plain []) cs with
  | some [] => some []
  | some (.name m :: ts) => (parseAsm m ts).bind assemble
  | some (.char _ :: _) | some (.string _ :: _) | some (.comma :: _) => none
  | none => none

/-- The words of a program, line by line; one line in error is an error. -/
def assembleLines : List (List Char) → Option (List Word)
  | [] => some []
  | l :: ls =>
    match assembleText l, assembleLines ls with
    | some ws, some vs => some (ws ++ vs)
    | some _, none | none, some _ | none, none => none

end Sys2Proof
end

