-- ==== Sys2Proof/Tests/Slice0.lean ====
section
/-! SUPPORT. Tests of the model: expected values are those of spec/95_test_vectors.md, named in each docstring; and for every
statement that has hypotheses a witness that meets them. -/

namespace Sys2Proof.Tests

open Sys2Proof Sys2Proof.Machine

/-! ## Premise states, by their values -/

/-- RESET of spec/95 (R45). -/
abbrev R : State := State.reset

/-- The state in a phase, everything else as after reset. -/
def inPhase (p : Phase) : State := { R with phase := p }

/-- The state the word leaves; s where it leaves none. -/
def after (w : Word) (s : State) : State :=
  match acceptWord w s with
  | .next t => t
  | .fault _ => s
  | .refused _ => s

/-- The state one event of the host leaves; s where it leaves none. -/
def happens (e : HostEvent) (s : State) : State :=
  match step { s with inbox := [e] } with
  | .next t => t
  | .fault _ => s
  | .refused _ => s

/-- The premise states of V-CNT-4, V-CNT-5 and V-BLD-2: COUNTING with so many 0x61. -/
def manyA (n : Word) : State := { inPhase .counting with total := n, nsym := 1#9, freq := Table.set (Table.all 0#32) 0x61#8 n }

/-- BUILT or CODED with the one leaf 0x61 (V-GEN-2 with another symbol). -/
def oneLeaf (p : Phase) : State := { manyA 1#32 with phase := p, nodes := 1#10, root := .leaf 0x61#8 }

/-- The tree of V-BLD-3. -/
def rootABC : HTree := .internal (.internal (.leaf 0x62#8) (.leaf 0x63#8)) (.leaf 0x61#8)

/-- The end of V-BLD-3. -/
def builtABC : State :=
  { inPhase .built with
    total := 5#32, nsym := 3#9, nodes := 5#10, root := rootABC
    freq := Table.set (Table.set (Table.set (Table.all 0#32) 0x61#8 3#32) 0x62#8 1#32) 0x63#8 1#32 }

/-- The codes of V-GEN-3. -/
def lensABC : Table Byte := Table.set (Table.set (Table.set (Table.all 0#8) 0x61#8 1#8) 0x62#8 2#8) 0x63#8 2#8

/-- The codes of V-GEN-3. -/
def codesABC : Table Bits :=
  Table.set (Table.set (Table.set (Table.all []) 0x61#8 [true]) 0x62#8 [false, false]) 0x63#8 [false, true]

/-- The end of V-GEN-3, with TBL_OUT drained. -/
def codedABC : State := { builtABC with phase := .coded, clen := lensABC, code := codesABC }

/-- Tree A of spec/95 section 2.8. -/
def treeA : State := { inPhase .decoding with nsym := 3#9, nodes := 5#10, root := rootABC, clen := lensABC, code := codesABC }

/-- After V-TLD-3: one of the two data words of a 33-bit code has come. -/
def halfLoaded : State :=
  { inPhase .loading with
    root := .internal .empty .empty, nodes := 1#10, tlsym := 0x41#8, tllen := 33#8, tlbits := List.replicate 32 false
    pend := true, pendw := 1#4 }

/-- LOADING with the one entry 0x61 = "01", and the header of an entry of `len` bits for `sym` just written. -/
def loading01 (len sym : Byte) : State :=
  { inPhase .loading with
    root := .internal (.internal .empty (.leaf 0x61#8)) .empty, nodes := 3#10, nsym := 1#9
    clen := Table.set (Table.all 0#8) 0x61#8 2#8, code := Table.set (Table.all []) 0x61#8 [false, true]
    tlsym := sym, tllen := len, pend := true, pendw := 1#4 }

/-! ## Words (R81 to R88) -/

theorem test_wf_refuses_a_code_of_no_bits : Instr.wellFormed (.tload 0#8 0x61#8) = false := by decide

theorem test_wf_accepts_the_rest :
    ([.nop, .srst, .count 255#8, .build, .gen, .enc 0#8, .tload 1#8 0#8, .tload 255#8 0x61#8, .tfin, .dec 0#4 0#16,
      .dec 15#4 0xFFFF#16, .dfin] : List Instr).all Instr.wellFormed = true := by decide

/-- OPC 0000, then 28 zeros (R82; V-COD-1). -/
theorem test_word_nop : decode 0b00000000000000000000000000000000#32 false = .instr .nop := by decide
/-- OPC 0001, then 28 zeros (R82; V-COD-2). -/
theorem test_word_srst : decode 0b00010000000000000000000000000000#32 false = .instr .srst := by decide
/-- OPC 0010, 20 zeros, SYM 01100001 (R82; V-COD-3). -/
theorem test_word_count : decode 0b00100000000000000000000001100001#32 false = .instr (.count 0x61#8) := by decide
/-- OPC 0011, then 28 zeros (R82). -/
theorem test_word_build : decode 0b00110000000000000000000000000000#32 false = .instr .build := by decide
/-- OPC 0100, then 28 zeros (R82). -/
theorem test_word_gen : decode 0b01000000000000000000000000000000#32 false = .instr .gen := by decide
/-- OPC 0101, 20 zeros, SYM 01100010 (R82). -/
theorem test_word_enc : decode 0b01010000000000000000000001100010#32 false = .instr (.enc 0x62#8) := by decide
/-- OPC 0110, 12 zeros, LEN 00000010, SYM 01100010 (R82; V-COD-5). -/
theorem test_word_tload : decode 0b01100000000000000000001001100010#32 false = .instr (.tload 2#8 0x62#8) := by decide
/-- OPC 0111, then 28 zeros (R82). -/
theorem test_word_tfin : decode 0b01110000000000000000000000000000#32 false = .instr .tfin := by decide
/-- OPC 1000, 8 zeros, NM1 0110, BITS 1001101000000000 (R82; V-COD-13). -/
theorem test_word_dec : decode 0b10000000000001101001101000000000#32 false = .instr (.dec 6#4 0x9A00#16) := by decide
/-- OPC 1001, then 28 zeros (R82; V-COD-18). -/
theorem test_word_dfin : decode 0b10010000000000000000000000000000#32 false = .instr .dfin := by decide

/-- V-COD-4, V-COD-6, V-COD-7, V-COD-16, V-COD-17, V-COD-19. -/
theorem test_words_rejected :
    decode 0x20000161#32 false = .badCmd ∧ decode 0x60000061#32 false = .badCmd ∧ decode 0x60010161#32 false = .badCmd ∧
    decode 0x80100000#32 false = .badCmd ∧ decode 0xA0000000#32 false = .badOpc ∧ decode 0xF0000001#32 false = .badOpc ∧
    decode 0xF0000001#32 true = .data 0xF0000001#32 := by decide

/-- V-COD-13, V-COD-14, V-COD-15: the bits a DEC consumes. -/
theorem test_dec_bits :
    decBits 6#4 0x9A00#16 = [true, false, false, true, true, false, true] ∧
    decBits 15#4 0x5555#16 = [false, true, false, true, false, true, false, true, false, true, false, true, false, true, false,
      true] ∧ decBits 0#4 0x69FF#16 = [false] := by decide

/-- The last entry of V-GEN-5: 33 ones are packed as 0xFFFFFFFF, 0x80000000 after the header 0x60002142. -/
theorem test_entry_words : entryWords 0x42#8 (List.replicate 33 true) = [0x60002142#32, 0xFFFFFFFF#32, 0x80000000#32] := by
  decide

/-- P6: DECS "01110100010101100111" is 0x800F7456, 0x80037000. -/
theorem test_decs_words :
    decsWords [false, true, true, true, false, true, false, false, false, true, false, true, false, true, true, false, false, true,
      true, true] = [0x800F7456#32, 0x80037000#32] := by decide

/-- R89: `TLOAD 0x62, "00"` (P2), `DEC "1001101"` (P2), `DECS ""`, and operands out of range. -/
theorem test_assemble :
    assemble (.tload 0x62 [false, false]) = some [0x60000262#32, 0x00000000#32] ∧
    assemble (.dec [true, false, false, true, true, false, true]) = some [0x80069A00#32] ∧ assemble (.decs []) = some [] ∧
    assemble (.count 255) = some [0x200000FF#32] ∧ assemble (.count 256) = none ∧ assemble (.tload 0x61 []) = none ∧
    assemble (.tload 0x61 (List.replicate 256 true)) = none ∧ assemble (.dec []) = none ∧
    assemble (.dec (List.replicate 17 true)) = none := by decide +kernel

/-- R89 and P1: `COUNT 'a' ; a comment`, `COUNTS "ab"`, `TLOAD 98, "00"`, `.word 0xA0000000`, and a bit string that is none. -/
theorem test_assemble_text :
    assembleText "COUNT 'a'   ; 0x20000061".toList = some [0x20000061#32] ∧
    assembleText "COUNTS \"ab\"".toList = some [0x20000061#32, 0x20000062#32] ∧
    assembleText "TLOAD 98, \"00\"".toList = some [0x60000262#32, 0x00000000#32] ∧
    assembleText ".word 0xA0000000".toList = some [0xA0000000#32] ∧
    assembleText "DECODE 0x70000000, \"\"".toList = some [0x10000000#32, 0x70000000#32, 0x90000000#32] ∧
    assembleText "DECODE \"\"".toList = none ∧ assembleText "DEC \"102\"".toList = none ∧ assembleText "NOP 1".toList = none := by decide +kernel

/-- The table's numbering: the header is bits 31..0, and the data word above the 32 bits given is 0. -/
theorem test_table_word :
    decodeTableWord 32 0x60000262 = some (.tload 2#8 0x62#8) ∧ decodeTableWord 32 0xA0000000 = none ∧
    tableWords 32 0x60002141 = [0x60002141#32, 0#32, 0#32] := by decide

/-- The instruction placed before the step is the one that runs (V-TLD-1). -/
theorem test_fetch : ∃ t, step (R.withFetchWord 32 0x60000262) = .next t ∧ statusWord t = 0x00000124#32 :=
  ⟨_, rfl, by decide⟩

/-! ## One step of each command -/

/-- V-CTL-8. -/
theorem test_nop_changes_nothing : after 0x00000000#32 { codedABC with busy := true } = codedABC := rfl

/-- V-CTL-4. -/
theorem test_nop_with_a_bit_set : let t := after 0x00000001#32 R
    statusWord t = 0x0002000F#32 ∧ t.errInfo = 1#32 := by decide

/-- V-CTL-7. -/
theorem test_srst_leaves_error : let t := after 0x10000000#32 (R.raised .badSeq 0x40000000#32)
    statusWord t = 0#32 ∧ t.errInfo = 0#32 := by decide

/-- V-CTL-12, with an item in SYM_OUT that survives as in P4. -/
theorem test_srst_keeps_the_queues :
    let t := after 0x10000000#32
      { treeA with cur := [false], symOut := ⟨[], [0x61#8]⟩, phase := .error, errCode := .truncated, errInfo := 1#32 }
    statusWord t = 0#32 ∧ t.nodes = 0#10 ∧ t.depth = 0#8 ∧ t.root = .empty ∧ t.symOut.queued = [0x61#8] := by decide

/-- V-CNT-4. -/
theorem test_count_to_the_top : let t := after 0x20000062#32 (manyA 0xFFFFFFFE#32)
    Table.get t.freq 0x62#8 = 1#32 ∧ t.nsym = 2#9 ∧ t.total = 0xFFFFFFFF#32 := by decide +kernel

/-- V-CNT-5. -/
theorem test_count_overflows : let t := after 0x20000062#32 (manyA 0xFFFFFFFF#32)
    statusWord t = 0x0005000F#32 ∧ t.errInfo = 0x20000062#32 ∧ Table.get t.freq 0x62#8 = 0#32 ∧ t.nsym = 1#9 := by
  decide +kernel

/-- V-BLD-5: a leaf of weight 2 comes before the node of weight 2. -/
theorem test_build_tie :
    (after 0x30000000#32
      { inPhase .counting with
        freq := Table.set (Table.set (Table.set (Table.all 0#32) 0x78#8 1#32) 0x79#8 1#32) 0x7A#8 2#32 }).root =
      .internal (.leaf 0x7A#8) (.internal (.leaf 0x78#8) (.leaf 0x79#8)) := by decide +kernel

/-- V-BLD-3. -/
theorem test_build_abc :
    let t := after 0x30000000#32 { builtABC with phase := .counting, root := .empty, nodes := 0#10 }
    t.root = rootABC ∧ t.nodes = 5#10 ∧ statusWord t = 2#32 := by decide +kernel

/-- V-GEN-3. -/
theorem test_gen_abc : let t := after 0x40000000#32 builtABC
    t.tblOut.queued = [0x60000262#32, 0x00000000#32, 0x60000263#32, 0x40000000#32, 0x60000161#32, 0x80000000#32,
      0x70000000#32] ∧ Table.get t.clen 0x61#8 = 1#8 ∧ Table.get t.code 0x63#8 = [false, true] ∧
      statusWord t = 3#32 := by decide +kernel

/-- V-CTL-5. -/
theorem test_gen_out_of_sequence : let t := after 0x40000000#32 R
    statusWord t = 0x0003000F#32 ∧ t.errInfo = 0x40000000#32 := by decide

/-- V-ENCD-9: BITCNT wraps. -/
theorem test_enc_wraps : let t := after 0x50000062#32 { codedABC with bitcnt := 0xFFFFFFFF#32 }
    t.bitOut.queued = [false, false] ∧ t.bitcnt = 1#32 := by decide +kernel

/-- As V-ENCD-6, after V-GEN-3. -/
theorem test_enc_no_code : let t := after 0x50000064#32 codedABC
    statusWord t = 0x0006000F#32 ∧ t.errInfo = 0x64#32 ∧ t.bitcnt = 0#32 := by decide +kernel

/-- V-TLD-2. -/
theorem test_tload_header : let t := after 0x6000FF41#32 R
    t.root = .internal .empty .empty ∧ t.nodes = 1#10 ∧ statusWord t = 0x00000824#32 := by decide

/-- V-TLD-15. -/
theorem test_tload_out_of_sequence : let t := after 0x60000161#32 (manyA 1#32)
    statusWord t = 0x0003000F#32 ∧ t.nodes = 0#10 ∧ t.pend = false := by decide

/-- V-TLD-4. -/
theorem test_data_word_applies_the_entry : let t := after 0x80000000#32 halfLoaded
    Table.get t.clen 0x41#8 = 33#8 ∧ t.nodes = 34#10 ∧ t.nsym = 1#9 ∧ statusWord t = 4#32 := by decide +kernel

/-- As V-TLD-8, V-TLD-9, V-TLD-7 and V-TLD-6, with "01" loaded: an equal code, a prefix of it, a code it is a prefix of, the same
symbol. -/
theorem test_data_word_conflicts :
    statusWord (after 0x40000000#32 (loading01 2#8 0x62#8)) = 0x0008000F#32 ∧
    statusWord (after 0x00000000#32 (loading01 1#8 0x62#8)) = 0x0008000F#32 ∧
    statusWord (after 0x40000000#32 (loading01 3#8 0x62#8)) = 0x0008000F#32 ∧
    statusWord (after 0x80000000#32 (loading01 2#8 0x61#8)) = 0x0007000F#32 := by decide +kernel

/-- V-TFN-1. -/
theorem test_tfin_empty_table : let t := after 0x70000000#32 R
    t.root = .internal .empty .empty ∧ t.nodes = 1#10 ∧ statusWord t = 5#32 := by decide

/-- V-TFN-2. -/
theorem test_tfin_twice : statusWord (after 0x70000000#32 treeA) = 0x0003000F#32 := by decide

/-- V-DEC-1. -/
theorem test_dec_abaac : let t := after 0x80069A00#32 treeA
    t.symOut.queued = [0x61#8, 0x62#8, 0x61#8, 0x61#8, 0x63#8] ∧ t.cur = [] ∧ t.symcnt = 5#32 := by decide +kernel

/-- V-DEC-8. -/
theorem test_dec_bad_path :
    let t := after 0x80034000#32
      { treeA with root := .internal (.internal .empty (.leaf 0x61#8)) (.internal .empty (.leaf 0x62#8)) }
    t.symOut.queued = [0x61#8] ∧ statusWord t = 0x000A000F#32 ∧ t.errInfo = 0x00000301#32 ∧ t.depth = 1#8 := by decide +kernel

/-- V-DFN-1. -/
theorem test_dfin_done : statusWord (after 0x90000000#32 treeA) = 6#32 := by decide

/-- V-DFN-2. -/
theorem test_dfin_truncated : let t := after 0x90000000#32 { treeA with cur := [false] }
    statusWord t = 0x000B000F#32 ∧ t.errInfo = 1#32 ∧ t.depth = 1#8 := by decide

/-! ## The host -/

/-- V-OVR-1. -/
theorem test_overrun_after_build :
    let t := happens (.command 0x30000000#32 [.write cmdOffset .w32 0x20000062#32]) (manyA 1#32)
    t.root = .leaf 0x61#8 ∧ t.nodes = 1#10 ∧ statusWord t = 0x0004000F#32 ∧ t.errInfo = 0x20000062#32 ∧
      Table.get t.freq 0x62#8 = 0#32 := by decide +kernel

/-- V-OVR-3. -/
theorem test_overrun_dropped_by_srst :
    statusWord (happens (.command 0x10000000#32 [.write cmdOffset .w32 0x20000061#32]) codedABC) = 0#32 := by decide

/-- V-BP-1, its first word and its last take: with TBLQ_DEPTH = 1 GEN waits, and the take that lets its last word in ends it. -/
theorem test_back_pressure :
    let d : Config.Depths := { bitq := .unbounded, symq := .unbounded, tblq := .slots 0 }
    (after 0x40000000#32 { builtABC with depths := d }).busy = true ∧
    statusWord (happens (.act (.take .tblOut))
      { codedABC with depths := d, busy := true, tblOut := ⟨[], [0x80000000#32, 0x70000000#32]⟩ }) = 3#32 := by decide +kernel

/-- V-RST-2. -/
theorem test_rst_abandons_a_pending_entry : happens (.act .rst) halfLoaded = R := rfl

/-! ## Completed sessions (R276) -/

theorem acceptWord_after (w : Word) (s : State) : acceptWord w s = .next (after w s) := by
  obtain ⟨t, h⟩ := acceptWord_next w s
  rw [after, h]

/-- P5, the encode half from RESET: BUILD and GEN complete a session, whose table is the TFIN word and whose payload is empty. -/
theorem test_empty_encode_session : let t := after 0x40000000#32 (after 0x30000000#32 R)
    EncodeCompleted R t ∧ encodeResult R t = { table := [0x70000000#32], payload := [] } := by
  have h : SessionPath R ([] ++ [0x30000000#32]) (after 0x30000000#32 R) :=
    SessionPath.start.accept rfl (.inl (by decide)) (acceptWord_after _ _) (by unfold State.NoError; decide +kernel)
  have h := h.accept (u := after 0x40000000#32 (after 0x30000000#32 R)) (w := 0x40000000#32) (by decide +kernel) (.inl (by decide))
    (acceptWord_after _ _) (by unfold State.NoError; decide +kernel)
  exact ⟨⟨rfl, ⟨[], [], h⟩, by decide +kernel, by decide +kernel, by decide +kernel⟩, by decide +kernel⟩

/-- P5, the decode half from RESET: TFIN and DFIN complete a session, whose result is empty. -/
theorem test_empty_decode_session : let t := after 0x90000000#32 (after 0x70000000#32 R)
    DecodeCompleted R t ∧ decodeResult R t = [] := by
  have h : SessionPath R ([] ++ [0x70000000#32]) (after 0x70000000#32 R) :=
    SessionPath.start.accept rfl (.inl (by decide)) (acceptWord_after _ _) (by unfold State.NoError; decide +kernel)
  have h := h.accept (u := after 0x90000000#32 (after 0x70000000#32 R)) (w := 0x90000000#32) (by decide +kernel) (.inl (by decide))
    (acceptWord_after _ _) (by unfold State.NoError; decide +kernel)
  exact ⟨⟨rfl, ⟨[], [], (fun _ hl => by cases hl), h⟩, by decide +kernel, by decide +kernel, by decide +kernel⟩, by decide +kernel⟩

/-- A session's path is never in ERROR, so what follows an error in it completes nothing (R246): from IDLE to ERROR there is none. -/
theorem test_no_path_through_error {ws : List Word} {t : State} (h : SessionPath R ws t) : t.NoError :=
  h.noError (by unfold State.NoError; decide)

/-- A GEN that still waits on TBL_OUT has not ended, so nothing is completed (R57). -/
theorem test_waiting_gen_completes_nothing (s : State) : ¬ EncodeCompleted s (after 0x40000000#32
    { builtABC with depths := { bitq := .unbounded, symq := .unbounded, tblq := .slots 0 } }) := fun h =>
  absurd h.ended (by decide +kernel)

/-! ## Witnesses: a state and operands that meet the hypotheses of each statement, clause by clause -/

theorem ready_inPhase (p : Phase) : (inPhase p).Ready := ⟨rfl, rfl, rfl⟩

theorem test_wit_DecodeAfterEncode : Instr.wellFormed (.tload 1#8 0#8) = true := by decide

theorem test_wit_EncodeAfterDecode :
    decode 0x6000FF41#32 false = .instr (.tload 255#8 0x41#8) ∧ decode 0x800FFFFF#32 false = .instr (.dec 15#4 0xFFFF#16) := by
  decide

theorem test_wit_EveryWordIsOneOfThreeKinds :
    (inPhase .idle).Ready ∧ (inPhase .idle).phase ≠ .error ∧ 9 < opcOf 0xA0000000#32 ∧
    (opcOf 0x9FFFFFFF#32 ≤ 9 ∧ ¬ reservedZero 0x9FFFFFFF#32) ∧
    (opcOf 0x60000061#32 = 6 ∧ opcOf 0x60000061#32 ≤ 9 ∧ fieldOf 0x60000061#32 8 8 = 0) ∧
    (opcOf 0x60000161#32 ≤ 9 ∧ reservedZero 0x60000161#32 ∧ (opcOf 0x60000161#32 = 6 → fieldOf 0x60000161#32 8 8 ≠ 0)) := by
  refine ⟨ready_inPhase _, ?_⟩
  unfold reservedZero opcOf fieldOf
  decide

/-- The header of V-COD-9 has come (33 bits, two words), and one of 1 bit, and one of 255 bits. -/
theorem test_wit_DataWordsCarryTheCode : ∀ n ∈ [(1#8, 1), (33#8, 2), (255#8, 8)],
    let s := { inPhase .loading with root := .internal .empty .empty, tllen := n.1, pend := true, pendw := pendWords n.1 }
    s.pend = true ∧ s.ovr = false ∧ s.stalled = false ∧ s.tlbits = [] ∧ 1 ≤ s.tllen.toNat ∧
      s.pendw.toNat = (s.tllen.toNat + 31) / 32 ∧ (List.replicate n.2 0#32).length = (s.tllen.toNat + 31) / 32 := by decide

/-- V-COD-15, and all 16 bits. -/
theorem test_wit_DecIgnoresLowBits : (inPhase .decoding).pend = false ∧ (inPhase .decoding).phase = .decoding ∧
    (∀ j, j ≤ (0#4 : BitVec 4).toNat → (0x69FF#16).getLsbD (15 - j) = (0x0000#16).getLsbD (15 - j)) ∧
    ∀ j, j ≤ (15#4 : BitVec 4).toNat → (0x5555#16).getLsbD (15 - j) = (0x5555#16).getLsbD (15 - j) := by
  refine ⟨rfl, rfl, fun j h => ?_, fun _ _ => rfl⟩
  have : j = 0 := by simpa using h
  subst this; decide

/-- A command, a data word, a word of each rejected kind, at each of the two events. -/
theorem test_wit_StepRunsTheDecodedCommand :
    let e : HostEvent := .command 0x20000061#32 []
    let a : HostEvent := .act (.write cmdOffset .w32 0x20000061#32)
    (R.busy = false ∧ { R with inbox := [e] }.inbox = .command 0x20000061#32 [] :: [] ∧
      { R with inbox := [a] }.inbox = .act (.write cmdOffset .w32 0x20000061#32) :: []) ∧
    decode 0x20000061#32 R.pend = .instr (.count 0x61#8) ∧ (halfLoaded.busy = false ∧
      decode 0x20000061#32 halfLoaded.pend = .data 0x20000061#32) ∧
    decode 0xA0000000#32 R.pend = .badOpc ∧ decode 0x60000061#32 R.pend = .badCmd := by decide

/-- Eight words owed, and the last one. -/
theorem test_wit_DataWordIsNeverACommand :
    (({ halfLoaded with pendw := 8#4 } : State).pendw ≠ 1#4 ∧ halfLoaded.pendw = 1#4) ∧
    halfLoaded.pend = true ∧ halfLoaded.ovr = false ∧ halfLoaded.stalled = false := by decide

theorem test_wit_PhaseTableDecides :
    (inPhase .idle).Ready ∧ (inPhase .idle).phase ≠ .error ∧ Instr.wellFormed .gen = true ∧ phaseTable .gen .idle = none ∧
    Instr.wellFormed (.count 0#8) = true ∧ phaseTable (.count 0#8) .idle = some .counting :=
  ⟨ready_inPhase _, by decide⟩

/-- V-CTL-6. -/
theorem test_wit_ErrorDiscardsAllButSrst :
    let s := R.raised .badSeq 0x40000000#32
    s.Ready ∧ s.busy = false ∧ s.phase = .error ∧
    ∀ w ∈ [0x20000061#32, 0x00000000#32, 0x10000001#32, 0x60000161#32, 0x00000000#32], w ≠ 0x10000000#32 :=
  ⟨⟨rfl, rfl, rfl⟩, rfl, rfl, by simp⟩

/-- The status invariant of a state an error left. -/
theorem statusInv_raised : StatusInv (R.raised .badSeq 0x40000000#32) :=
  ⟨by decide, by decide, by decide, by decide, by decide, by decide, by decide, by decide, by decide⟩

/-- An action, a discarded word, SRST and RST, in ERROR. -/
theorem test_wit_OnlySrstAndRstLeaveError : ∀ e ∈ ([.act (.read 8#12 .w32), .command 0x20000061#32 [],
      .command 0x10000000#32 [], .act (.write cmdOffset .w32 0x10000000#32), .act .rst] : List HostEvent),
    let s := { R.raised .badSeq 0x40000000#32 with inbox := [e] }
    StatusInv s ∧ s.phase = .error ∧ ∃ s', step s = .next s' := by
  intro e he
  refine ⟨⟨statusInv_raised.1, statusInv_raised.2, statusInv_raised.3, statusInv_raised.4, statusInv_raised.5,
    statusInv_raised.6, statusInv_raised.7, statusInv_raised.8, statusInv_raised.9⟩, rfl, ?_⟩
  simp only [List.mem_cons, List.not_mem_nil, or_false] at he
  rcases he with rfl | rfl | rfl | rfl | rfl <;> exact ⟨_, rfl⟩

theorem test_wit_NopDoesNothing : (inPhase .done).Ready ∧ halfLoaded.pend = true ∧ (inPhase .done).phase ≠ .error ∧
    opcOf 0x00000001#32 = 0 ∧ fieldOf 0x00000001#32 0 28 ≠ 0 ∧ opcOf 0x08000000#32 = 0 ∧ fieldOf 0x08000000#32 0 28 ≠ 0 :=
  ⟨ready_inPhase _, by unfold opcOf fieldOf; decide⟩

theorem test_wit_SrstEndsTheSession : (inPhase .error).pend = false ∧ codedABC.pend = false ∧ halfLoaded.pend = true ∧
    (inPhase .error).Ready ∧ (inPhase .error).phase = .error ∧ Instr.nop ≠ .srst ∧ (inPhase .idle).Ready ∧ (inPhase .idle).phase ≠ .error ∧
    opcOf 0x10000001#32 = 1 ∧ fieldOf 0x10000001#32 0 28 ≠ 0 :=
  ⟨rfl, rfl, rfl, ready_inPhase _, rfl, by decide, ready_inPhase _, by unfold opcOf fieldOf; decide⟩

/-- A command out of sequence, a DEC onto an `Empty` child, and a data word whose entry collides. -/
theorem test_wit_ErrorsArePrecise : ∀ p ∈ ([(0x40000000#32, R), (0x80000000#32, after 0x70000000#32 R),
      (0x40000000#32, loading01 2#8 0x62#8)] : List (Word × State)),
    p.2.ovr = false ∧ p.2.stalled = false ∧ p.2.phase ≠ .error ∧ ∃ t, acceptWord p.1 p.2 = .next t ∧ t.phase = .error := by
  intro p hp
  simp only [List.mem_cons, List.not_mem_nil, or_false] at hp
  rcases hp with rfl | rfl | rfl <;> exact ⟨by decide, by decide, by decide, _, rfl, by decide +kernel⟩

/-- V-OVR-1, V-OVR-2 and V-OVR-3: what the latched states are. -/
theorem test_wit_OverrunIsReportedAtTheEnd :
    ({ R with busy := true } : State).busy = true ∧
    (∀ p ∈ ([(0x30000000#32, manyA 1#32), (0x50000064#32, codedABC)] : List (Word × State)),
      let s := { p.2 with ovr := true, ovrWord := 0x20000062#32 }
      s.ovr = true ∧ s.phase ≠ .error ∧ (p.1 ≠ 0x10000000#32 ∨ s.pend = true) ∧
        ∃ t, acceptWord p.1 { s with ovr := false } = .next t ∧ t.stalled = false) ∧
    (let s : State := { codedABC with busy := true, ovr := true, tblOut := ⟨[], [0x70000000#32]⟩ }
     s.busy = true ∧ s.ovr = true ∧ (s.takeFrom .tblOut).stalled = false) ∧
    ({ codedABC with ovr := true } : State).pend = false := by
  refine ⟨rfl, fun p hp => ?_, ⟨rfl, rfl, rfl⟩, rfl⟩
  simp only [List.mem_cons, List.not_mem_nil, or_false] at hp
  rcases hp with rfl | rfl <;> exact ⟨rfl, by decide, Or.inl (by decide), _, rfl, by decide +kernel⟩

/-- V-OVR-1. -/
theorem test_wit_WriteInTheBusyWindow :
    let s := { manyA 1#32 with inbox := [.command 0x30000000#32 [.write cmdOffset .w32 0x20000062#32]] }
    s.busy = false ∧ s.ovr = false ∧ (s.pend = true → s.pendw.toNat ≤ 1) ∧
      s.inbox = .command 0x30000000#32 (.write cmdOffset .w32 0x20000062#32 :: []) :: [] ∧
      ∀ a ∈ ([] : List HostAct), ∃ u, a = .write cmdOffset .w32 u :=
  ⟨rfl, rfl, by decide, rfl, fun _ h => by cases h⟩

/-- IDLE, COUNTING one below the top, at the top, and BUILT. -/
theorem test_wit_CountAddsOne :
    (∀ s ∈ [inPhase .idle, manyA 0xFFFFFFFE#32, manyA 0xFFFFFFFF#32, builtABC],
      s.pend = false ∧ s.ovr = false ∧ s.stalled = false ∧ s.phase ≠ .error) ∧
    ((inPhase .idle).phase = .idle ∧ (inPhase .idle).total ≠ 0xFFFFFFFF#32) ∧
    ((manyA 0xFFFFFFFE#32).phase = .counting ∧ (manyA 0xFFFFFFFE#32).total ≠ 0xFFFFFFFF#32) ∧
    ((manyA 0xFFFFFFFF#32).phase = .counting ∧ (manyA 0xFFFFFFFF#32).total = 0xFFFFFFFF#32) ∧
    (builtABC.phase ≠ .idle ∧ builtABC.phase ≠ .counting) ∧
    opcOf 0x20000161#32 = 2 ∧ fieldOf 0x20000161#32 8 20 ≠ 0 := by unfold opcOf fieldOf; decide

theorem test_wit_CountsCountOccurrences : (inPhase .idle).Ready ∧ (inPhase .idle).phase = .idle ∧ EmptySession (inPhase .idle) ∧
    [0x61#8, 0x62#8, 0x61#8].length ≤ 0xFFFFFFFF := ⟨ready_inPhase _, rfl, ⟨rfl, rfl, rfl⟩, by decide⟩

theorem test_wit_BuildMakesTheTree : (inPhase .idle).Ready ∧ (manyA 1000#32).Ready ∧ builtABC.Ready ∧
    (inPhase .idle).phase = .idle ∧ (manyA 1000#32).phase = .counting ∧
    (builtABC.phase ≠ .error ∧ builtABC.phase ≠ .idle ∧ builtABC.phase ≠ .counting) ∧
    opcOf 0x38000000#32 = 3 ∧ fieldOf 0x38000000#32 0 28 ≠ 0 :=
  ⟨⟨rfl, rfl, rfl⟩, ⟨rfl, rfl, rfl⟩, ⟨rfl, rfl, rfl⟩, by unfold opcOf fieldOf; decide⟩

theorem test_wit_BuildFollowsTheMergeRule : countedSymbols builtABC.freq ≠ [] ∧
    (initialQueue builtABC.freq).reverse.Perm (initialQueue builtABC.freq) := ⟨by decide +kernel, List.reverse_perm _⟩

/-- N = 0, N = 1, and N = 3, where F adds up to TOTAL. -/
theorem test_wit_BuiltTreeShape :
    (∀ s ∈ [inPhase .counting, manyA 1000#32, { builtABC with phase := .counting }],
      s.pend = false ∧ s.ovr = false ∧ s.stalled = false ∧ s.phase = .counting) ∧
    countedSymbols (inPhase .counting).freq = [] ∧ countedSymbols (manyA 1000#32).freq = [0x61#8] ∧
    countedSymbols builtABC.freq ≠ [] ∧ countTotal builtABC.freq = builtABC.total.toNat := by decide +kernel

/-- The queue of V-BLD-3, before its first merge. -/
theorem test_wit_WeightsNeverWrap : let f := builtABC.freq
    countTotal f ≤ 0xFFFFFFFF ∧ (∀ e ∈ initialQueue f, e.freq.toNat = (e.node.leaves.map fun s => (Table.get f s).toNat).sum) ∧
    weightSum (initialQueue f) = countTotal f ∧
    ∃ a b q1 q2, extractMin (initialQueue f) = some (a, q1) ∧ extractMin q1 = some (b, q2) := by
  refine ⟨by decide +kernel, by decide +kernel, by decide +kernel, ⟨.leaf 0x62#8, 1#32, 1⟩, ⟨.leaf 0x63#8, 1#32, 2⟩,
    [⟨.leaf 0x61#8, 3#32, 0⟩, ⟨.leaf 0x63#8, 1#32, 2⟩], [⟨.leaf 0x61#8, 3#32, 0⟩], by decide +kernel, by decide +kernel⟩

/-- The states of an encode session in which these symbols were counted, one each. -/
def counted (bs : List Byte) : State := bs.foldl (fun s b => countSymbol b s) (inPhase .counting)

theorem emptySession_inPhase (p : Phase) : EmptySession (inPhase p) := ⟨rfl, rfl, rfl⟩

theorem noCodes_inPhase (p : Phase) : NoCodes (inPhase p) := ⟨rfl, rfl⟩

/-- One more COUNT keeps what a session in COUNTING is. -/
theorem counted_facts (b : Byte) {s : State} (h : Counts s ∧ NoCodes s) (ht : s.total ≠ 0xFFFFFFFF#32) :
    Counts (countSymbol b s) ∧ NoCodes (countSymbol b s) := by
  have e : countSymbol b s = { s with
      nsym := if Table.get s.freq b = 0#32 then s.nsym + 1#9 else s.nsym
      freq := Table.set s.freq b (Table.get s.freq b + 1#32)
      total := s.total + 1#32
      phase := .counting } := if_neg ht
  rw [e]
  exact ⟨counts_count h.1 ht, h.2.1, h.2.2⟩

theorem counted_none : Counts (counted []) ∧ NoCodes (counted []) := ⟨counts_empty (emptySession_inPhase _), noCodes_inPhase _⟩

theorem counted_one : Counts (counted [0x61#8]) ∧ NoCodes (counted [0x61#8]) := counted_facts _ counted_none (by decide)

theorem counted_two : Counts (counted [0x61#8, 0x62#8]) ∧ NoCodes (counted [0x61#8, 0x62#8]) :=
  counted_facts _ counted_one (by decide)

/-- After BUILD and after GEN such a session is in the invariant. -/
theorem built_inv {s : State} (h : Counts s ∧ NoCodes s) :
    SessionInv (buildEffect s) ∧ SessionInv (genEffect (buildEffect s)) :=
  ⟨⟨⟨h.1.1, h.1.2⟩, ⟨h.2.1, h.2.2⟩, encodeTree_build⟩, ⟨h.1.1, h.1.2⟩,
    ⟨encodeTree_build.1, encodeTree_build.2, encodeTree_build.3, encodeTree_build.4, encodeTree_build.5⟩,
    encodeCodes_gen encodeTree_build ⟨h.2.1, h.2.2⟩⟩

theorem sessionInv_idle : SessionInv (inPhase .idle) := ⟨emptySession_inPhase _, noCodes_inPhase _, rfl, rfl⟩

theorem test_wit_GenRecordsAndEmits : builtABC.Ready ∧ (inPhase .coded).Ready ∧ builtABC.phase = .built ∧
    (inPhase .coded).phase ≠ .error ∧ (inPhase .coded).phase ≠ .built ∧ opcOf 0x40000001#32 = 4 ∧
    fieldOf 0x40000001#32 0 28 ≠ 0 := ⟨⟨rfl, rfl, rfl⟩, ⟨rfl, rfl, rfl⟩, by unfold opcOf fieldOf; decide⟩

theorem test_wit_TraversalIsLeftFirst : (0x62#8, [false, false]) ∈ genEntries rootABC := by decide

/-- N = 0, N = 1 and N = 2, with a leaf and with a symbol that has none. -/
theorem test_wit_CodesAreTheLeafPaths :
    (∀ bs ∈ [[], [0x61#8], [0x61#8, 0x62#8]], let s := buildEffect (counted bs)
      s.Ready ∧ s.phase = .built ∧ SessionInv s) ∧
    (buildEffect (counted [0x61#8])).root = .leaf 0x61#8 ∧
    (buildEffect (counted [0x61#8, 0x62#8])).root.nodeAt [true] = .leaf 0x62#8 ∧
    Table.get (buildEffect (counted [0x61#8, 0x62#8])).freq 0x63#8 = 0#32 := by
  refine ⟨fun bs h => ?_, by decide +kernel, by decide +kernel, by decide +kernel⟩
  simp only [List.mem_cons, List.not_mem_nil, or_false] at h
  rcases h with rfl | rfl | rfl
  · exact ⟨⟨rfl, rfl, rfl⟩, rfl, (built_inv counted_none).1⟩
  · exact ⟨⟨rfl, rfl, rfl⟩, rfl, (built_inv counted_one).1⟩
  · exact ⟨⟨rfl, rfl, rfl⟩, rfl, (built_inv counted_two).1⟩

theorem test_wit_GenOfTheEmptyTree : (inPhase .built).Ready ∧ (inPhase .built).phase = .built ∧
    (inPhase .built).root = .empty ∧ (inPhase .built).clen = Table.all 0#8 := ⟨ready_inPhase _, rfl, rfl, rfl⟩

theorem test_wit_GenOfTheSingleLeaf : (oneLeaf .built).Ready ∧ (oneLeaf .built).phase = .built ∧
    (oneLeaf .built).root = .leaf 0x61#8 := ⟨⟨rfl, rfl, rfl⟩, rfl, rfl⟩

theorem test_wit_TableWordCount : let s := buildEffect (counted [0x61#8, 0x62#8])
    s.Ready ∧ s.phase = .built ∧ SessionInv s := ⟨⟨rfl, rfl, rfl⟩, rfl, (built_inv counted_two).1⟩

/-- Two codes in the session, and the session of one symbol. -/
theorem test_wit_CodesAreCompleteAndPrefixFree :
    (let s := genEffect (buildEffect (counted [0x61#8, 0x62#8]))
     s.phase = .coded ∧ SessionInv s ∧ s.nsym = 2#9 ∧ Table.get s.clen 0x61#8 ≠ 0#8 ∧ Table.get s.clen 0x62#8 ≠ 0#8) ∧
    (let s := genEffect (buildEffect (counted [0x61#8]))
     s.phase = .coded ∧ SessionInv s ∧ s.nsym = 1#9 ∧ Table.get s.clen 0x61#8 ≠ 0#8) :=
  ⟨⟨rfl, (built_inv counted_two).2, by decide +kernel⟩, rfl, (built_inv counted_one).2, by decide +kernel⟩

/-- A symbol with a code, one without, and a phase that is not CODED. -/
theorem test_wit_EncEmitsTheCode : codedABC.Ready ∧ codedABC.phase = .coded ∧ (inPhase .built).Ready ∧
    (inPhase .built).phase ≠ .error ∧ (inPhase .built).phase ≠ .coded ∧ Table.get codedABC.clen 0x61#8 ≠ 0#8 ∧
    Table.get codedABC.clen 0x64#8 = 0#8 ∧ opcOf 0x50000161#32 = 5 ∧ fieldOf 0x50000161#32 8 20 ≠ 0 :=
  ⟨⟨rfl, rfl, rfl⟩, rfl, ready_inPhase _, by unfold opcOf fieldOf; decide +kernel⟩

theorem test_wit_EncsConcatenateTheCodes : codedABC.Ready ∧ codedABC.phase = .coded ∧ codedABC.depths.bitq = .unbounded ∧
    ∀ b ∈ [0x61#8, 0x62#8, 0x63#8], Table.get codedABC.clen b ≠ 0#8 ∧
      (Table.get codedABC.code b).length = (Table.get codedABC.clen b).toNat :=
  ⟨⟨rfl, rfl, rfl⟩, rfl, rfl, by decide +kernel⟩

theorem test_wit_CountedSymbolsHaveCodes : let s := genEffect (buildEffect (counted [0x61#8, 0x62#8]))
    s.phase = .coded ∧ SessionInv s ∧ Table.get s.freq 0x61#8 ≠ 0#32 ∧ ({ s with tblOut := ⟨[], []⟩ } : State).Ready :=
  ⟨rfl, (built_inv counted_two).2, by decide +kernel, ⟨rfl, rfl, rfl⟩⟩

/-- IDLE, LOADING and another phase; the least and the largest LEN; both rejected forms. -/
theorem test_wit_TloadHeaderStartsAnEntry : (∀ p, p ≠ .error → (inPhase p).Ready ∧ (inPhase p).phase ≠ .error) ∧
    (1#8 ≠ 0#8 ∧ 255#8 ≠ 0#8) ∧ (inPhase .idle).phase = .idle ∧ (inPhase .loading).phase = .loading ∧
    ((inPhase .built).phase ≠ .idle ∧ (inPhase .built).phase ≠ .loading) ∧
    (opcOf 0x60010161#32 = 6 ∧ fieldOf 0x60010161#32 16 12 ≠ 0) ∧ opcOf 0x60000061#32 = 6 ∧ fieldOf 0x60000061#32 8 8 = 0 :=
  ⟨fun p h => ⟨ready_inPhase p, h⟩, by unfold opcOf fieldOf; decide⟩

/-- LOADING with "01" there: the same symbol; an equal code, a code under the leaf, a code above it; a code with room; and a code
with no room. -/
theorem test_wit_EntryChecksThenInserts :
    (∀ p ∈ [(2#8, 0x61#8), (2#8, 0x62#8), (3#8, 0x62#8), (1#8, 0x62#8)], let s := loading01 p.1 p.2
      s.pend = true ∧ s.pendw = 1#4 ∧ s.ovr = false ∧ s.stalled = false ∧ s.phase = .loading) ∧
    (loading01 1#8 0x62#8).root.InternalAt [] ∧
    (∀ n ∈ [(2#8, 0x40000000#32, [false, true]), (3#8, 0x40000000#32, [false, true, false]), (1#8, 0x00000000#32, [false]),
        (1#8, 0x80000000#32, [true]), (2#8, 0x00000000#32, [false, false])],
      let s := loading01 n.1 0x62#8
      (s.tlbits ++ (List.range 32).map fun j => n.2.1.getLsbD (31 - j)).take s.tllen.toNat = n.2.2) ∧
    Table.get (loading01 2#8 0x61#8).clen 0x61#8 ≠ 0#8 ∧ Table.get (loading01 2#8 0x62#8).clen 0x62#8 = 0#8 ∧
    (let r := (loading01 2#8 0x62#8).root
     r.nodeAt [false, true] = .leaf 0x61#8 ∧ [false, true] <+: [false, true, false] ∧ r.nodeAt [false] ≠ .empty ∧
      r.nodeAt [true] = .empty ∧ (([true] : Bits).inits.filter fun p => r.nodeAt p = .empty).length = 1) ∧
    (3 + 1 ≤ 511 ∧ 511 < ({ loading01 1#8 0x62#8 with nodes := 511#10 } : State).nodes.toNat + 1 ∧
      ({ loading01 1#8 0x62#8 with nodes := 510#10 } : State).nodes.toNat + 1 = 511) := by
  refine ⟨fun _ _ => ⟨rfl, rfl, rfl, rfl, rfl⟩, ⟨_, _, rfl⟩, by decide, by decide +kernel, by decide +kernel, by decide,
    by decide⟩

/-- V-TLD-5, from RESET as there, its entries in another order, and the empty table. -/
theorem test_wit_LoadingOrderDoesNotMatter :
    let es : List (Byte × Bits) := [(0x62#8, [false, false]), (0x63#8, [false, true]), (0x61#8, [true])]
    (inPhase .idle).Ready ∧ (inPhase .idle).phase = .idle ∧ SessionInv (inPhase .idle) ∧ Loadable es ∧ es.Perm es.reverse ∧
      es ≠ [] ∧ Loadable [] :=
  ⟨ready_inPhase _, rfl, sessionInv_idle, ⟨by decide, by unfold PrefixFree; decide, by decide, by decide⟩,
    (List.reverse_perm _).symm, by decide, ⟨by decide, by unfold PrefixFree; decide, by decide, by decide⟩⟩

/-- N = 2, N = 1 and N = 0. -/
theorem test_wit_ReplayRebuildsTheTree :
    (∀ bs ∈ [[], [0x61#8], [0x61#8, 0x62#8]], let s := genEffect (buildEffect (counted bs))
      s.phase = .coded ∧ SessionInv s) ∧
    ((inPhase .idle).Ready ∧ (inPhase .idle).phase = .idle ∧ SessionInv (inPhase .idle)) ∧
    (counted [0x61#8, 0x62#8]).nsym.toNat = 2 ∧ (buildEffect (counted [0x61#8])).root = .leaf 0x61#8 ∧
    (counted []).nsym.toNat = 0 := by
  refine ⟨fun bs h => ?_, ⟨ready_inPhase _, rfl, sessionInv_idle⟩, by decide +kernel, by decide +kernel, by decide⟩
  simp only [List.mem_cons, List.not_mem_nil, or_false] at h
  rcases h with rfl | rfl | rfl
  · exact ⟨rfl, (built_inv counted_none).2⟩
  · exact ⟨rfl, (built_inv counted_one).2⟩
  · exact ⟨rfl, (built_inv counted_two).2⟩

theorem test_wit_TfinStartsDecoding : (∀ p, p ≠ .error → (inPhase p).Ready ∧ (inPhase p).phase ≠ .error) ∧
    (inPhase .idle).phase = .idle ∧ (inPhase .loading).phase = .loading ∧
    ((inPhase .done).phase ≠ .idle ∧ (inPhase .done).phase ≠ .loading) ∧ halfLoaded.pend = true ∧
    opcOf 0x70000001#32 = 7 ∧ fieldOf 0x70000001#32 0 28 ≠ 0 :=
  ⟨fun p h => ⟨ready_inPhase p, h⟩, by unfold opcOf fieldOf; decide⟩

/-- V-DEC-1; an `Empty` child at once (V-DEC-9); another phase. -/
theorem test_wit_DecWalksTheTree : treeA.Ready ∧ treeA.phase = .decoding ∧ (inPhase .done).Ready ∧
    (inPhase .done).phase ≠ .error ∧ (inPhase .done).phase ≠ .decoding ∧
    walk treeA.root treeA.cur (decBits 6#4 0x9A00#16) = some ([0x61#8, 0x62#8, 0x61#8, 0x61#8, 0x63#8], []) ∧
    walk (.internal .empty .empty) [] (decBits 0#4 0x0000#16) = none ∧
    opcOf 0x80100000#32 = 8 ∧ fieldOf 0x80100000#32 20 8 ≠ 0 :=
  ⟨⟨rfl, rfl, rfl⟩, rfl, ready_inPhase _, by unfold opcOf fieldOf; decide⟩

theorem test_wit_CodesDecodeToTheirSymbols : treeA.Ready ∧ treeA.phase = .decoding ∧ treeA.cur = [] ∧
    treeA.depths.symq = .unbounded ∧ treeA.root.InternalAt [] ∧
    ∀ b ∈ [0x61#8, 0x62#8, 0x63#8], treeA.root.nodeAt (Table.get codesABC b) = .leaf b :=
  ⟨⟨rfl, rfl, rfl⟩, rfl, rfl, rfl, ⟨_, _, rfl⟩, by decide +kernel⟩

theorem test_wit_DfinChecksTheCursor : treeA.Ready ∧ treeA.phase = .decoding ∧ treeA.cur = [] ∧
    ({ treeA with cur := [false] } : State).cur ≠ [] ∧ (inPhase .done).Ready ∧ (inPhase .done).phase ≠ .error ∧
    (inPhase .done).phase ≠ .decoding ∧ opcOf 0x90000001#32 = 9 ∧ fieldOf 0x90000001#32 0 28 ≠ 0 :=
  ⟨⟨rfl, rfl, rfl⟩, rfl, rfl, by decide, ready_inPhase _, by unfold opcOf fieldOf; decide⟩

theorem test_wit_DecodingInvertsEncoding : [0x61#8, 0x62#8, 0x61#8, 0x61#8, 0x63#8].length ≤ 0xFFFFFFFF ∧ R.Ready ∧
    R.depths = { bitq := .unbounded, symq := .unbounded, tblq := .unbounded } := ⟨by decide, ⟨rfl, rfl, rfl⟩, rfl⟩

/-- The first and last reserved offsets, and STATUS. -/
theorem test_wit_RegisterReads : R.busy = false ∧ (0x008#12).toNat % 4 = 0 ∧
    ∀ off ∈ [0x028#12, 0x3FC#12, 0xC00#12, 0xFFC#12], off.toNat % 4 = 0 ∧
      ((0x028 ≤ off.toNat ∧ off.toNat < 0x400) ∨ 0xC00 ≤ off.toNat) := by decide

/-- Each register with unused bits, the last CLEN, and the ends of the reserved offsets. -/
theorem test_wit_ReadsWhileBusy : ({ R with busy := true } : State).busy = true ∧
    (∀ off ∈ [0x000#12, 0x008#12, 0x010#12, 0x018#12, 0x01C#12, 0x028#12, 0x3FC#12, 0xBFC#12, 0xC00#12, 0xFFC#12], off.toNat % 4 = 0) ∧
    0xBFC#12 = BitVec.ofNat 12 (0x800 + 4 * (255#8).toNat) := by decide

theorem test_wit_ReadOfCmdWhileBusy : ({ R with busy := true } : State).busy = true := rfl

theorem test_wit_OtherWritesAreIgnored : (∀ off ∈ [0x000#12, 0x008#12, 0xFFC#12], off.toNat % 4 = 0 ∧ off ≠ 0x004#12) ∧
    R.busy = false ∧ ∀ off ∈ [0x028#12, 0x3FC#12, 0xC00#12, 0xFFC#12], off.toNat % 4 = 0 ∧
      ((0x028 ≤ off.toNat ∧ off.toNat < 0x400) ∨ 0xC00 ≤ off.toNat) := by decide

/-- A narrow read and a misaligned write. -/
theorem test_wit_UnadmittedAccessIsRefused :
    (Width.w8 ≠ .w32 ∨ (0x008#12).toNat % 4 ≠ 0) ∧ (Width.w32 ≠ .w32 ∨ (0x006#12).toNat % 4 ≠ 0) ∧
    ({ R with inbox := [.act (.read 0x008#12 .w8)] } : State).inbox = .act (.read 0x008#12 .w8) :: [] ∧
    ({ R with inbox := [.act (.write 0x006#12 .w32 1#32)] } : State).inbox = .act (.write 0x006#12 .w32 1#32) :: [] := by decide

/-- A GEN that emits. -/
theorem test_wit_StreamsOnlyGrow : let s := { builtABC with inbox := [.command 0x40000000#32 []] }
    (∃ s', step s = .next s') ∧ ∀ e rest, s.inbox = e :: rest → e.resets = false :=
  ⟨⟨_, rfl⟩, fun e rest h => by cases h; decide⟩

theorem test_wit_EachStateHasItsWriters : (∃ t, exec (.count 0x61#8) R = .next t) ∧ (∃ t, exec .gen R = .next t) ∧
    (Instr.nop ≠ .gen ∧ Instr.nop ≠ .srst ∧ R.pend = false) ∧ (∀ x, Instr.nop ≠ .enc x) ∧ ∀ n b, Instr.nop ≠ .dec n b :=
  ⟨⟨_, rfl⟩, ⟨_, rfl⟩, by decide, fun _ h => (by cases h), fun _ _ h => (by cases h)⟩

/-- V-BP-1 after GEN, as its queue is: TBLQ_DEPTH = 1, seven words, six to go. -/
theorem test_wit_DrainingReleasesBusy :
    let s : State :=
      { codedABC with
        depths := { bitq := .unbounded, symq := .unbounded, tblq := .slots 0 }
        busy := true
        tblOut := ⟨[], [0x60000262#32, 0x00000000#32, 0x60000263#32, 0x40000000#32, 0x60000161#32, 0x80000000#32, 0x70000000#32]⟩ }
    StatusInv s ∧ s.ovr = false ∧ s.depthOf .tblOut = .slots 0 ∧ s.queuedCount .tblOut = 0 + 1 + 6 ∧ 0 < 6 ∧
      (∀ r, r ≠ .tblOut → Depth.holds (s.depthOf r) (s.queuedCount r) = true) ∧ 6 ≤ 6 :=
  ⟨⟨by decide, by decide, by decide, by decide, by decide, by decide, by decide, by decide, by decide⟩, rfl, rfl, rfl, by decide,
    fun r h => by cases r <;> first | rfl | exact absurd rfl h, by decide⟩

/-- Both sides of the equivalence: the host waits for a GEN that waits for the host. -/
theorem test_wit_OnlyTheDrainDeadlockStops :
    let s : State := { codedABC with busy := true, inbox := [.command 0x50000061#32 []] }
    step s = .fault .drainDeadlock ∧ s.busy = true ∧ ∃ w during rest, s.inbox = .command w during :: rest :=
  ⟨rfl, rfl, _, _, _, rfl⟩

theorem test_wit_ResetValues :
    ({ halfLoaded with inbox := [.act .rst] } : State).inbox = .act .rst :: [] ∧ codedABC.pend = false ∧
    codedABC.depths = R.depths ∧ codedABC.readData = 0#32 ∧ codedABC.draws = 0 := ⟨rfl, rfl, rfl, rfl, rfl⟩

/-- RST while BUILD is BUSY, and while the last data word's entry is applied. -/
theorem test_wit_RstAbandonsTheCommand : ∀ s ∈ [manyA 1#32, halfLoaded], s.busy = false ∧ (s.pend = true → s.pendw.toNat ≤ 1) ∧
    ({ s with inbox := [.command 0x30000000#32 [.rst]] } : State).inbox = .command 0x30000000#32 (.rst :: []) :: [] := by
  intro s h
  simp only [List.mem_cons, List.not_mem_nil, or_false] at h
  rcases h with rfl | rfl <;> exact ⟨rfl, by decide, rfl⟩

theorem test_wit_StepKeepsTheStatusInvariant : let s := R.raised .badSeq 0x40000000#32
    StatusInv { s with inbox := [.command 0x00000000#32 []] } ∧ ∃ s', step { s with inbox := [.command 0x00000000#32 []] } = .next s' :=
  ⟨⟨statusInv_raised.1, statusInv_raised.2, statusInv_raised.3, statusInv_raised.4, statusInv_raised.5, statusInv_raised.6,
    statusInv_raised.7, statusInv_raised.8, statusInv_raised.9⟩, _, rfl⟩

/-- A COUNT from IDLE. -/
theorem test_wit_StepKeepsTheSessionInvariant : let s := { R with inbox := [.command 0x20000061#32 []] }
    StatusInv s ∧ SessionInv s ∧ ∃ s', step s = .next s' :=
  ⟨⟨by decide, by decide, by decide, by decide, by decide, by decide, by decide, by decide, by decide⟩,
    ⟨⟨rfl, rfl, rfl⟩, ⟨rfl, rfl⟩, rfl, rfl⟩, _, rfl⟩

/-- A TFIN, which makes the empty decode tree. -/
theorem test_wit_CursorDepthFitsTheRegister : let s := { R with inbox := [.command 0x70000000#32 []] }
    CursorInv s ∧ ∃ s', step s = .next s' :=
  ⟨⟨by decide, fun h => (by rcases h with h | h <;> cases h), fun h => (by rcases h with h | h <;> cases h)⟩, _, rfl⟩

/-- One step, into an ERROR that was not entered from DECODING. -/
theorem test_wit_SpecInvariantsHoldBetweenSteps :
    (∃ t, Sys2Proof.core.run 1 { State.reset with inbox := [.command 0x20000061#32 [], .command 0x40000000#32 []] } = .next t ∧
      t.phase ≠ .decoding ∧ t.phase ≠ .error ∧ ∃ u, step t = .next u ∧ u.phase = .error) :=
  ⟨_, rfl, by decide, by decide, _, rfl, by decide⟩

theorem test_wit_PoliteHostNeverOverruns :
    (∀ e ∈ ([.command 0x20000061#32 [.read 0x008#12 .w32], .act (.take .bitOut)] : List HostEvent), e.polite = true) ∧
    ∃ t, Sys2Proof.core.run 1
      { State.reset with inbox := [.command 0x20000061#32 [.read 0x008#12 .w32], .act (.take .bitOut)] } = .next t :=
  ⟨by decide, _, rfl⟩

end Sys2Proof.Tests
end

section
/-! SUPPORT. Reset (R45, R260), and the invariants of R46 over every run: what one step can do to the session, what the session
keeps, and the six invariants read off it. -/

namespace Sys2Proof.Machine

/-! ## Reset (R45, R116, R260) -/

/-- Settles O51: RST is the state of R45's table, and SRST is that table with the streams kept. -/
theorem resetValues : Obligations.ResetValues := by
  refine ⟨fun s rest h => ?_, fun s hp => ?_, fun s => ?_, fun s hd hi hr hn => ?_⟩
  · rw [step_event h]; rfl
  · exact ⟨_, exec_srst hp, rfl, rfl, rfl, rfl⟩
  · rfl
  · have e : hardReset { s with inbox := [] } = State.reset := by simp only [hardReset, hd, hr, hn]; rfl
    rw [step_event hi, ← e]; rfl

/-! ## What one step does to the session -/

/-- The fields the words accepted at CMD work on. The streams, BUSY, the lost write and the model's own fields, which the host's
other actions change, are set to one value. -/
def State.session (s : State) : State :=
  { s with
    busy := false, ovr := false, ovrWord := 0#32, bitOut := { taken := [], queued := [] },
    symOut := { taken := [], queued := [] }, tblOut := { taken := [], queued := [] }, depths := State.reset.depths,
    inbox := [], readData := 0#32, draws := 0 }

@[simp] theorem hostRead_session (off : BitVec 12) (s : State) : (hostRead off s).session = s.session := by
  unfold hostRead; split <;> rfl

@[simp] theorem latchOverrun_session (w : Word) (s : State) : (latchOverrun w s).session = s.session := by
  unfold latchOverrun; split <;> rfl

@[simp] theorem takeFrom_session (q : StreamId) (s : State) : (s.takeFrom q).session = s.session := by cases q <;> rfl

/-- The end of a command leaves the session alone or reports the lost word (R237). -/
theorem finish_session_cases (s : State) :
    (finish s).session = s.session ∨ ∃ u, u.session = s.session ∧ finish s = raise .overrun s.ovrWord u := by
  rcases finish_cases s with ⟨_, e⟩ | ⟨_, _, _, e⟩ | ⟨_, _, e⟩ <;> rw [e]
  · exact .inl rfl
  · exact .inr ⟨{ s with busy := false }, rfl, rfl⟩
  · exact .inl rfl

/-- Everything a step can do to the session: leave it, reset it, or end a command, whose word may just have been accepted. -/
theorem step_session_cases {s t : State} (h : step s = .next t) :
    t.session = s.session ∨ t.session = State.reset.session ∨
    ∃ u, u.session = s.session ∧ (t = finish u ∨ ∃ w, t = finish (acceptBody w u)) := by
  have accepted : ∀ {w u}, u.session = s.session → acceptCmd w u = .next t →
      t.session = State.reset.session ∨ ∃ u, u.session = s.session ∧ (t = finish u ∨ ∃ w, t = finish (acceptBody w u)) := by
    intro w u hu ha
    rcases acceptWord_cases w { u with busy := true } with ⟨_, _, e⟩ | ⟨_, e⟩
      <;> rw [acceptCmd, e] at ha <;> cases ha
    · exact .inl rfl
    · exact .inr ⟨{ u with busy := true }, hu, .inr ⟨w, rfl⟩⟩
  cases hi : s.inbox with
  | nil => rw [step_idle hi] at h; cases h; exact .inl rfl
  | cons e es =>
    rw [step_event hi] at h
    rcases hostEvent_cases e { s with inbox := es } with ⟨e, _⟩ | e | ⟨off, w, e, _⟩ | ⟨off, e, _⟩ | ⟨q, e, _⟩ | ⟨e, _⟩ |
      ⟨w, e, _⟩ | ⟨w, d, u, e, _, _, hu⟩ | ⟨w, d, u, e, _, _, _, hu⟩ <;> rw [e] at h
    · cases h
    · cases h
    · cases h; left; split
      · exact latchOverrun_session ..
      · rfl
    · cases h; exact .inl (hostRead_session ..)
    · cases h; unfold hostTake; split
      · exact .inr (.inr ⟨_, takeFrom_session q { s with inbox := es }, .inl rfl⟩)
      · exact .inl (takeFrom_session ..)
    · cases h; exact .inr (.inl rfl)
    · exact .inr (accepted (u := { s with inbox := es }) rfl h)
    · refine .inr (accepted (u := u) ?_ h)
      rcases hu with ⟨_, hu⟩ | ⟨_, rfl⟩
      · exact busyWindow_runs (P := fun v => v.session = s.session) (fun _ _ hv => by simpa using hv)
          (fun _ _ hv => by simpa using hv) (fun _ _ hv => by simpa using hv) hu rfl
      · rfl
    · cases h
      obtain ⟨_, v, es', rfl, _⟩ := busyWindow_abandoned hu
      exact .inr (.inl rfl)

/-- A property of the session alone that holds after reset, and that accepted words and the ends of commands keep, every step
keeps. -/
theorem step_keeps {P : State → Prop} (hsession : ∀ {s t}, t.session = s.session → P s → P t) (hreset : P State.reset)
    (hfinish : ∀ s, P s → P (finish s)) (hword : ∀ w s, P s → P (acceptBody w s)) {s t : State} (hs : P s)
    (h : step s = .next t) : P t := by
  rcases step_session_cases h with e | e | ⟨u, hu, rfl | ⟨w, rfl⟩⟩
  · exact hsession e hs
  · exact hsession e hreset
  · exact hfinish u (hsession hu hs)
  · exact hfinish _ (hword w u (hsession hu hs))

/-- What every step keeps holds after any number of steps. -/
theorem run_keeps {M : Host.Core} {P : M.State → Prop} (hstep : ∀ {s t}, P s → M.step s = .next t → P t) {n : Nat}
    {s t : M.State} (hs : P s) (h : M.run n s = .next t) : P t := by
  induction n generalizing s with
  | zero => cases h; exact hs
  | succ n ih =>
    rw [Host.Core.run] at h
    split at h
    · exact ih (hstep hs ‹_›) h
    · cases h
    · cases h

/-- Everything an accepted word can do before its command ends: be data, raise an error, be discarded, or be a legal command. -/
theorem acceptBody_cases (w : Word) (s : State) :
    (s.pend = true ∧ acceptBody w s = tloadData w s) ∨
    (∃ c info, c ≠ .none ∧ acceptBody w s = raise c info s) ∨
    (s.pend = false ∧ acceptBody w s = s) ∨
    (∃ i, s.pend = false ∧ i.wellFormed = true ∧ legal i s.phase = true ∧ acceptBody w s = effectOf i s) := by
  unfold acceptBody
  cases hp : s.pend
  case true => exact .inl ⟨rfl, rfl⟩
  by_cases he : s.phase = .error
  · exact .inr (.inr (.inl ⟨rfl, by simp [he]⟩))
  rcases hd : decodeCommand w with i | v | _ | _
  · cases hw : i.wellFormed
    · exact .inr (.inl ⟨.badCmd, encode i, by decide, by simp [he, hw]⟩)
    · cases hl : legal i s.phase
      · exact .inr (.inl ⟨.badSeq, encode i, by decide, by simp [he, hw, hl]⟩)
      · exact .inr (.inr (.inr ⟨i, rfl, hw, hl, by simp [he, hw, hl]⟩))
  · exact absurd hd (decodeCommand_ne_data w v)
  · exact .inr (.inl ⟨.badOpc, w, by decide, by simp [he]⟩)
  · exact .inr (.inl ⟨.badCmd, w, by decide, by simp [he]⟩)

/-! ## The status fields, the cursor and the TLOAD buffer (R25 to R28, R40, R41) -/

/-- The part of `StatusInv` that says nothing of BUSY and OVR, so that it also holds inside a command's BUSY window. -/
structure StatusCore (s : State) : Prop where
  pend_iff : s.pend = true ↔ s.pendw ≠ 0#4
  pendw_le : s.pendw.toNat ≤ 8
  pend_loading : s.pend = true → s.phase = .loading
  buffer : s.pend = true → s.tllen ≠ 0#8 ∧ s.tlbits.length + 32 * s.pendw.toNat = 32 * dataWords s.tllen.toNat
  errCode_iff : s.errCode = .none ↔ s.phase ≠ .error
  errInfo : s.phase ≠ .error → s.errInfo = 0#32
  cursor : s.cur ≠ [] → s.phase = .decoding ∨ s.phase = .error

theorem StatusInv.core {s : State} (h : StatusInv s) : StatusCore s :=
  ⟨h.pend_iff, h.pendw_le, h.pend_loading, h.buffer, h.errCode_iff, h.errInfo, h.cursor⟩

theorem StatusCore.of_session {s t : State} (h : t.session = s.session) (hs : StatusCore s) : StatusCore t :=
  have hs' : StatusCore s.session := ⟨hs.1, hs.2, hs.3, hs.4, hs.5, hs.6, hs.7⟩
  have ht : StatusCore t.session := h ▸ hs'
  ⟨ht.1, ht.2, ht.3, ht.4, ht.5, ht.6, ht.7⟩

theorem StatusCore.reset : StatusCore State.reset := by
  constructor <;> simp [State.reset]

/-- An error leaves the fields in order, whatever they were (R236). -/
theorem StatusCore.raise {c : ErrCode} (hc : c ≠ .none) (w : Word) (s : State) : StatusCore (raise c w s) := by
  constructor <;> simp [hc]

theorem StatusCore.finish {s : State} (h : StatusCore s) : StatusCore (finish s) := by
  rcases finish_session_cases s with e | ⟨u, _, e⟩
  · exact h.of_session e
  · rw [e]; exact .raise (by decide) ..

/-- A state with no data word owed that got to a new phase without an error. -/
theorem StatusCore.of_quiet {s t : State} (h : StatusCore s) (hp : s.pend = false) (he : s.phase ≠ .error)
    (h1 : t.pend = s.pend) (h2 : t.pendw = s.pendw) (h3 : t.errCode = s.errCode) (h4 : t.errInfo = s.errInfo)
    (h5 : t.phase ≠ .error) (h6 : t.cur ≠ [] → t.phase = .decoding) : StatusCore t := by
  have hw : s.pendw = 0#4 := by by_contra hw; simp [h.pend_iff.mpr hw] at hp
  constructor
  all_goals simp_all [h.errCode_iff.mpr he, h.errInfo he]

/-- Only in DECODING is the cursor off the root of a session without an error (R46). -/
theorem StatusCore.cur_nil {s : State} (h : StatusCore s) (hd : s.phase ≠ .decoding) (he : s.phase ≠ .error) : s.cur = [] := by
  by_contra hc
  exact (h.cursor hc).elim hd he

/-- A command legal in some phase is not met in ERROR (R112). -/
theorem not_error_of_legal {i : Instr} {p : Phase} (h : legal i p = true) : p ≠ .error := by
  rintro rfl; cases i <;> simp [legal] at h

/-- The start of a decode session leaves the status fields alone and the cursor at the root (R190, R200). -/
theorem startDecodeTree_frame (s : State) :
    (startDecodeTree s).pend = s.pend ∧ (startDecodeTree s).pendw = s.pendw ∧ (startDecodeTree s).errCode = s.errCode ∧
    (startDecodeTree s).errInfo = s.errInfo ∧ (s.cur = [] → (startDecodeTree s).cur = []) := by
  unfold startDecodeTree
  split
  · exact ⟨rfl, rfl, rfl, rfl, fun _ => rfl⟩
  · exact ⟨rfl, rfl, rfl, rfl, id⟩

theorem StatusCore.effectOf {i : Instr} {s : State} (h : StatusCore s) (hp : s.pend = false) (hw : i.wellFormed = true)
    (hl : legal i s.phase = true) : StatusCore (effectOf i s) := by
  have he := not_error_of_legal hl
  have root : legal i .decoding = false → s.cur = [] := fun hf =>
    h.cur_nil (fun e => by rw [e, hf] at hl; cases hl) he
  obtain ⟨f1, f2, f3, f4, f5⟩ := startDecodeTree_frame s
  cases i with
  | nop => exact h
  | srst => exact h
  | count sym =>
    simp only [Machine.effectOf, countSymbol]
    split
    · exact .raise (by decide) ..
    · exact h.of_quiet hp he rfl rfl rfl rfl (by simp) (absurd (root rfl))
  | build => exact h.of_quiet hp he rfl rfl rfl rfl (by simp [Machine.effectOf, buildEffect]) (absurd (root rfl))
  | gen => exact h.of_quiet hp he rfl rfl rfl rfl (by simp [Machine.effectOf, genEffect]) (absurd (root rfl))
  | enc sym =>
    simp only [Machine.effectOf, encodeSymbol]
    split
    · exact .raise (by decide) ..
    · exact h.of_quiet hp he rfl rfl rfl rfl he (absurd (root rfl))
  | tload len sym =>
    have hlen : len ≠ 0#8 := by simpa [Instr.wellFormed] using hw
    have hpos : 0 < dataWords len.toNat := dataWords_pos (by bv_omega)
    have hle : dataWords len.toNat ≤ 8 := dataWords_le (by omega)
    have hpw : pendWords len ≠ 0#4 := fun e => by
      have := pendWords_toNat len; rw [e] at this; simp at this; omega
    constructor <;> simp [Machine.effectOf, tloadHeader, hlen, hpw, hle, f3, f4, f5 (root rfl), h.errCode_iff.mpr he,
      h.errInfo he]
  | tfin => exact h.of_quiet hp he f1 f2 f3 f4 (by simp [Machine.effectOf, tfinEffect]) (fun _ => rfl)
  | dec nm1 bits =>
    have hd : s.phase = .decoding := by simpa [legal] using hl
    obtain ⟨out, cur, ⟨e, _⟩ | ⟨k, _, e⟩⟩ := decodeBits_cases (decBits nm1 bits) 0 s <;> rw [Machine.effectOf, e]
    · exact h.of_quiet hp he rfl rfl rfl rfl he (fun _ => hd)
    · exact .raise (by decide) ..
  | dfin =>
    simp only [Machine.effectOf, dfinEffect]
    split
    · exact .raise (by decide) ..
    · rename_i hc
      exact h.of_quiet hp he rfl rfl rfl rfl (by simp) (absurd (by simpa using hc))

/-- Everything a data word can do (R192): be one of several still owed, or be the last, whose entry is applied. -/
theorem tloadData_cases (w : Word) (s : State) :
    (s.pendw - 1#4 ≠ 0#4 ∧ tloadData w s = { s with tlbits := s.tlbits ++ wordBits w, pendw := s.pendw - 1#4 }) ∨
    (s.pendw - 1#4 = 0#4 ∧ tloadData w s = applyEntry s.tlsym ((s.tlbits ++ wordBits w).take s.tllen.toNat)
      { s with tlbits := s.tlbits ++ wordBits w, pendw := s.pendw - 1#4, pend := false }) := by
  unfold tloadData
  by_cases hw : s.pendw - 1#4 = 0#4
  · exact .inr ⟨hw, by simp [hw]⟩
  · exact .inl ⟨hw, by simp [hw]⟩

theorem StatusCore.tloadData {s : State} (w : Word) (h : StatusCore s) (hp : s.pend = true) : StatusCore (tloadData w s) := by
  have hph := h.pend_loading hp
  have he : s.phase ≠ .error := by simp [hph]
  have hw0 := h.pend_iff.mp hp
  have hw8 := h.pendw_le
  obtain ⟨hlen, hbuf⟩ := h.buffer hp
  have hdec : (s.pendw - 1#4).toNat + 1 = s.pendw.toNat := by bv_omega
  rcases tloadData_cases w s with ⟨hw, e⟩ | ⟨hw, e⟩ <;> rw [e]
  · exact ⟨by simp [hp, hw], by show (s.pendw - 1#4).toNat ≤ 8; omega, h.pend_loading,
      fun _ => ⟨hlen, by simp; omega⟩, h.errCode_iff, h.errInfo, h.cursor⟩
  · rcases applyEntry_cases s.tlsym ((s.tlbits ++ wordBits w).take s.tllen.toNat)
      { s with tlbits := s.tlbits ++ wordBits w, pendw := s.pendw - 1#4, pend := false } with
      ⟨c, hc, e⟩ | ⟨_, d, _, _, e⟩ <;> rw [e]
    · exact .raise (by rintro rfl; simp at hc) ..
    · exact ⟨by simp [hw], by simp [hw], by simp, by simp, h.errCode_iff, h.errInfo, h.cursor⟩

theorem StatusCore.acceptBody {s : State} (w : Word) (h : StatusCore s) : StatusCore (acceptBody w s) := by
  rcases acceptBody_cases w s with ⟨hp, e⟩ | ⟨c, info, hc, e⟩ | ⟨_, e⟩ | ⟨i, hp, hw, hl, e⟩ <;> rw [e]
  · exact h.tloadData w hp
  · exact .raise hc ..
  · exact h
  · exact h.effectOf hp hw hl

/-- A word accepted outside DECODING does not move the cursor off the root (R40). -/
theorem acceptBody_cur {s : State} (w : Word) (hd : s.phase ≠ .decoding) (hc : s.cur = []) : (acceptBody w s).cur = [] := by
  rcases acceptBody_cases w s with ⟨_, e⟩ | ⟨c, info, _, e⟩ | ⟨_, e⟩ | ⟨i, _, _, hl, e⟩ <;> rw [e]
  · obtain ⟨_, hcur, _⟩ := tloadData_frame w s
    rw [hcur, hc]
  · exact hc
  · exact hc
  · obtain ⟨_, _, _, _, hstart⟩ := startDecodeTree_frame s
    cases i with
    | nop | srst | build | gen => exact hc
    | count sym => simp only [effectOf, countSymbol]; split <;> exact hc
    | enc sym => simp only [effectOf, encodeSymbol]; split <;> exact hc
    | tload len sym => exact hstart hc
    | tfin => rfl
    | dec nm1 bits => exact absurd (by simpa [legal] using hl) hd
    | dfin => simp only [effectOf, dfinEffect]; split <;> exact hc

/-! ## The tables, the tree and the cursor in each phase (R24, R38, R46) -/

theorem SessionInv.of_session {s t : State} (h : t.session = s.session) (hs : SessionInv s) : SessionInv t :=
  have hs' : SessionInv s.session := sessionInv_congr hs rfl rfl rfl rfl rfl rfl rfl rfl rfl
  have ht : SessionInv t.session := h ▸ hs'
  sessionInv_congr ht rfl rfl rfl rfl rfl rfl rfl rfl rfl

theorem SessionInv.reset : SessionInv State.reset := ⟨⟨rfl, rfl, rfl⟩, ⟨rfl, rfl⟩, ⟨rfl, rfl⟩⟩

/-- What the session invariant says in a phase that is known. -/
theorem sessionInv_iff (s : State) : SessionInv s ↔
    (s.phase = .idle → EmptySession s ∧ NoCodes s ∧ NoTree s) ∧
    (s.phase = .counting → Counts s ∧ NoCodes s ∧ NoTree s) ∧
    (s.phase = .built → Counts s ∧ NoCodes s ∧ EncodeTree s) ∧
    (s.phase = .coded → Counts s ∧ EncodeTree s ∧ EncodeCodes s) ∧
    (s.phase = .loading → DecodeTree s) ∧
    (s.phase = .decoding → DecodeTree s ∧ s.root.InternalAt s.cur) ∧
    (s.phase = .done → DecodeTree s) := by
  unfold SessionInv
  cases s.phase <;> simp

theorem sessionInv_loading {s : State} (hp : s.phase = .loading) : SessionInv s ↔ DecodeTree s := by
  simp [SessionInv, hp]

theorem sessionInv_decoding {s : State} (hp : s.phase = .decoding) :
    SessionInv s ↔ DecodeTree s ∧ s.root.InternalAt s.cur := by
  simp [SessionInv, hp]

/-- A loaded entry keeps the decode tree (R193). -/
theorem DecodeTree.insert {s : State} {sym : Byte} {c : Bits} {d : Nat} (h : DecodeTree s) (hc0 : c ≠ [])
    (hc : c.length ≤ 255) (hnew : Table.get s.clen sym = 0#8) (hroom : entryWalk s.root c 0 = .room d)
    (hcap : s.nodes.toNat + (c.length - d) ≤ 511) :
    DecodeTree { s with
      root := s.root.insert c sym
      nodes := s.nodes + BitVec.ofNat 10 (c.length - d)
      clen := Table.set s.clen sym (BitVec.ofNat 8 c.length)
      code := Table.set s.code sym c
      nsym := s.nsym + 1#9 } := by
  obtain ⟨l, r, hr⟩ : ∃ l r, s.root = .internal l r := h.root
  have hfree : s.root.Free c := by rw [hr] at hroom ⊢; exact free_of_room hroom
  obtain ⟨hsize, _, hd⟩ := insert_size (s := sym) hroom (by simp [hr]) (by simp [hr])
  have hlen : BitVec.ofNat 8 c.length ≠ 0#8 := fun e => by
    have := List.length_pos_iff.mpr hc0
    have := congrArg BitVec.toNat e
    simp at this; omega
  have hnodes := h.nodes
  have hcount : (codedSymbols (Table.set s.clen sym (BitVec.ofNat 8 c.length))).length = (codedSymbols s.clen).length + 1 :=
    (counted_set s.clen 0#8 sym _ hlen).trans (by rw [if_pos hnew]; rfl)
  have hle : (codedSymbols s.clen).length ≤ 256 := filter_symbols_le _
  have hsum : s.nodes.toNat + (c.length - d) = (s.root.insert c sym).size := by omega
  refine ⟨h.freq, h.total, (insert_internal_iff hfree).mpr (.inr h.root), ?nodes, by simp only [Config.nodeCap]; omega, ?nsym,
    ?lens, ?leaf⟩
  case nodes => rw [← hsum, BitVec.toNat_add, BitVec.toNat_ofNat]; omega
  case nsym => rw [BitVec.toNat_add, h.nsym, hcount]; simp; omega
  case lens =>
    intro x
    simp only [Table.get_set]
    split
    · simp; omega
    · exact h.lens x
  case leaf =>
    intro x p
    rw [insert_leaf_iff hfree, h.leaf]
    simp only [Table.get_set]
    by_cases hx : sym = x
    · subst hx; simp [hnew, hlen]
    · simp [hx, Ne.symm hx]

/-- A walk from an internal node of a decode tree ends at one (R211). -/
theorem walk_ends_internal {t : HTree} (h0 : t.InternalAt []) {bs cur cur' : Bits} {out : List Byte}
    (hc : t.InternalAt cur) (h : walk t cur bs = some (out, cur')) : t.InternalAt cur' := by
  induction bs generalizing cur out with
  | nil => cases h; exact hc
  | cons b bs ih =>
    rw [walk] at h
    split at h
    · cases h
    · obtain ⟨⟨o, c⟩, hw, e⟩ := Option.map_eq_some_iff.mp h
      cases e
      exact ih h0 hw
    · rename_i l r hn
      exact ih ⟨l, r, hn⟩ h

/-- A decode session starts from IDLE and goes on from LOADING with the decode tree it needs (R190, R200). -/
theorem DecodeTree.start {s : State} (h : SessionInv s) (hp : s.phase = .idle ∨ s.phase = .loading) :
    DecodeTree (startDecodeTree s) := by
  unfold startDecodeTree
  rcases hp with hp | hp
  · obtain ⟨he, hc, _⟩ := ((sessionInv_iff s).mp h).1 hp
    rw [if_pos hp]
    exact decodeTree_fresh he hc rfl rfl rfl rfl rfl rfl rfl
  · rw [if_neg (by simp [hp])]
    exact (sessionInv_loading hp).mp h

theorem DecodeTree.congr {s t : State} (h : DecodeTree s) (h1 : t.freq = s.freq) (h2 : t.total = s.total)
    (h3 : t.nsym = s.nsym) (h4 : t.nodes = s.nodes) (h5 : t.root = s.root) (h6 : t.clen = s.clen) (h7 : t.code = s.code) :
    DecodeTree t := 
  ⟨by rw [h1, h.freq], by rw [h2, h.total], by rw [h5]; exact h.root, by rw [h4, h5, h.nodes], by rw [h5]; exact h.cap,
    by rw [h3, h6, h.nsym], by rw [h6, h7]; exact h.lens, by rw [h5, h6, h7]; exact h.leaf⟩

theorem SessionInv.effectOf {i : Instr} {s : State} (h : SessionInv s) (hl : legal i s.phase = true) :
    SessionInv (effectOf i s) := by
  obtain ⟨idle, counting, built, _, _, decoding, _⟩ := (sessionInv_iff s).mp h
  have uncoded : s.phase = .idle ∨ s.phase = .counting → Counts s ∧ NoCodes s ∧ NoTree s := fun hp =>
    hp.elim (fun e => (idle e).imp_left counts_empty) counting
  cases i with
  | nop => exact h
  | srst => exact h
  | count sym =>
    obtain ⟨hc, hn, ht⟩ := uncoded (by simpa [legal] using hl)
    simp only [Machine.effectOf, countSymbol]
    split
    · exact sessionInv_error rfl
    · exact ⟨counts_count hc ‹_›, ⟨hn.clen, hn.code⟩, ⟨ht.root, ht.nodes⟩⟩
  | build =>
    obtain ⟨hc, hn, _⟩ := uncoded (by simpa [legal] using hl)
    exact ⟨⟨hc.total, hc.nsym⟩, ⟨hn.clen, hn.code⟩, encodeTree_build⟩
  | gen =>
    obtain ⟨hc, hn, ht⟩ := built (by simpa [legal] using hl)
    exact ⟨⟨hc.total, hc.nsym⟩, ⟨ht.empty, ht.full, ht.nodup, ht.mem, ht.nodes⟩, encodeCodes_gen ht hn⟩
  | enc sym =>
    simp only [Machine.effectOf, encodeSymbol]
    split
    · exact sessionInv_error rfl
    · exact sessionInv_congr h rfl rfl rfl rfl rfl rfl rfl rfl rfl
  | tload len sym =>
    have hd := DecodeTree.start h (by simpa [legal] using hl)
    exact hd.congr rfl rfl rfl rfl rfl rfl rfl
  | tfin =>
    have hd := DecodeTree.start h (by simpa [legal] using hl)
    exact ⟨hd.congr rfl rfl rfl rfl rfl rfl rfl, hd.root⟩
  | dec nm1 bits =>
    have hp : s.phase = .decoding := by simpa [legal] using hl
    obtain ⟨hd, hi⟩ := decoding hp
    obtain ⟨out, cur, ⟨e, hw⟩ | ⟨k, _, e⟩⟩ := decodeBits_cases (decBits nm1 bits) 0 s <;> rw [Machine.effectOf, e]
    · exact (sessionInv_decoding (s := afterWalk s out cur) hp).mpr
        ⟨hd.congr rfl rfl rfl rfl rfl rfl rfl, walk_ends_internal hd.root hi hw⟩
    · exact sessionInv_error rfl
  | dfin =>
    obtain ⟨hd, _⟩ := decoding (by simpa [legal] using hl)
    simp only [Machine.effectOf, dfinEffect]
    split
    · exact sessionInv_error rfl
    · exact hd.congr rfl rfl rfl rfl rfl rfl rfl

theorem SessionInv.tloadData {s : State} (w : Word) (hs : StatusCore s) (h : SessionInv s) (hp : s.pend = true) :
    SessionInv (tloadData w s) := by
  have hph := hs.pend_loading hp
  have hd : DecodeTree s := (sessionInv_loading hph).mp h
  obtain ⟨hlen, hbuf⟩ := hs.buffer hp
  rcases tloadData_cases w s with ⟨_, e⟩ | ⟨hw, e⟩ <;> rw [e]
  · exact sessionInv_congr h rfl rfl rfl rfl rfl rfl rfl rfl rfl
  · have hone : s.pendw.toNat = 1 := by bv_omega
    have hcode : ((s.tlbits ++ wordBits w).take s.tllen.toNat).length = s.tllen.toNat := by
      simp [dataWords] at hbuf ⊢; omega
    generalize (s.tlbits ++ wordBits w).take s.tllen.toNat = c at hcode
    rcases applyEntry_cases s.tlsym c { s with tlbits := s.tlbits ++ wordBits w, pendw := s.pendw - 1#4, pend := false } with
      ⟨_, _, e⟩ | ⟨hnew, d, hroom, hcap, e⟩ <;> rw [e]
    · exact sessionInv_error rfl
    · have hc0 : c ≠ [] := by rintro rfl; simp at hcode; bv_omega
      have hd' := hd.insert hc0 (by omega) hnew hroom hcap
      refine (sessionInv_loading ?_).mpr (hd'.congr rfl rfl rfl rfl rfl rfl rfl)
      exact hph

theorem SessionInv.acceptBody {s : State} (w : Word) (hs : StatusCore s) (h : SessionInv s) : SessionInv (acceptBody w s) := by
  rcases acceptBody_cases w s with ⟨hp, e⟩ | ⟨c, info, _, e⟩ | ⟨_, e⟩ | ⟨i, _, _, hl, e⟩ <;> rw [e]
  · exact h.tloadData w hs hp
  · exact sessionInv_error rfl
  · exact h
  · exact h.effectOf hl

/-! ## The six invariants (R46) -/

/-- What holds between steps of every run: the status fields are in order, and the session is what its phase says. -/
def Sound (s : State) : Prop := StatusCore s ∧ SessionInv s

theorem step_sound {s t : State} (hs : Sound s) (h : step s = .next t) : Sound t :=
  step_keeps (P := Sound) (fun e hs => ⟨hs.1.of_session e, hs.2.of_session e⟩) ⟨.reset, .reset⟩
    (fun _ hs => ⟨hs.1.finish, sessionInv_finish hs.2⟩)
    (fun w _ hs => ⟨hs.1.acceptBody w, hs.2.acceptBody w hs.1⟩) hs h

/-- A full tree has one internal node fewer than leaves (R144). -/
theorem full_internals {t : HTree} (h : t.full = true) : t.internals + 1 = t.leaves.length := by
  induction t with
  | empty => simp [HTree.full] at h
  | leaf s => rfl
  | internal l r ihl ihr =>
    simp only [HTree.full, Bool.and_eq_true] at h
    obtain ⟨hl, hr⟩ := h
    have := ihl hl
    have := ihr hr
    simp [HTree.internals, HTree.leaves]; omega

theorem Sound.r46 {s : State} (hs : Sound s) : R46Invariants s := by
  obtain ⟨hst, hse⟩ := hs
  obtain ⟨idle, counting, built, coded, loading, decoding, done⟩ := (sessionInv_iff s).mp hse
  have encodeTree : s.phase = .built ∨ s.phase = .coded → Counts s ∧ EncodeTree s := by
    rintro (hp | hp)
    · obtain ⟨hc, _, ht⟩ := built hp; exact ⟨hc, ht⟩
    · obtain ⟨hc, ht, _⟩ := coded hp; exact ⟨hc, ht⟩
  refine ⟨fun hp => ?counts, fun hp => ?tree, fun hp => ?codes, fun hp => ?loaded, hst.pend_loading,
    fun hp => (decoding hp).2, hst.cur_nil⟩
  case counts =>
    have hc : Counts s := by
      rcases hp with hp | hp | hp
      · exact counts_empty (idle hp).1
      · exact (counting hp).1
      · exact (encodeTree hp).1
    exact ⟨hc.total, hc.nsym⟩
  case tree =>
    obtain ⟨hc, ht⟩ := encodeTree hp
    have hleaves : s.root.leaves.length = s.nsym.toNat := by rw [(leaves_counted ht).length_eq, hc.nsym]
    refine ⟨fun h1 => ⟨hleaves, ?_⟩, fun h0 => ht.empty ?_⟩
    · rw [← hleaves]
      refine full_internals (ht.full fun e => ?_)
      rw [hc.nsym, e] at h1; simp at h1
    · rw [hc.nsym] at h0; exact List.length_eq_zero_iff.mp h0
  case codes =>
    obtain ⟨hc, ht, hk⟩ := coded hp
    have hiff : ∀ x, Table.get s.clen x ≠ 0#8 ↔ Table.get s.freq x ≠ 0#32 := fun x => by
      refine ⟨fun h hf => h (hk.uncoded x hf).2, fun hf h => ?_⟩
      obtain ⟨p, _, _, hlen, hpos, _⟩ := coded_facts hc ht hk x hf
      rw [h] at hlen; simp at hlen; omega
    refine ⟨hiff, fun x y hxy hx hy => ?_⟩
    obtain ⟨p, hp, rfl, _⟩ := coded_facts hc ht hk x ((hiff x).mp hx)
    obtain ⟨q, hq, rfl, _⟩ := coded_facts hc ht hk y ((hiff y).mp hy)
    exact genEntries_prefix_free hxy ht.nodup hp hq
  case loaded =>
    have hd : DecodeTree s := by
      rcases hp with hp | hp | hp
      · exact loading hp
      · exact (decoding hp).1
      · exact done hp
    exact ⟨hd.nsym, fun x hx => (hd.leaf x _).mpr ⟨hx, rfl⟩, fun x p => (hd.leaf x p).mp⟩

/-- An ERROR that was not entered from DECODING has its cursor at the root (R46, item 6). -/
theorem step_error_cur {s t : State} (hs : StatusCore s) (hd : s.phase ≠ .decoding) (he : s.phase ≠ .error)
    (h : step s = .next t) : t.cur = [] := by
  have hc := hs.cur_nil hd he
  rcases step_session_cases h with e | e | ⟨u, hu, ht⟩
  · exact (congrArg State.cur e).trans hc
  · exact congrArg State.cur e
  · have hcur : u.cur = [] := (congrArg State.cur hu).trans hc
    have hph : u.phase = s.phase := (congrArg State.phase hu :)
    rcases ht with rfl | ⟨w, rfl⟩
    · rw [finish_cur, hcur]
    · rw [finish_cur, acceptBody_cur w (hph ▸ hd) hcur]

/-- Settles O58: the status fields and the session invariant hold at reset and every step keeps them, whatever the host does; the
six invariants are read off them. -/
theorem specInvariantsHoldBetweenSteps : Obligations.SpecInvariantsHoldBetweenSteps := by
  intro es d n t h
  have hreset : Sound { State.reset with inbox := es, depths := d } :=
    ⟨.of_session (s := State.reset) rfl .reset, .of_session (s := State.reset) rfl .reset⟩
  have hs : Sound t := run_keeps (M := Sys2Proof.core) (P := Sound) step_sound hreset h
  exact ⟨hs.r46, fun u hu hd he _ => step_error_cur hs.1 hd he hu⟩

end Sys2Proof.Machine
end

section
/-! SUPPORT. The register port (R20, R50 to R60): which register an offset names, what a read returns of it, and what an admitted
access does to the state. -/

namespace Sys2Proof.Machine

/-! ## The register map (R20) -/

/-- F[x] stands at 0x400 + 4x. -/
@[simp] theorem regAt_freq (x : Byte) : regAt (BitVec.ofNat 12 (0x400 + 4 * x.toNat)) = .freq x := by
  have hx : x.toNat < 256 := x.isLt
  have ho : (BitVec.ofNat 12 (0x400 + 4 * x.toNat)).toNat = 0x400 + 4 * x.toNat := by rw [BitVec.toNat_ofNat]; omega
  rw [regAt, ho, if_pos (by omega), Nat.add_sub_cancel_left, Nat.mul_div_cancel_left _ (by decide), BitVec.ofNat_toNat,
    BitVec.setWidth_eq]

/-- CLEN[x] stands at 0x800 + 4x. -/
@[simp] theorem regAt_clen (x : Byte) : regAt (BitVec.ofNat 12 (0x800 + 4 * x.toNat)) = .clen x := by
  have hx : x.toNat < 256 := x.isLt
  have ho : (BitVec.ofNat 12 (0x800 + 4 * x.toNat)).toNat = 0x800 + 4 * x.toNat := by rw [BitVec.toNat_ofNat]; omega
  rw [regAt, ho, if_neg (by omega), if_pos (by omega), Nat.add_sub_cancel_left, Nat.mul_div_cancel_left _ (by decide),
    BitVec.ofNat_toNat, BitVec.setWidth_eq]

/-- The offsets between SYMCNT and F[0], and those above CLEN[255], are reserved. -/
theorem regAt_reserved {off : BitVec 12} (h : (0x028 ≤ off.toNat ∧ off.toNat < 0x400) ∨ 0xC00 ≤ off.toNat) :
    regAt off = .reserved := by
  have hrow : 10 ≤ off.toNat / 4 := by omega
  obtain ⟨n, hn⟩ := Nat.exists_eq_add_of_le' hrow
  rw [regAt, if_neg (by omega), if_neg (by omega), hn]
  rfl

/-! ## What a read returns (R52, R60) -/

/-- STATUS as the sum of its fields at their places (R23). -/
theorem statusWord_eq (s : State) : statusWord s = BitVec.ofNat 32 ((phaseBits s.phase).toNat + 16 * s.busy.toNat +
    32 * s.pend.toNat + 256 * s.pendw.toNat + 65536 * (errCodeBits s.errCode).toNat) := by
  have hb := s.busy.toNat_lt
  have hp := s.pend.toNat_lt
  apply BitVec.eq_of_toNat_eq
  simp only [statusWord, append_toNat, BitVec.toNat_ofNat, BitVec.toNat_ofBool]
  omega

/-- Whatever is drawn, a register shows only bits it uses while BUSY = 1 (R60). -/
theorem busyReadReg_and_usedBits (v : Word) (r : Reg) : busyReadReg v r &&& usedBits r = busyReadReg v r := by
  have hmask (u : Word) : v &&& u &&& u = v &&& u := by rw [BitVec.and_assoc, BitVec.and_self]
  cases r with
  | id => exact BitVec.and_allOnes
  | status => rw [busyReadReg, BitVec.and_or_distrib_right, hmask]; rfl
  | _ => exact hmask _

theorem busyReadReg_le (v : Word) (r : Reg) : (busyReadReg v r).toNat ≤ (usedBits r).toNat := by
  rw [← busyReadReg_and_usedBits, BitVec.toNat_and]
  exact Nat.and_le_right

/-- Bits that a register does not use read as 0 while BUSY = 1. -/
theorem busyReadReg_and_unused {r : Reg} {m : Word} (v : Word) (h : usedBits r &&& m = 0#32) : busyReadReg v r &&& m = 0#32 := by
  rw [← busyReadReg_and_usedBits, BitVec.and_assoc, h, BitVec.and_zero]

theorem busyReadReg_status_busy (v : Word) : (busyReadReg v .status).getLsbD 4 = true := by
  rw [busyReadReg, BitVec.getLsbD_or]
  exact Bool.or_true _

/-! ## Admitted accesses (R52, R54, R55) -/

theorem admitted_w32 {off : BitVec 12} (h : off.toNat % 4 = 0) : admitted off .w32 = true := by simp [admitted, h]

theorem hostAct_read_w32 {off : BitVec 12} (h : off.toNat % 4 = 0) (s : State) :
    hostAct (.read off .w32) s = .next (hostRead off s) := by rw [hostAct, if_pos (admitted_w32 h)]

theorem hostAct_write_w32 {off : BitVec 12} (h : off.toNat % 4 = 0) (w : Word) (s : State) :
    hostAct (.write off .w32 w) s = hostWrite off w s := by rw [hostAct, if_pos (admitted_w32 h)]

theorem hostRead_idle {s : State} (h : s.busy = false) (off : BitVec 12) :
    hostRead off s = { s with readData := regRead s off } := by simp [hostRead, h]

theorem hostRead_busy {s : State} (h : s.busy = true) (off : BitVec 12) : hostRead off s =
    { s with readData := busyReadReg (Config.busyRead s.draws) (regAt off), draws := s.draws + 1 } := by
  rw [hostRead, if_pos h]

/-- A write to any offset but CMD is ignored, BUSY or not (R54). -/
theorem hostWrite_ignored {off : BitVec 12} (h : off ≠ cmdOffset) (w : Word) (s : State) : hostWrite off w s = .next s := by
  rw [hostWrite, if_neg h]

/-- An aligned read at BUSY = 0 gives the register map's value and changes nothing else (R52). -/
theorem hostAct_read_idle {s : State} {off : BitVec 12} (hb : s.busy = false) (h : off.toNat % 4 = 0) :
    hostAct (.read off .w32) s = .next { s with readData := regRead s off } := by
  rw [hostAct_read_w32 h, hostRead_idle hb]

theorem regRead_reserved {off : BitVec 12} (h : (0x028 ≤ off.toNat ∧ off.toNat < 0x400) ∨ 0xC00 ≤ off.toNat) (s : State) :
    regRead s off = 0#32 := by rw [regRead, regAt_reserved h]; rfl

/-! ## The statements -/

/-- Settles O43: the value of each row of the register map, and the frame of a read. -/
theorem registerReads : Obligations.RegisterReads := by
  refine ⟨fun s => ⟨rfl, rfl, statusWord_eq s, rfl, ?nsym, rfl, ?nodes, ?depth, rfl, rfl, fun x => ?freq, fun x => ?clen,
    fun off _ hr => regRead_reserved hr s⟩, fun s off hb ha => hostAct_read_idle hb ha⟩
  case nsym => exact BitVec.toNat_setWidth_of_le (by decide)
  case nodes => exact BitVec.toNat_setWidth_of_le (by decide)
  case depth =>
    change (BitVec.ofNat 8 s.cur.length).setWidth 32 = _
    apply BitVec.eq_of_toNat_eq
    simp
  case freq => rw [regRead, regAt_freq]; rfl
  case clen => rw [regRead, regAt_clen]; exact BitVec.toNat_setWidth_of_le (by decide)

/-- Settles O44: a register's unused bits are masked off the drawn word, so only STATUS.BUSY and ID are said more of. -/
theorem readsWhileBusy : Obligations.ReadsWhileBusy := by
  intro s off hb ha
  have hle := busyReadReg_le (Config.busyRead s.draws)
  refine ⟨_, by rw [hostAct_read_w32 ha, hostRead_busy hb], ?id, ?status, ?nsym, ?nodes, ?depth, fun x => ?clen, fun hr => ?reserved⟩
  case id => rintro rfl; rfl
  case status => rintro rfl; exact ⟨busyReadReg_status_busy _, busyReadReg_and_unused _ (r := .status) (by decide)⟩
  case nsym => rintro rfl; exact (hle .nsym).trans_lt (by decide)
  case nodes => rintro rfl; exact (hle .nodes).trans_lt (by decide)
  case depth => rintro rfl; exact (hle .depth).trans_lt (by decide)
  case clen => rintro rfl; rw [regAt_clen]; exact (hle (.clen x)).trans_lt (show 0xFF < 2 ^ 8 by decide)
  case reserved => rw [regAt_reserved hr]; exact BitVec.and_zero

/-- Settles O45: only CMD's offset takes a write; a read of a reserved offset gives 0. -/
theorem otherWritesAreIgnored : Obligations.OtherWritesAreIgnored := by
  refine ⟨fun s off w ha hc => ?write, fun s off ha hr hb => ?read⟩
  case write => rw [hostAct_write_w32 ha, hostWrite_ignored hc]
  case read => rw [hostAct_read_idle hb ha, regRead_reserved hr]

end Sys2Proof.Machine
end

section
/-! SUPPORT. The three kinds of words (R86), the bits that data words carry (R84, R192), and the bits a DEC consumes (R85). -/

namespace Sys2Proof

open Machine

/-! ## Which command a word is (R81, R86) -/

/-- A decoding result gives back the word it was read from, as a well-formed command. -/
def ReadsBack (w : Word) (d : Decoded) : Prop := ∃ i : Instr, i.wellFormed = true ∧ encode i = w ∧ d = .instr i

theorem readsBack_of_toNat {w : Word} {i : Instr} (hi : i.wellFormed = true) (h : (encode i).toNat = w.toNat) :
    ReadsBack w (.instr i) := ⟨i, hi, BitVec.eq_of_toNat_eq h, rfl⟩

/-! Each format, when its reserved fields are 0. -/

theorem decodeZ_readsBack {w : Word} {i : Instr} (hi : i.wellFormed = true) (he : (encode i).toNat = opcOf w * 2 ^ 28)
    (hr : fieldOf w 0 28 = 0) : ReadsBack w (decodeZ w i) := by
  rw [decodeZ_eq, if_pos hr]
  refine readsBack_of_toNat hi ?_
  simp only [opcOf, fieldOf] at he hr
  omega

theorem decodeS_readsBack {w : Word} {f : Byte → Instr} (hi : ∀ sym, (f sym).wellFormed = true)
    (he : ∀ sym, (encode (f sym)).toNat = opcOf w * 2 ^ 28 + sym.toNat) (hr : fieldOf w 8 20 = 0) :
    ReadsBack w (decodeS w f) := by
  rw [decodeS_eq, if_pos hr]
  refine readsBack_of_toNat (hi _) ?_
  rw [he, symField_toNat]
  simp only [opcOf, fieldOf] at hr ⊢
  omega

theorem decodeT_readsBack {w : Word} (ho : opcOf w = 6) (hr : fieldOf w 16 12 = 0) (hl : fieldOf w 8 8 ≠ 0) :
    ReadsBack w (decodeT w) := by
  rw [decodeT_eq, if_pos ⟨hr, hl⟩]
  refine readsBack_of_toNat ?_ ?_
  · rw [← lenField_toNat] at hl
    simpa [Instr.wellFormed, BitVec.toNat_eq] using hl
  · simp only [encode_toNat, lenField_toNat, symField_toNat]
    simp only [opcOf, fieldOf] at ho hr ⊢
    omega

theorem decodeD_readsBack {w : Word} (ho : opcOf w = 8) (hr : fieldOf w 20 8 = 0) : ReadsBack w (decodeD w) := by
  rw [decodeD_eq, if_pos hr]
  refine readsBack_of_toNat rfl ?_
  simp only [encode_toNat, nm1Field_toNat, bitsField_toNat]
  simp only [opcOf, fieldOf] at ho hr ⊢
  omega

/-- A word whose reserved fields are 0 and, for a TLOAD, whose LEN is not, is the word of a well-formed command (R86). -/
theorem decodeCommand_readsBack {w : Word} (ho : opcOf w ≤ 9) (hr : reservedZero w) (hl : opcOf w = 6 → fieldOf w 8 8 ≠ 0) :
    ReadsBack w (decodeCommand w) := by
  rw [decodeCommand_eq]
  generalize he : opcOf w = o at ho hl
  unfold reservedZero at hr
  rw [he] at hr
  match o, ho with
  | 0, _ | 1, _ | 3, _ | 4, _ | 7, _ | 9, _ => exact decodeZ_readsBack rfl (by simp [encode_toNat, he]) hr
  | 2, _ | 5, _ => exact decodeS_readsBack (fun _ => rfl) (fun sym => by simp [encode_toNat, he]) hr
  | 6, _ => exact decodeT_readsBack he hr (hl rfl)
  | 8, _ => exact decodeD_readsBack he hr

/-- OPC above 9 is no command's (R86). -/
theorem decodeCommand_badOpc {w : Word} (h : 9 < opcOf w) : decodeCommand w = .badOpc := by
  obtain ⟨n, hn⟩ := Nat.exists_eq_add_of_le' h
  rw [decodeCommand_eq, hn]
  rfl

/-! ## The bits of a list of words (R84) -/

/-- Bit i of a list of words, most significant first, is D(i div 32)[31 - (i mod 32)]; beyond the last word there are none. -/
theorem flatMap_wordBits_getD (ds : List Word) (i : Nat) :
    (ds.flatMap wordBits).getD i false = (ds.getD (i / 32) 0#32).getLsbD (31 - i % 32) := by
  induction ds generalizing i with
  | nil => simp
  | cons d ds ih =>
    rw [List.flatMap_cons]
    by_cases hi : i < 32
    · rw [List.getD_append _ _ _ _ (by simpa using hi), List.getD_eq_getElem _ _ (by simpa using hi), wordBits_getElem,
        Nat.div_eq_of_lt hi, Nat.mod_eq_of_lt hi, List.getD_cons_zero]
    · obtain ⟨k, rfl⟩ := Nat.exists_eq_add_of_le' (Nat.le_of_not_lt hi)
      rw [List.getD_append_right _ _ _ _ (by simp), wordBits_length, Nat.add_sub_cancel, ih,
        Nat.add_div_right _ (by decide), Nat.add_mod_right, List.getD_cons_succ]

/-- The first n bits of a list of words, by the formula of R84. -/
theorem flatMap_wordBits_take {ds : List Word} {n : Nat} (h : n ≤ 32 * ds.length) :
    (ds.flatMap wordBits).take n = (List.range n).map fun i => (ds.getD (i / 32) 0#32).getLsbD (31 - i % 32) := by
  have hlen : (ds.flatMap wordBits).length = 32 * ds.length := by simp [List.length_flatMap, Nat.mul_comm]
  apply List.ext_getElem
  · simp [hlen, h]
  · intro i _ _
    rw [List.getElem_take, List.getElem_map, List.getElem_range, ← flatMap_wordBits_getD, List.getD_eq_getElem]

/-- Bit i of a packed code, by the formula of R84: the code's bit, or 0 beyond its last. -/
theorem packCode_getD (c : Bits) (i : Nat) :
    ((packCode c).getD (i / 32) 0#32).getLsbD (31 - i % 32) = c.getD i false := by
  rw [← flatMap_wordBits_getD, packCode_bits]
  by_cases hi : i < c.length
  · exact List.getD_append _ _ _ _ hi
  · have hi := Nat.le_of_not_lt hi
    rw [List.getD_append_right _ _ _ _ hi, List.getD_eq_default _ _ hi, List.getD_eq_getElem?_getD,
      List.getElem?_getD_replicate_default_eq]

end Sys2Proof

namespace Sys2Proof.Machine

/-! ## TLOAD's data words (R191, R192) -/

theorem applyEntry_ovr {sym : Byte} {c : Bits} {s : State} (h : s.ovr = false) : (applyEntry sym c s).ovr = false := by
  rcases applyEntry_cases sym c s with ⟨_, _, e⟩ | ⟨_, _, _, _, e⟩ <;> rw [e]
  · rfl
  · exact h

theorem applyEntry_stalled (sym : Byte) (c : Bits) (s : State) : (applyEntry sym c s).stalled = s.stalled := by
  rcases applyEntry_cases sym c s with ⟨_, _, e⟩ | ⟨_, _, _, _, e⟩ <;> rw [e] <;> rfl

/-- The session once a data word that is not the last owed has come: the word is buffered (R192). -/
def State.bufferWord (s : State) (w : Word) : State :=
  { s with tlbits := s.tlbits ++ wordBits w, pendw := s.pendw - 1#4, busy := false }

theorem acceptWord_data_more {s : State} (w : Word) (hp : s.pend = true) (ho : s.ovr = false) (hs : s.stalled = false)
    (hw : s.pendw - 1#4 ≠ 0#4) : acceptWord w s = .next (s.bufferWord w) := by
  rw [acceptWord_data w hp, tloadData, if_neg hw]
  exact congrArg _ (finish_quiet ho hs)

/-- The session once the data words `ds` have come and none is owed any more: the entry they complete is applied (R192). -/
def State.loadEntry (s : State) (ds : List Word) : State :=
  { applyEntry s.tlsym ((s.tlbits ++ ds.flatMap wordBits).take s.tllen.toNat)
      { s with pend := false, pendw := 0#4, tlbits := s.tlbits ++ ds.flatMap wordBits } with busy := false }

theorem acceptWord_data_last {s : State} (w : Word) (hp : s.pend = true) (ho : s.ovr = false) (hs : s.stalled = false)
    (hw : s.pendw - 1#4 = 0#4) : acceptWord w s = .next (s.loadEntry [w]) := by
  rw [acceptWord_data w hp, tloadData, if_pos hw,
    finish_quiet (applyEntry_ovr (by exact ho)) (by rw [applyEntry_stalled]; exact hs), hw, State.loadEntry, List.flatMap_singleton]

/-- Words buffered one by one complete the same entry. -/
theorem loadEntry_bufferWord (s : State) (w : Word) (ds : List Word) :
    (s.bufferWord w).loadEntry ds = s.loadEntry (w :: ds) := by
  simp only [State.loadEntry, State.bufferWord, List.flatMap_cons, List.append_assoc]
  exact applyEntry_busy s.tlsym _
    { s with pend := false, pendw := 0#4, tlbits := s.tlbits ++ (wordBits w ++ ds.flatMap wordBits) } false

/-- The data words owed, accepted one after another, complete the entry. -/
theorem acceptWords_data {s : State} {ds : List Word} (hp : s.pend = true) (ho : s.ovr = false) (hs : s.stalled = false)
    (hd : ds ≠ []) (hn : ds.length = s.pendw.toNat) : acceptWords ds s = .next (s.loadEntry ds) := by
  induction ds generalizing s with
  | nil => exact absurd rfl hd
  | cons d ds ih =>
    rw [List.length_cons] at hn
    have hdec : ds.length = (s.pendw - 1#4).toNat := by bv_omega
    by_cases hw : s.pendw - 1#4 = 0#4
    · obtain rfl : ds = [] := List.length_eq_zero_iff.mp (by rw [hdec, hw]; rfl)
      rw [acceptWords_cons [] (acceptWord_data_last d hp ho hs hw), acceptWords_nil]
    · have hne : ds ≠ [] := by rintro rfl; exact hw (BitVec.eq_of_toNat_eq hdec.symm)
      rw [acceptWords_cons ds (acceptWord_data_more d hp ho hs hw),
        ih (s := s.bufferWord d) hp ho hs hne hdec, loadEntry_bufferWord]

/-! ## DEC (R85) -/

/-- BITS is the low half of a DEC's word. -/
theorem encode_dec_getLsbD (n : BitVec 4) (b : BitVec 16) {k : Nat} (h : k < 16) :
    (encode (.dec n b)).getLsbD k = b.getLsbD k := by
  rw [encode, BitVec.getLsbD_append, if_pos h]

/-- A DEC reads of BITS only the bits it consumes. -/
theorem decBits_congr {n : BitVec 4} {b b' : BitVec 16} (h : ∀ j, j ≤ n.toNat → b.getLsbD (15 - j) = b'.getLsbD (15 - j)) :
    decBits n b = decBits n b' :=
  List.map_congr_left fun j hj => h j (Nat.le_of_lt_succ (List.mem_range.mp hj))

/-- In DECODING a DEC walks over the bits it consumes (R210). -/
theorem exec_dec {s : State} (n : BitVec 4) (b : BitVec 16) (hp : s.pend = false) (hd : s.phase = .decoding) :
    exec (.dec n b) s = .next (finish (decodeBits (decBits n b) 0 s)) :=
  command_runs (decodeBits (decBits n b) 0) hp rfl (by rw [hd]; rfl)

/-! ## The statements -/

/-- Settles O4: one lemma on the decoder for each kind of word. -/
theorem everyWordIsOneOfThreeKinds : Obligations.EveryWordIsOneOfThreeKinds := by
  refine ⟨fun w s hs he => ⟨fun ho => ?badOpc, fun ho hr => acceptWord_badCmd_ready hs he ho hr, fun ho hr hl => ?command⟩,
    fun w => rfl⟩
  case badOpc => rw [acceptWord_badOpc hs.pend (decodeCommand_badOpc ho), rejectWord_ready hs.stalled he]
  case command =>
    obtain ⟨i, hi, hw, hd⟩ := decodeCommand_readsBack ho hr hl
    exact ⟨i, hi, hw, acceptWord_instr hs.pend hd⟩

/-- Settles O5: the words owed complete the entry, whose code is their first LEN bits; and packing is read back bit by bit. -/
theorem dataWordsCarryTheCode : Obligations.DataWordsCarryTheCode := by
  refine ⟨fun s ds hp ho hs ht hl hw hd => ?input, fun c => ⟨packCode_length c, fun i _ => packCode_getD c i, fun i hi => ?unused⟩⟩
  case input =>
    rw [acceptWords_data hp ho hs (by rintro rfl; simp at hd; omega) (hd.trans hw.symm), State.loadEntry, ht, List.nil_append,
      flatMap_wordBits_take (by omega)]
  case unused => rw [packCode_getD, List.getD_eq_default _ _ hi]

/-- Settles O6: the bits a DEC consumes are those of its word, and what it does depends on BITS through them alone. -/
theorem decIgnoresLowBits : Obligations.DecIgnoresLowBits := by
  refine ⟨fun n b => ?order, fun n b b' s hp hd h => ?effect⟩
  case order => exact List.map_congr_left fun j _ => (encode_dec_getLsbD n b (by omega)).symm
  case effect => rw [exec_dec n b hp hd, exec_dec n b' hp hd, decBits_congr h]

end Sys2Proof.Machine
end

section
/-! SUPPORT. The step of every command (R110 to R116): the phase table, what ERROR discards, NOP and SRST. -/

namespace Sys2Proof.Machine

/-! ## The phase table (R113) -/

/-- The phase a legal command leaves when it raises no error. -/
def nextPhase : Instr → Phase → Phase
  | .nop, p => p
  | .srst, _ => .idle
  | .count _, _ => .counting
  | .build, _ => .built
  | .gen, _ => .coded
  | .enc _, _ => .coded
  | .tload _ _, _ => .loading
  | .tfin, _ => .decoding
  | .dec _ _, _ => .decoding
  | .dfin, _ => .done

/-- The table of R113, written again from the rules, says "yes" exactly where `legal` does. -/
theorem phaseTable_eq (i : Instr) (p : Phase) : phaseTable i p = if legal i p then some (nextPhase i p) else none := by
  cases i <;> cases p <;> rfl

/-- The errors a command raises by itself, once it is well-formed and legal (R111, item 6). -/
def ownErrors : List ErrCode := [.countOvf, .noCode, .badPath, .truncated]

/-- Everything a legal command can do to the phase: give the next one, or raise an error of its own. -/
theorem effectOf_phase_cases {i : Instr} {s : State} (hi : i ≠ .srst) (hl : legal i s.phase = true) :
    ((effectOf i s).phase = nextPhase i s.phase ∧ (effectOf i s).ovr = s.ovr) ∨
    ∃ c ∈ ownErrors, ∃ info u, effectOf i s = raise c info u := by
  cases i with
  | nop => exact .inl ⟨rfl, rfl⟩
  | srst => exact absurd rfl hi
  | count sym =>
    simp only [effectOf, countSymbol]
    split
    · exact .inr ⟨.countOvf, by decide, _, s, rfl⟩
    · exact .inl ⟨rfl, rfl⟩
  | build => exact .inl ⟨rfl, rfl⟩
  | gen => exact .inl ⟨rfl, rfl⟩
  | enc sym =>
    have hp : s.phase = .coded := by simpa [legal] using hl
    simp only [effectOf, encodeSymbol]
    split
    · exact .inr ⟨.noCode, by decide, _, s, rfl⟩
    · exact .inl ⟨hp, rfl⟩
  | tload len sym => exact .inl ⟨rfl, by simp only [effectOf, tloadHeader, startDecodeTree]; split <;> rfl⟩
  | tfin => exact .inl ⟨rfl, by simp only [effectOf, tfinEffect, startDecodeTree]; split <;> rfl⟩
  | dec nm1 bits =>
    have hp : s.phase = .decoding := by simpa [legal] using hl
    obtain ⟨out, cur, ⟨e, _⟩ | ⟨k, _, e⟩⟩ := decodeBits_cases (decBits nm1 bits) 0 s
    · exact .inl (by rw [effectOf, e]; exact ⟨hp, rfl⟩)
    · exact .inr ⟨.badPath, by decide, _, _, e⟩
  | dfin =>
    simp only [effectOf, dfinEffect]
    split
    · exact .inr ⟨.truncated, by decide, _, s, rfl⟩
    · exact .inl ⟨rfl, rfl⟩

/-- A legal command ends in the next phase, or in ERROR with an error of its own (R113). -/
theorem exec_legal_phase {i : Instr} {s : State} (hs : s.Ready) (hw : i.wellFormed = true) (hl : legal i s.phase = true) :
    ∃ t, exec i s = .next t ∧ (t.phase = nextPhase i s.phase ∨ (t.phase = .error ∧ t.errCode ∈ ownErrors)) := by
  by_cases hi : i = .srst
  · subst hi; exact ⟨_, exec_srst hs.pend, .inl rfl⟩
  rcases effectOf_phase_cases hi hl with ⟨hp, ho⟩ | ⟨c, hc, info, u, e⟩
  · exact ⟨_, exec_run hs hi hw hl (ho.trans hs.ovr), .inl hp⟩
  · exact ⟨_, exec_run hs hi hw hl (by rw [e]; rfl), .inr (by rw [e]; exact ⟨rfl, hc⟩)⟩

/-! ## ERROR (R112) -/

/-- In ERROR a word other than SRST's is discarded: only BUSY falls. -/
theorem acceptWord_discarded {w : Word} {s : State} (hs : s.Ready) (he : s.phase = .error) (hw : w ≠ 0x10000000#32) :
    acceptWord w s = .next { s with busy := false } := by
  rcases acceptWord_cases w s with ⟨h, _⟩ | ⟨_, e⟩
  · exact absurd h hw
  · have hbody : acceptBody w s = s := by simp [acceptBody, hs.pend, he]
    rw [e, hbody, finish_quiet hs.ovr hs.stalled]

/-- In ERROR a list of words without SRST's leaves an idle block as it is. -/
theorem acceptWords_discarded {ws : List Word} {s : State} (hs : s.Ready) (hb : s.busy = false) (he : s.phase = .error)
    (hw : ∀ w ∈ ws, w ≠ 0x10000000#32) : acceptWords ws s = .next s := by
  induction ws with
  | nil => rfl
  | cons w ws ih =>
    have hs' : { s with busy := false } = s := by rw [← hb]
    rw [acceptWords_cons ws (acceptWord_discarded hs he (hw w (by simp))), hs']
    exact ih fun v hv => hw v (by simp [hv])

/-! ## NOP's and SRST's words (R86, R115, R116) -/

/-- The reserved field of NOP and of SRST is w[27:0] (R81). -/
theorem reservedZero_iff_of_opcOf_le_one {w : Word} (ho : opcOf w ≤ 1) : reservedZero w ↔ fieldOf w 0 28 = 0 := by
  rw [reservedZero, if_neg (by omega), if_neg (by omega), if_neg (by omega)]

/-- A NOP or SRST word with a reserved bit set is BAD_CMD. -/
theorem acceptWord_reserved_bit {w : Word} {s : State} (hs : s.Ready) (he : s.phase ≠ .error) (ho : opcOf w ≤ 1)
    (hf : fieldOf w 0 28 ≠ 0) : acceptWord w s = .next (s.raised .badCmd w) :=
  acceptWord_badCmd_ready hs he (by omega) (.inl ((reservedZero_iff_of_opcOf_le_one ho).not.mpr hf))

/-- NOP changes nothing but BUSY, in ERROR too. -/
theorem exec_nop {s : State} (hs : s.Ready) : exec .nop s = .next { s with busy := false } := by
  by_cases he : s.phase = .error
  · exact exec_error (by decide) hs he
  · exact exec_quiet hs (by decide) rfl (by simpa [legal] using he) rfl hs.ovr hs.stalled

/-! ## The statements -/

/-- Settles O9: the table is `legal` with the next phase, and a legal command's effect gives that phase or an error of its own. -/
theorem phaseTableDecides : Obligations.PhaseTableDecides := by
  intro i s hw hs he
  rw [phaseTable_eq]
  cases hl : legal i s.phase
  case false => exact ⟨fun _ => exec_illegal hs he hw hl, fun p hp => by simp at hp⟩
  case true =>
    refine ⟨fun h => by simp at h, fun p hp => ?_⟩
    obtain rfl : nextPhase i s.phase = p := by simpa using hp
    exact exec_legal_phase hs hw hl

/-- Settles O10: each word but SRST's leaves the state, so a list of them does, by induction on it. -/
theorem errorDiscardsAllButSrst : Obligations.ErrorDiscardsAllButSrst :=
  ⟨fun _ _ hs hb he hw => acceptWords_discarded hs hb he hw,
    fun _ hs _ => ⟨acceptWord_instr hs.pend rfl, _, exec_srst hs.pend, rfl, rfl, rfl⟩⟩

/-- Settles O12: NOP's effect is the identity, and with a reserved bit set its word is no NOP. -/
theorem nopDoesNothing : Obligations.NopDoesNothing :=
  ⟨fun _ hs => exec_nop hs, fun _ hp => acceptWord_data _ hp,
    fun _ _ hs he ho hf => acceptWord_reserved_bit hs he (by omega) hf⟩

/-- Settles O13: SRST does not go through `command`, so no check comes before the reset but PEND's. -/
theorem srstEndsTheSession : Obligations.SrstEndsTheSession := by
  refine ⟨fun s hp => exec_srst hp, fun s hp => acceptWord_data _ hp, fun s w hs ho hf => ?reserved,
    fun i s hs he hi => exec_error hi hs he⟩
  case reserved =>
    split
    case isTrue he => exact acceptWord_discarded hs he (by rintro rfl; exact hf rfl)
    case isFalse he => exact acceptWord_reserved_bit hs he (by omega) hf

end Sys2Proof.Machine
end

section
/-! SUPPORT. COUNT (R130, R131): its word, what one COUNT does, and what a list of them does. -/

namespace Sys2Proof.Machine

/-! ## COUNT's word (R81, R86) -/

/-- The reserved field of COUNT and of ENC is w[27:8] (R81). -/
theorem reservedZero_iff_of_formatS {w : Word} (ho : opcOf w = 2 ∨ opcOf w = 5) : reservedZero w ↔ fieldOf w 8 20 = 0 := by
  rw [reservedZero, if_pos ho]

theorem decodeCommand_count (sym : Byte) : decodeCommand (encode (.count sym)) = .instr (.count sym) := by
  have hw : (encode (.count sym)).toNat = 0x20000000 + sym.toNat := encode_toNat _
  have ho : opcOf (encode (.count sym)) = 2 := by rw [opcOf, hw]; omega
  have hr : fieldOf (encode (.count sym)) 8 20 = 0 := by rw [fieldOf, hw]; omega
  have hsym : symField (encode (.count sym)) = sym := BitVec.eq_of_toNat_eq (by rw [symField_toNat, fieldOf, hw]; omega)
  simp [decodeCommand_eq, ho, decodeS_eq, hr, hsym]

/-! ## One COUNT (R130) -/

section
variable {s : State} {sym : Byte}

theorem countSymbol_of_total_eq_max (ht : s.total = 0xFFFFFFFF#32) : countSymbol sym s = raise .countOvf (encode (.count sym)) s :=
  if_pos ht

theorem State.Ready.countSymbol (hs : s.Ready) : (countSymbol sym s).Ready := by
  unfold Machine.countSymbol
  split
  case isTrue => exact ⟨rfl, rfl, hs.stalled⟩
  case isFalse => exact ⟨hs.pend, hs.ovr, hs.stalled⟩

/-- Where COUNT is legal it has its effect, COUNT_OVF included, and nothing waits. -/
theorem exec_count (hs : s.Ready) (hp : s.phase = .idle ∨ s.phase = .counting) :
    exec (.count sym) s = .next { countSymbol sym s with busy := false } :=
  exec_quiet hs (by simp) rfl (by simpa [legal] using hp) rfl hs.countSymbol.ovr hs.countSymbol.stalled

theorem acceptWord_count (hs : s.Ready) (hp : s.phase = .idle ∨ s.phase = .counting) :
    acceptWord (encode (.count sym)) s = .next { countSymbol sym s with busy := false } :=
  (acceptWord_instr hs.pend (decodeCommand_count sym)).trans (exec_count hs hp)

variable (ht : s.total ≠ 0xFFFFFFFF#32)
include ht

theorem total_toNat_lt_max : s.total.toNat < 0xFFFFFFFF := by bv_omega

theorem countSymbol_of_total_ne_max : countSymbol sym s =
    { s with
      nsym := if Table.get s.freq sym = 0#32 then s.nsym + 1#9 else s.nsym
      freq := Table.set s.freq sym (Table.get s.freq sym + 1#32)
      total := s.total + 1#32
      phase := .counting } :=
  if_neg ht

theorem countSymbol_phase : (countSymbol sym s).phase = .counting := by rw [countSymbol_of_total_ne_max ht]

theorem countSymbol_total : (countSymbol sym s).total.toNat = s.total.toNat + 1 := by
  have hlt := total_toNat_lt_max ht
  rw [countSymbol_of_total_ne_max ht]
  simp only [BitVec.toNat_add, BitVec.toNat_ofNat]
  omega

theorem Counts.countSymbol (hc : Counts s) : Counts (countSymbol sym s) := by
  rw [countSymbol_of_total_ne_max ht]
  exact counts_count hc ht

/-- F[sym] grows by 1 and does not wrap, because no F[s] is above TOTAL (R130). -/
theorem countSymbol_freq (hc : Counts s) (x : Byte) :
    (Table.get (countSymbol sym s).freq x).toNat = (Table.get s.freq x).toNat + if sym = x then 1 else 0 := by
  have hlt := total_toNat_lt_max ht
  have hle : (Table.get s.freq sym).toNat ≤ s.total.toNat := hc.total ▸ countTotal_le_get s.freq sym
  rw [countSymbol_of_total_ne_max ht]
  simp only [Table.get_set]
  split
  case isTrue h =>
    subst h
    simp only [BitVec.toNat_add, BitVec.toNat_ofNat]
    omega
  case isFalse => rfl

end

/-! ## A list of COUNTs (R131) -/

/-- t is a state that COUNTs of bs leave when they start in s. -/
structure CountedFrom (s : State) (bs : List Byte) (t : State) : Prop where
  counts : Counts t
  freq : ∀ x, (Table.get t.freq x).toNat = (Table.get s.freq x).toNat + bs.count x
  total : t.total.toNat = s.total.toNat + bs.length
  phase : t.phase = if bs = [] then s.phase else .counting

/-- One COUNT, and then those of bs. -/
theorem CountedFrom.cons {s t : State} {b : Byte} {bs : List Byte} (hc : Counts s) (ht : s.total ≠ 0xFFFFFFFF#32)
    (h : CountedFrom { countSymbol b s with busy := false } bs t) : CountedFrom s (b :: bs) t where
  counts := h.counts
  freq x := by rw [h.freq, countSymbol_freq ht hc, List.count_cons]; simp only [beq_iff_eq]; omega
  total := by rw [h.total, countSymbol_total ht, List.length_cons]; omega
  phase := by rw [h.phase, countSymbol_phase ht, ite_self, if_neg (List.cons_ne_nil b bs)]

/-- COUNTs run as long as TOTAL has room for them, whatever was counted before. -/
theorem acceptWords_counts (bs : List Byte) {s : State} (hs : s.Ready) (hp : s.phase = .idle ∨ s.phase = .counting)
    (hc : Counts s) (hl : s.total.toNat + bs.length ≤ 0xFFFFFFFF) :
    ∃ t, acceptWords (countsWords bs) s = .next t ∧ CountedFrom s bs t := by
  induction bs generalizing s with
  | nil => exact ⟨s, rfl, hc, by simp, by simp, by simp⟩
  | cons b bs ih =>
    rw [List.length_cons] at hl
    have ht : s.total ≠ 0xFFFFFFFF#32 := fun e => by simp [e] at hl
    obtain ⟨hpend, hovr, hstalled⟩ := hs.countSymbol (sym := b)
    obtain ⟨hctotal, hcnsym⟩ := hc.countSymbol (sym := b) ht
    obtain ⟨t, ha, h⟩ := ih (s := { countSymbol b s with busy := false }) ⟨hpend, hovr, hstalled⟩
      (.inr (countSymbol_phase ht)) ⟨hctotal, hcnsym⟩ (by rw [countSymbol_total ht]; omega)
    exact ⟨t, (acceptWords_cons (countsWords bs) (acceptWord_count hs hp)).trans ha, h.cons hc ht⟩

/-- A table of occurrences has the distinct bytes as its keys (R35). -/
theorem countedSymbols_perm_dedup {f : Table Word} {bs : List Byte} (hf : ∀ x, (Table.get f x).toNat = bs.count x) :
    (countedSymbols f).Perm bs.dedup := by
  refine (List.perm_ext_iff_of_nodup nodup_counted bs.nodup_dedup).mpr fun x => ?_
  rw [mem_counted, List.mem_dedup, ← List.count_pos_iff, ← hf x, Nat.pos_iff_ne_zero, ne_eq, BitVec.toNat_eq]
  rfl

/-! ## The statements -/

/-- Settles O17: COUNT's effect and COUNT_OVF are the two branches of `countSymbol`, and a reserved bit makes its word no COUNT. -/
theorem countAddsOne : Obligations.CountAddsOne := by
  refine fun s sym hs he => ⟨fun hp ht => ?effect, fun hp ht => ?overflow, fun hi hc => ?illegal, fun w ho hf => ?reserved⟩
  case effect => rw [exec_count hs hp, countSymbol_of_total_ne_max ht]
  case overflow => rw [exec_count hs hp, countSymbol_of_total_eq_max ht]; rfl
  case illegal => exact exec_illegal hs he rfl (by simp [legal, hi, hc])
  case reserved =>
    exact acceptWord_badCmd_ready hs he (by omega) (.inl ((reservedZero_iff_of_formatS (.inl ho)).not.mpr hf))

/-- Settles O18: F and TOTAL by induction on the list, NSYM from the invariant `Counts`, which says that NSYM is the number of
symbols with a count. -/
theorem countsCountOccurrences : Obligations.CountsCountOccurrences := by
  intro s bs hs hp he hl
  obtain ⟨t, ha, hcounts, hfreq, htotal, hphase⟩ :=
    acceptWords_counts bs hs (.inl hp) (counts_empty he) (by simpa [he.total] using hl)
  have hoccurs : ∀ x, (Table.get t.freq x).toNat = bs.count x := fun x => by simpa [he.freq] using hfreq x
  refine ⟨t, ha, hoccurs, by simpa [he.total] using htotal, ?_, by rw [hphase, hp]⟩
  rw [hcounts.nsym, (countedSymbols_perm_dedup hoccurs).length_eq]

end Sys2Proof.Machine
end

section
/-! SUPPORT. BUILD's queue (R141), its merges as the relation of R143 whatever the layout (R147), and its weights (R148). -/

namespace Sys2Proof.Machine

/-! ## The leaves of the initial queue (R141) -/

theorem leafEntries_freqs (f : Table Word) (l : List Byte) (seq : Nat) :
    (leafEntries f l seq).map QEntry.freq = (l.filter fun s => Table.get f s ≠ 0#32).map (Table.get f) := by
  induction l generalizing seq with
  | nil => rfl
  | cons s l ih =>
    rw [leafEntries]
    split
    case isTrue h => simp [h, ih]
    case isFalse h => simp [h, ih]

theorem initialQueue_seqs (f : Table Word) :
    (initialQueue f).map QEntry.seq = List.range (countedSymbols f).length := by
  rw [initialQueue, leafEntries_seqs, ← initialQueue, initialQueue_length, List.range_eq_range']

theorem symbols_ascending : symbols.Pairwise fun x y => x.toNat < y.toNat := by
  refine List.pairwise_map.mpr (List.pairwise_lt_range.imp_of_mem fun ha hb hlt => ?_)
  simp only [Config.nsymMax, List.mem_range] at ha hb
  simp only [BitVec.toNat_ofNat]
  omega

theorem countedSymbols_ascending (f : Table Word) : (countedSymbols f).Pairwise fun x y => x.toNat < y.toNat :=
  symbols_ascending.filter _

/-! ## Sequence numbers (R142) -/

/-- The entries' sequence numbers are distinct and below the next one to be given, so the order of R142 is total on them. -/
structure Numbered (q : List QEntry) (seq : Nat) : Prop where
  nodup : (q.map QEntry.seq).Nodup
  lt : ∀ e ∈ q, e.seq < seq

section
variable {q q' : List QEntry} {seq : Nat}

theorem Numbered.perm (hn : Numbered q seq) (hp : q.Perm q') : Numbered q' seq where
  nodup := (hp.map QEntry.seq).nodup_iff.mp hn.nodup
  lt e he := hn.lt e (hp.symm.subset he)

theorem Numbered.tail {e : QEntry} (hn : Numbered (e :: q) seq) : Numbered q seq where
  nodup := (List.nodup_cons.mp hn.nodup).2
  lt x hx := hn.lt x (List.mem_cons_of_mem e hx)

/-- The combined node takes the next number, which no other entry has (R143). -/
theorem Numbered.combine {a b : QEntry} (hn : Numbered q seq) : Numbered (combine a b seq :: q) (seq + 1) where
  nodup := by
    refine List.nodup_cons.mpr ⟨fun h => ?_, hn.nodup⟩
    obtain ⟨e, he, hseq⟩ := List.mem_map.mp h
    exact (hn.lt e he).ne hseq
  lt := List.forall_mem_cons.mpr ⟨seq.lt_succ_self, fun e he => (hn.lt e he).trans seq.lt_succ_self⟩

end

theorem numbered_initialQueue (f : Table Word) : Numbered (initialQueue f) (initialQueue f).length where
  nodup := by rw [initialQueue_seqs]; exact List.nodup_range
  lt e he := by
    have hseq : e.seq ∈ (initialQueue f).map QEntry.seq := List.mem_map_of_mem he
    rwa [initialQueue_seqs, List.mem_range, ← initialQueue_length] at hseq

/-! ## Extraction in the words of R142 -/

theorem before_iff_Before {x y : QEntry} : x.before y = true ↔ x.Before y := before_iff

/-- Of a queue whose first entry comes before the others, that entry is extracted. -/
theorem extractMin_cons_of_least {m : QEntry} {q : List QEntry} (h : ∀ x ∈ q, m.Before x) :
    extractMin (m :: q) = some (m, q) := by
  rw [extractMin]
  split
  case h_1 hq => rw [extractMin_eq_none.mp hq]
  case h_2 x r hq =>
    have hmx : m.before x = true := before_iff_Before.mpr (h x ((extractMin_perm hq).subset List.mem_cons_self))
    refine if_neg fun hxm => ?_
    simpa [before_irrefl] using before_trans hmx hxm

section
variable {q q1 q2 : List QEntry} {a b : QEntry}

theorem extractMin_Before {seq : Nat} (hn : Numbered q seq) (ha : extractMin q = some (a, q1)) : ∀ x ∈ q1, a.Before x :=
  fun x hx => before_iff_Before.mp (extractMin_least hn.nodup ha x hx)

theorem extractMin_twice_perm (ha : extractMin q = some (a, q1)) (hb : extractMin q1 = some (b, q2)) :
    (a :: b :: q2).Perm q := ((extractMin_perm hb).cons a).trans (extractMin_perm ha)

end

/-! ## The merge rule and the loop (R143, R147) -/

/-- The loop follows the merge rule: what it extracts twice are the first two entries in the order of R142. -/
theorem merges_mergeLoop {fuel seq : Nat} {q : List QEntry} (hq : q ≠ []) (hf : q.length ≤ fuel) (hn : Numbered q seq) :
    Merges q seq (mergeLoop fuel q seq) := by
  induction fuel generalizing q seq with
  | zero => exact absurd (List.length_eq_zero_iff.mp (Nat.le_zero.mp hf)) hq
  | succ fuel ih =>
    match q, hq with
    | [e], _ => rw [mergeLoop_single]; exact .root e seq
    | x :: y :: q, _ =>
      obtain ⟨a, q1, b, q2, ha, hb, hl⟩ := extract_two (q := x :: y :: q) (by simp)
      have hn1 : Numbered q1 seq := (hn.perm (extractMin_perm ha).symm).tail
      have hn2 : Numbered q2 seq := (hn1.perm (extractMin_perm hb).symm).tail
      have hfirst : ∀ x ∈ b :: q2, a.Before x := fun x hx => extractMin_Before hn ha x ((extractMin_perm hb).subset hx)
      rw [mergeLoop_step ha hb]
      refine .merge _ q2 a b seq _ (extractMin_twice_perm ha hb).symm hfirst (extractMin_Before hn1 hb) ?_
      exact ih (List.cons_ne_nil _ _) (by rw [List.length_cons]; omega) hn2.combine

/-- The merge rule gives no other tree than the loop does: laid out in the order of R142, the queue gives up the rule's two entries,
and the loop does not depend on the layout. -/
theorem Merges.eq_mergeLoop {q : List QEntry} {seq : Nat} {t : HTree} (h : Merges q seq t) (hn : Numbered q seq) {fuel : Nat}
    (hf : q.length ≤ fuel) : t = mergeLoop fuel q seq := by
  induction h generalizing fuel with
  | root e seq =>
    obtain ⟨n, rfl⟩ := Nat.exists_eq_add_of_le' hf
    exact (mergeLoop_single n seq e).symm
  | merge q rest a b seq t hq ha hb _ ih =>
    have hl : rest.length + 2 ≤ fuel := hq.length_eq.symm.trans_le hf
    obtain ⟨n, rfl⟩ := Nat.exists_eq_add_of_le' (Nat.le_of_add_left_le hl)
    calc t
      _ = mergeLoop (n + 1) (combine a b seq :: rest) (seq + 1) :=
        ih (hn.perm hq).tail.tail.combine (by rw [List.length_cons]; omega)
      _ = mergeLoop (n + 2) (a :: b :: rest) seq :=
        (mergeLoop_step (extractMin_cons_of_least ha) (extractMin_cons_of_least hb)).symm
      _ = mergeLoop (n + 2) q seq := (mergeLoop_congr hn.nodup hn.lt hq).symm

/-! ## Weights (R148) -/

theorem weighted_initialQueue (f : Table Word) : Weighted f (initialQueue f) := by
  intro e he
  obtain ⟨s, _, hnode, hfreq, _⟩ := leafEntries_mem he
  rw [hnode, hfreq]
  exact (List.sum_singleton).symm

theorem weightSum_initialQueue (f : Table Word) : weightSum (initialQueue f) = countTotal f := leafEntries_weight ..

theorem Weighted.perm {f : Table Word} {q q' : List QEntry} (h : Weighted f q) (hp : q.Perm q') : Weighted f q' :=
  fun e he => h e (hp.symm.subset he)

/-- Where the addition does not wrap, the combined node weighs what the leaves under it count. -/
theorem Weighted.combine {f : Table Word} {a b : QEntry} {q : List QEntry} (h : Weighted f (a :: b :: q))
    (hadd : (a.freq + b.freq).toNat = a.freq.toNat + b.freq.toNat) (seq : Nat) : Weighted f (combine a b seq :: q) := by
  obtain ⟨ha, hb, hq⟩ : _ ∧ _ ∧ Weighted f q := by simpa only [Weighted, List.forall_mem_cons] using h
  refine List.forall_mem_cons.mpr ⟨?_, hq⟩
  simp only [Machine.combine, HTree.leaves, List.map_append, List.sum_append, hadd, ha, hb]

/-! ## The statements -/

/-- Settles O20: nodes, counts and numbers by induction on the symbols; a filter keeps their order. -/
theorem queueStartsWithTheLeaves : Obligations.QueueStartsWithTheLeaves :=
  fun f => ⟨leafEntries_nodes f symbols 0, leafEntries_freqs f symbols 0, initialQueue_seqs f, countedSymbols_ascending f⟩

/-- Settles O21: BUILD's loop is one derivation of the merge rule, and any derivation is the loop's. -/
theorem buildFollowsTheMergeRule : Obligations.BuildFollowsTheMergeRule := by
  intro f hf
  have hne : initialQueue f ≠ [] := mt initialQueue_nil.mp hf
  have hn := numbered_initialQueue f
  refine ⟨merges_mergeLoop hne le_rfl hn, ?internals, fun q t hq ht => ?unique⟩
  case internals =>
    obtain ⟨hfull, hleaves⟩ := buildTree_spec hne
    exact Nat.eq_sub_of_add_eq ((full_internals hfull).trans hleaves.length_eq)
  case unique =>
    have hnq := hn.perm hq.symm
    exact (ht.eq_mergeLoop hnq hq.length_eq.le).trans (mergeLoop_congr hnq.nodup hnq.lt hq)

/-- Settles O23: the sum of the weights bounds each addition, and a merge keeps it. -/
theorem weightsNeverWrap : Obligations.WeightsNeverWrap := by
  intro f hf
  refine ⟨⟨weighted_initialQueue f, weightSum_initialQueue f⟩, fun q q1 q2 a b seq hw hs ha hb => ?_⟩
  obtain ⟨hadd, hsum⟩ := combine_weight (seq := seq) ha hb (by omega)
  exact ⟨hadd, (hw.perm (extractMin_twice_perm ha hb).symm).combine hadd seq, hsum.trans hs⟩

end Sys2Proof.Machine
end

section
/-! SUPPORT. GEN's traversal and codes (R160 to R167): the order of the leaves, what CODE and CLEN hold in CODED, and the sum over a
full tree. -/

namespace Sys2Proof.Machine

/-! ## The order of the traversal (R161) -/

/-- The two paths part at some node, the first to its left and the second to its right. -/
def LeftOf (p q : Bits) : Prop := ∃ u v w, p = u ++ false :: v ∧ q = u ++ true :: w

/-- The traversal reaches a leaf before every leaf to its right. -/
theorem visit_leftFirst (t : HTree) (p : Bits) : (t.visit p).Pairwise fun d e => LeftOf d.2 e.2 := by
  induction t generalizing p with
  | empty => exact .nil
  | leaf s => exact List.pairwise_singleton _ _
  | internal l r ihl ihr =>
    refine List.pairwise_append.mpr ⟨ihl _, ihr _, fun d hd e he => ?_⟩
    obtain ⟨v, hv, _⟩ := mem_visit.mp hd
    obtain ⟨w, hw, _⟩ := mem_visit.mp he
    exact ⟨p, v, w, by simpa using hv, by simpa using hw⟩

/-! ## What CODED holds (R162, R163, R166) -/

/-- N, the number of counted symbols, is the number of leaves (R144, R145). -/
theorem nsym_eq_leaves {s : State} (hc : Counts s) (ht : EncodeTree s) : s.nsym.toNat = s.root.leaves.length := by
  rw [hc.nsym, (leaves_counted ht).length_eq]

section
variable {s : State} (hc : Counts s) (ht : EncodeTree s) (hk : EncodeCodes s)
include hc ht hk

/-- The symbols with a code are those counted. -/
theorem clen_ne_zero_iff (x : Byte) : Table.get s.clen x ≠ 0#8 ↔ Table.get s.freq x ≠ 0#32 := by
  refine ⟨mt fun hf => (hk.uncoded x hf).2, fun hf h0 => ?_⟩
  obtain ⟨p, _, _, hlen, hpos, _⟩ := coded_facts hc ht hk x hf
  rw [← hlen, h0] at hpos
  exact absurd hpos (by decide)

theorem codedSymbols_eq_countedSymbols : codedSymbols s.clen = countedSymbols s.freq :=
  List.filter_congr fun x _ => decide_eq_decide.mpr (clen_ne_zero_iff hc ht hk x)

/-- CLEN holds the length of each entry's code without wrapping, since no code is longer than N - 1 bits. -/
theorem clen_of_entry {x : Byte} {p : Bits} (h : (x, p) ∈ genEntries s.root) :
    (Table.get s.clen x).toNat = p.length ∧ p.length ≤ max 1 (s.nsym.toNat - 1) := by
  obtain ⟨hx, _⟩ := genEntries_mem h
  obtain ⟨q, _, hq, hlen, _, hmax⟩ := coded_facts hc ht hk x ((ht.mem x).mp hx)
  obtain rfl : q = p := hq.symm.trans (hk.coded x p h).1
  exact ⟨hlen, hmax⟩

/-- A sum over the symbols with a code is the sum over the entries of the tree. -/
theorem sum_codedSymbols (g : Nat → Nat) : ((codedSymbols s.clen).map fun x => g (Table.get s.clen x).toNat).sum =
    ((genEntries s.root).map fun e => g e.2.length).sum := by
  have hperm : (codedSymbols s.clen).Perm ((genEntries s.root).map Prod.fst) := by
    rw [genEntries_symbols, codedSymbols_eq_countedSymbols hc ht hk]
    exact (leaves_counted ht).symm
  rw [(hperm.map _).sum_eq, List.map_map]
  refine congrArg List.sum (List.map_congr_left fun e he => congrArg g ?_)
  exact (clen_of_entry hc ht hk he).1

end

/-- The codes of a full tree of two leaves or more fill the code space (R166). -/
theorem kraft_genEntries {t : HTree} {n : Nat} (hf : t.full = true) (h2 : 2 ≤ t.leaves.length)
    (hn : ∀ x p, (x, p) ∈ genEntries t → p.length ≤ n) : ((genEntries t).map fun e => 2 ^ (n - e.2.length)).sum = 2 ^ n := by
  cases t with
  | empty => simp [HTree.leaves] at h2
  | leaf x => simp [HTree.leaves] at h2
  | internal l r => exact kraft hf [] n hn

/-! ## GEN (R160) -/

/-- GEN in BUILT; while a table word waits it stays BUSY, with its effect in place (R57). -/
theorem exec_gen {s : State} (hs : s.Ready) (hp : s.phase = .built) :
    exec .gen s = .next { genEffect s with busy := (genEffect s).stalled } :=
  exec_run hs (by decide) rfl (by rw [hp]; rfl) hs.ovr

/-- GEN of the empty tree emits one word and leaves the tables (R167). -/
theorem genEffect_empty {s : State} (hr : s.root = .empty) :
    genEffect s = { s with tblOut := s.tblOut.emit [0x70000000#32], phase := .coded } := by
  rw [genEffect, hr]; rfl

/-- What a session holds once GEN has had its effect. -/
theorem coded_genEffect {s : State} (hp : s.phase = .built) (hi : SessionInv s) :
    Counts (genEffect s) ∧ EncodeTree (genEffect s) ∧ EncodeCodes (genEffect s) := by
  have hinv : SessionInv (genEffect s) := hi.effectOf (i := .gen) (by rw [hp]; rfl)
  obtain ⟨_, _, _, coded, _⟩ := (sessionInv_iff _).mp hinv
  exact coded rfl

/-! ## The statements -/

/-- Settles O25: the traversal reaches the leaves and no other node; leaves under one node's two children part at that node. -/
theorem traversalIsLeftFirst : Obligations.TraversalIsLeftFirst := fun l r =>
  ⟨fun _ _ => by simp [genEntries, mem_visit], visit_leftFirst (.internal l r) []⟩

/-- Settles O26: GEN leaves CODED, where CODE and CLEN are the entries of the tree. -/
theorem codesAreTheLeafPaths : Obligations.CodesAreTheLeafPaths := by
  intro s hs hp hi
  obtain ⟨hc, ht, hk⟩ := coded_genEffect hp hi
  refine ⟨_, exec_gen hs hp, fun x p hne hleaf => ?path, fun x hroot => ?single, fun x hf => ?uncounted⟩
  case path =>
    have hentry : (x, p) ∈ genEntries s.root := genEntries_of_leaf hne hleaf
    exact ⟨(hk.coded x p hentry).1, (clen_of_entry hc ht hk hentry).1⟩
  case single =>
    have hentry : (x, [false]) ∈ genEntries s.root := by rw [hroot]; exact List.mem_singleton_self _
    exact hk.coded x [false] hentry
  case uncounted =>
    obtain ⟨hcode, hclen⟩ := hk.uncoded x hf
    exact ⟨fun hx => (ht.mem x).mp hx hf, hclen, hcode⟩

/-- Settles O27: the empty tree has no entries. -/
theorem genOfTheEmptyTree : Obligations.GenOfTheEmptyTree := by
  intro s hs hp hroot hclen
  refine ⟨_, exec_gen hs hp, ?_⟩
  rw [genEffect_empty hroot]
  exact ⟨hclen, rfl, emit_emitted ..⟩

/-- Settles O30: the codes are the leaf paths of a full tree with as many leaves as counted symbols. -/
theorem codesAreCompleteAndPrefixFree : Obligations.CodesAreCompleteAndPrefixFree := by
  intro s hp hi
  obtain ⟨_, _, _, coded, _⟩ := (sessionInv_iff s).mp hi
  obtain ⟨hc, ht, hk⟩ := coded hp
  have facts := fun x hx => coded_facts hc ht hk x ((clen_ne_zero_iff hc ht hk x).mp hx)
  refine ⟨fun x y hxy hx hy => ?prefixFree, fun x hx => ?lengths, fun h2 => ?complete⟩
  case prefixFree =>
    obtain ⟨p, hxp, rfl, _⟩ := facts x hx
    obtain ⟨q, hyq, rfl, _⟩ := facts y hy
    exact genEntries_prefix_free hxy ht.nodup hxp hyq
  case lengths =>
    obtain ⟨p, _, rfl, hlen, hpos, hmax⟩ := facts x hx
    exact ⟨hlen, fun h2 => by omega, fun h1 => BitVec.eq_of_toNat_eq (by rw [hlen, BitVec.toNat_ofNat]; omega)⟩
  case complete =>
    have hcounted := hc.nsym
    have hle := countedSymbols_le s.freq
    have hfull : s.root.full = true := ht.full fun h0 => by simp [hcounted, h0] at h2
    rw [sum_codedSymbols hc ht hk fun n => 2 ^ (255 - n)]
    refine kraft_genEntries hfull (nsym_eq_leaves hc ht ▸ h2) fun x p hentry => ?_
    obtain ⟨_, hmax⟩ := clen_of_entry hc ht hk hentry
    omega

end Sys2Proof.Machine
end

section
/-! SUPPORT. ENC (R180, R181): its word, what one ENC does, and what a list of them does. -/

namespace Sys2Proof.Machine

/-! ## ENC's word (R81, R86) -/

theorem decodeCommand_enc (sym : Byte) : decodeCommand (encode (.enc sym)) = .instr (.enc sym) := by
  have ho : opcOf (encode (.enc sym)) = 5 := by rw [← opcField_toNat, opcField_encode]; rfl
  obtain ⟨_, hreserved, _⟩ := Laws.WordFields.enc sym
  have hr : fieldOf (encode (.enc sym)) 8 20 = 0 := (reservedZero_iff_of_formatS (.inr ho)).mp hreserved
  have hsym : symField (encode (.enc sym)) = sym := BitVec.extractLsb'_append_eq_right
  simp [decodeCommand_eq, ho, decodeS_eq, hr, hsym]

/-! ## One ENC (R180) -/

section
variable {s : State} {sym : Byte}

theorem encodeSymbol_of_clen_eq_zero (hc : Table.get s.clen sym = 0#8) : encodeSymbol sym s = raise .noCode (symInfo sym) s :=
  if_pos hc

theorem encodeSymbol_of_clen_ne_zero (hc : Table.get s.clen sym ≠ 0#8) : encodeSymbol sym s =
    { s with
      bitOut := s.bitOut.emit ((Table.get s.code sym).take (Table.get s.clen sym).toNat)
      bitcnt := s.bitcnt + (Table.get s.clen sym).setWidth 32 } :=
  if_neg hc

/-- ENC's effect records no lost write, whether it emits or raises NO_CODE. -/
theorem encodeSymbol_ovr (ho : s.ovr = false) : (encodeSymbol sym s).ovr = false := by
  unfold encodeSymbol
  split
  case isTrue => rfl
  case isFalse => exact ho

/-- ENC in CODED has its effect, NO_CODE included, and stays BUSY while a bit waits (R57). -/
theorem exec_enc (hs : s.Ready) (hp : s.phase = .coded) :
    exec (.enc sym) s = .next { encodeSymbol sym s with busy := (encodeSymbol sym s).stalled } :=
  exec_run hs (by simp) rfl (by rw [hp]; rfl) (encodeSymbol_ovr hs.ovr)

end

/-! ## A list of ENCs (R181) -/

/-- The state with the bits c emitted on BIT_OUT and counted in BITCNT: what ENCs change (R180). -/
def State.emitBits (s : State) (c : Bits) : State :=
  { s with bitOut := s.bitOut.emit c, bitcnt := s.bitcnt + BitVec.ofNat 32 c.length }

@[simp] theorem emitBits_nil (s : State) : s.emitBits [] = s := by simp [State.emitBits]

/-- BITCNT wraps, so the counts of two sequences add as the sequences are joined (R33). -/
theorem emitBits_append (s : State) (c d : Bits) : s.emitBits (c ++ d) = (s.emitBits c).emitBits d := by
  simp [State.emitBits, BitVec.ofNat_add, BitVec.add_assoc]

/-- An unbounded BIT_OUT never makes a command wait (R57). -/
theorem emitBits_stalled {s : State} (hd : s.depths.bitq = .unbounded) (c : Bits) : (s.emitBits c).stalled = s.stalled := by
  simp [State.stalled, State.emitBits, hd, Depth.holds]

/-- sym has a code, and CLEN holds its length (R36, R37). -/
def State.HasCode (s : State) (sym : Byte) : Prop :=
  Table.get s.clen sym ≠ 0#8 ∧ (Table.get s.code sym).length = (Table.get s.clen sym).toNat

/-- When CLEN is the length of CODE, ENC emits the whole code. -/
theorem encodeSymbol_of_hasCode {s : State} {sym : Byte} (h : s.HasCode sym) :
    encodeSymbol sym s = s.emitBits (Table.get s.code sym) := by
  obtain ⟨hc, hl⟩ := h
  have hcount : (Table.get s.clen sym).setWidth 32 = BitVec.ofNat 32 (Table.get s.code sym).length := by
    rw [hl, BitVec.ofNat_toNat]
  rw [encodeSymbol_of_clen_ne_zero hc, hcount, ← hl, List.take_length, State.emitBits]

theorem acceptWord_enc {s : State} {sym : Byte} (hs : s.Ready) (hp : s.phase = .coded) (hd : s.depths.bitq = .unbounded)
    (h : s.HasCode sym) :
    acceptWord (encode (.enc sym)) s = .next { s.emitBits (Table.get s.code sym) with busy := false } := by
  rw [acceptWord_instr hs.pend (decodeCommand_enc sym), exec_enc hs hp, encodeSymbol_of_hasCode h, emitBits_stalled hd, hs.stalled]

/-- ENCs change BIT_OUT and BITCNT alone, besides BUSY, which an empty list leaves as it is. -/
theorem acceptWords_encs (bs : List Byte) {s : State} (hs : s.Ready) (hp : s.phase = .coded) (hd : s.depths.bitq = .unbounded)
    (h : ∀ b ∈ bs, s.HasCode b) :
    ∃ busy, acceptWords (encsWords bs) s = .next { s.emitBits (bs.flatMap (Table.get s.code)) with busy := busy } := by
  induction bs generalizing s with
  | nil => exact ⟨s.busy, by rw [List.flatMap_nil, emitBits_nil]; rfl⟩
  | cons b bs ih =>
    rw [List.forall_mem_cons] at h
    obtain ⟨hb, hbs⟩ := h
    have hfirst := acceptWord_enc hs hp hd hb
    have hready : ({ s.emitBits (Table.get s.code b) with busy := false } : State).Ready :=
      ⟨hs.pend, hs.ovr, (emitBits_stalled hd _).trans hs.stalled⟩
    obtain ⟨busy, hrest⟩ := ih hready hp hd hbs
    refine ⟨busy, (acceptWords_cons (encsWords bs) hfirst).trans (hrest.trans ?_)⟩
    rw [List.flatMap_cons, emitBits_append]
    rfl

/-! ## The statements -/

/-- Settles O31: ENC's effect and NO_CODE are the two branches of `encodeSymbol`, and a reserved bit makes its word no ENC. -/
theorem encEmitsTheCode : Obligations.EncEmitsTheCode := by
  refine fun s sym hs he => ⟨fun hp hc => ⟨_, exec_enc hs hp, ?effect⟩, fun hp hc => ?noCode, fun hp => ?illegal,
    fun w ho hf => ?reserved⟩
  case effect =>
    have hcount : s.bitcnt + (Table.get s.clen sym).setWidth 32 =
        BitVec.ofNat 32 (s.bitcnt.toNat + (Table.get s.clen sym).toNat) := by
      simp [BitVec.ofNat_add]
    rw [encodeSymbol_of_clen_ne_zero hc, hcount]
    rfl
  case noCode => rw [exec_enc hs hp, encodeSymbol_of_clen_eq_zero hc, raise_stalled, hs.stalled]; rfl
  case illegal => exact exec_illegal hs he rfl (by simpa [legal] using hp)
  case reserved =>
    exact acceptWord_badCmd_ready hs he (by omega) (.inl ((reservedZero_iff_of_formatS (.inr ho)).not.mpr hf))

/-- Settles O32: each ENC emits one code and leaves the tables, so by induction on the list the codes come one after another. -/
theorem encsConcatenateTheCodes : Obligations.EncsConcatenateTheCodes := by
  intro s bs hs hp hd h
  obtain ⟨_, hrun⟩ := acceptWords_encs bs hs hp hd h
  refine ⟨_, hrun, hp, emit_emitted .., rfl, ?length⟩
  case length =>
    rw [List.length_flatMap]
    refine congrArg List.sum (List.map_congr_left fun b hb => ?_)
    obtain ⟨_, hlen⟩ := h b hb
    exact hlen

end Sys2Proof.Machine
end

section
/-! SUPPORT. TLOAD's header and TFIN (R190, R200), and the data word that completes an entry (R191 to R196). -/

namespace Sys2Proof.Machine

/-! ## The words of TLOAD and TFIN (R81, R86) -/

/-- The reserved field of TLOAD is w[27:16] (R81). -/
theorem reservedZero_iff_of_formatT {w : Word} (ho : opcOf w = 6) : reservedZero w ↔ fieldOf w 16 12 = 0 := by
  rw [reservedZero, if_neg (by omega), if_pos ho]

/-- The reserved field of TFIN is w[27:0] (R81). -/
theorem reservedZero_iff_of_tfin {w : Word} (ho : opcOf w = 7) : reservedZero w ↔ fieldOf w 0 28 = 0 := by
  rw [reservedZero, if_neg (by omega), if_neg (by omega), if_neg (by omega)]

theorem decodeCommand_tload {len : Byte} (sym : Byte) (hlen : len ≠ 0#8) :
    decodeCommand (encode (.tload len sym)) = .instr (.tload len sym) := by
  obtain ⟨hopc, hreserved, hlenField⟩ := Laws.WordFields.tload len sym
  have ho : opcOf (encode (.tload len sym)) = 6 := by rw [← opcField_toNat, hopc]; rfl
  have hr := (reservedZero_iff_of_formatT ho).mp hreserved
  have hl := hlenField (by simpa [Instr.wellFormed] using hlen) ho
  have hw : (encode (.tload len sym)).toNat = 0x60000000 + len.toNat * 2 ^ 8 + sym.toNat := encode_toNat _
  have hlen' : lenField (encode (.tload len sym)) = len :=
    BitVec.eq_of_toNat_eq (by rw [lenField_toNat, fieldOf, hw]; omega)
  have hsym : symField (encode (.tload len sym)) = sym := BitVec.extractLsb'_append_eq_right
  simp [decodeCommand_eq, ho, decodeT_eq, hr, hl, hlen', hsym]

/-! ## The start of a decode session (R190, R200) -/

section
variable {s : State}

theorem startDecodeTree_idle (hp : s.phase = .idle) :
    startDecodeTree s = { s with root := .internal .empty .empty, nodes := 1#10, cur := [] } := if_pos hp

theorem startDecodeTree_loading (hp : s.phase = .loading) : startDecodeTree s = s := if_neg (by simp [hp])

theorem State.Ready.startDecodeTree (hs : s.Ready) : (startDecodeTree s).Ready := by
  unfold Machine.startDecodeTree
  split
  case isTrue => exact ⟨hs.pend, hs.ovr, hs.stalled⟩
  case isFalse => exact hs

theorem startDecodeTree_errCode (s : State) : (startDecodeTree s).errCode = s.errCode := by
  obtain ⟨_, _, herr, _⟩ := startDecodeTree_frame s
  exact herr

theorem exec_tload {len : Byte} (sym : Byte) (hs : s.Ready) (hp : s.phase = .idle ∨ s.phase = .loading) (hlen : len ≠ 0#8) :
    exec (.tload len sym) s = .next { tloadHeader len sym s with busy := false } :=
  exec_quiet hs (by simp) (by simpa [Instr.wellFormed] using hlen) (by simpa [legal] using hp) rfl
    hs.startDecodeTree.ovr hs.startDecodeTree.stalled

theorem exec_tfin (hs : s.Ready) (hp : s.phase = .idle ∨ s.phase = .loading) :
    exec .tfin s = .next { tfinEffect s with busy := false } :=
  exec_quiet hs (by decide) rfl (by simpa [legal] using hp) rfl hs.startDecodeTree.ovr hs.startDecodeTree.stalled

end

/-! ## The last data word (R192) -/

/-- The session when w, the last data word owed, has come and its entry is not applied yet (R192). -/
def State.lastWord (s : State) (w : Word) : State :=
  { s with tlbits := s.tlbits ++ wordBits w, pend := false, pendw := 0#4 }

theorem acceptWord_lastWord {s : State} (w : Word) (hp : s.pend = true) (ho : s.ovr = false) (hs : s.stalled = false)
    (hw : s.pendw = 1#4) : acceptWord w s = .next
      { applyEntry s.tlsym ((s.tlbits ++ wordBits w).take s.tllen.toNat) (s.lastWord w) with busy := false } := by
  rw [acceptWord_data_last w hp ho hs (by rw [hw]; rfl), State.loadEntry, List.flatMap_singleton]
  rfl

/-! ## The four outcomes of an entry, in their order (R193 to R196) -/

/-- What R195 calls CONFLICT, in the words of the tree: a leaf on the path, or a node at its end. -/
theorem not_free_iff {t : HTree} {c : Bits} :
    ¬ t.Free c ↔ (∃ p x, p <+: c ∧ t.nodeAt p = .leaf x) ∨ t.nodeAt c ≠ .empty := by
  simp only [HTree.Free, not_and_or, not_forall, not_not, exists_prop, ne_eq]

/-- How many nodes an entry with the code c lacks: the prefixes of c at which nothing stands (R193, R196). -/
def HTree.missing (t : HTree) (c : Bits) : Nat := (c.inits.filter fun p => t.nodeAt p = .empty).length

/-- In a free place of a tree with a root the walk of R193 finds room, and the entry lacks the nodes from there on. -/
theorem entryWalk_of_free {t : HTree} {c : Bits} (ht : t.InternalAt []) (hf : t.Free c) :
    ∃ d, entryWalk t c 0 = .room d ∧ t.missing c = c.length - d := by
  obtain ⟨l, r, rfl⟩ : ∃ l r, t = .internal l r := ht
  cases hw : entryWalk (.internal l r) c 0 with
  | conflict => exact absurd hf (entryWalk_conflict_iff.mp hw)
  | room d =>
    have hmissing : (HTree.internal l r).missing c + d = c.length + 0 := room_missing hw
    exact ⟨d, rfl, by omega⟩

/-- An entry in a free place makes the tree larger by the nodes it lacks. -/
theorem insert_size_of_free {t : HTree} {c : Bits} (x : Byte) (ht : t.InternalAt []) (hf : t.Free c) :
    (t.insert c x).size = t.size + t.missing c := by
  obtain ⟨d, hw, hmissing⟩ := entryWalk_of_free ht hf
  obtain ⟨l, r, rfl⟩ : ∃ l r, t = .internal l r := ht
  obtain ⟨hsize, _, hd⟩ := insert_size (s := x) hw (by simp) (by simp)
  omega

section
variable {s : State} {sym : Byte} {c : Bits}

theorem applyEntry_of_clen_ne_zero (hclen : Table.get s.clen sym ≠ 0#8) :
    applyEntry sym c s = raise .dupSym (symInfo sym) s := if_pos hclen

variable (hclen : Table.get s.clen sym = 0#8) (hroot : s.root.InternalAt [])
include hclen hroot

theorem applyEntry_of_not_free (hf : ¬ s.root.Free c) : applyEntry sym c s = raise .conflict (symInfo sym) s := by
  obtain ⟨l, r, hr⟩ : ∃ l r, s.root = .internal l r := hroot
  have hw : entryWalk s.root c 0 = .conflict := by rw [hr] at hf ⊢; exact entryWalk_conflict_iff.mpr hf
  simp [applyEntry, hclen, hw]

variable (hf : s.root.Free c)
include hf

theorem applyEntry_of_no_capacity (hn : Config.nodeCap < s.nodes.toNat + s.root.missing c) :
    applyEntry sym c s = raise .treeFull (symInfo sym) s := by
  obtain ⟨d, hw, hmissing⟩ := entryWalk_of_free hroot hf
  rw [hmissing] at hn
  simp [applyEntry, hclen, hw, hn]

theorem applyEntry_of_free (hn : s.nodes.toNat + s.root.missing c ≤ Config.nodeCap) : applyEntry sym c s =
      { s with
        root := s.root.insert c sym
        nodes := BitVec.ofNat 10 (s.nodes.toNat + s.root.missing c)
        clen := Table.set s.clen sym (BitVec.ofNat 8 c.length)
        code := Table.set s.code sym c
        nsym := s.nsym + 1#9 } := by
  obtain ⟨d, hw, hmissing⟩ := entryWalk_of_free hroot hf
  rw [hmissing] at hn ⊢
  simp [applyEntry, hclen, hw, Nat.not_lt.mpr hn, BitVec.ofNat_add]

end

/-! ## The statements -/

/-- Settles O8: `wordBits` is the order of bits that the statement writes out. -/
theorem dataWordIsNeverACommand : Obligations.DataWordIsNeverACommand := by
  refine fun s w hp ho hs => ⟨fun hw => ?more, fun hw => ?last⟩
  case more => exact acceptWord_data_more w hp ho hs (by bv_omega)
  case last => exact acceptWord_lastWord w hp ho hs hw

/-- Settles O35: the three checks and the insertion, one lemma on `applyEntry` for each; a collision is a place that is not free. -/
theorem entryChecksThenInserts : Obligations.EntryChecksThenInserts := by
  intro s w c sym hp hw ho hs _ hroot hsym hc _
  refine ⟨_, acceptWord_lastWord w hp ho hs hw, ?_⟩
  have hcode : (s.tlbits ++ wordBits w).take s.tllen.toNat = c := hc.symm
  subst hsym
  rw [hcode]
  refine ⟨fun hdup => ?dupSym, fun hnew hcoll => ?conflict, fun hnew hcoll hn => ?treeFull, fun hnew hcoll hn => ?inserts⟩
  case dupSym => rw [applyEntry_of_clen_ne_zero (s := s.lastWord w) hdup]; rfl
  case conflict => rw [applyEntry_of_not_free (s := s.lastWord w) hnew hroot (not_free_iff.mpr hcoll)]; rfl
  case treeFull =>
    have hf : s.root.Free c := not_not.mp (not_free_iff.not.mpr hcoll)
    rw [applyEntry_of_no_capacity (s := s.lastWord w) hnew hroot hf hn]; rfl
  case inserts =>
    have hf : s.root.Free c := not_not.mp (not_free_iff.not.mpr hcoll)
    rw [applyEntry_of_free (s := s.lastWord w) hnew hroot hf hn]
    exact ⟨rfl, fun p x => insert_leaf_iff hf, fun p => insert_internal_iff hf, insert_size_of_free _ hroot hf⟩

/-- Settles O34: the header is legal in IDLE and LOADING, where `startDecodeTree` makes the difference. -/
theorem tloadHeaderStartsAnEntry : Obligations.TloadHeaderStartsAnEntry := by
  refine fun s len sym hs he hlen => ⟨fun hp => ?idle, fun hp => ?loading, fun hi hl => ?illegal, fun w ho hf => ?badCmd⟩
  case idle => rw [exec_tload sym hs (.inl hp) hlen, tloadHeader, startDecodeTree_idle hp]; rfl
  case loading => rw [exec_tload sym hs (.inr hp) hlen, tloadHeader, startDecodeTree_loading hp, ← hp]; rfl
  case illegal => exact exec_illegal hs he (by simpa [Instr.wellFormed] using hlen) (by simp [legal, hi, hl])
  case badCmd =>
    refine acceptWord_badCmd_ready hs he (by omega) (hf.imp (fun hr => ?_) fun h0 => ⟨ho, h0⟩)
    exact (reservedZero_iff_of_formatT ho).not.mpr hr

/-- Settles O38: as the header, with TFIN's effect; and its word is data while PEND = 1. -/
theorem tfinStartsDecoding : Obligations.TfinStartsDecoding := by
  refine fun s hs he => ⟨fun hp => ?idle, fun hp => ?loading, fun hi hl => ?illegal, fun w ho hf => ?badCmd,
    fun u hu => acceptWord_data _ hu⟩
  case idle => rw [exec_tfin hs (.inl hp), tfinEffect, startDecodeTree_idle hp]
  case loading => rw [exec_tfin hs (.inr hp), tfinEffect, startDecodeTree_loading hp]
  case illegal => exact exec_illegal hs he rfl (by simp [legal, hi, hl])
  case badCmd => exact acceptWord_badCmd_ready hs he (by omega) (.inl ((reservedZero_iff_of_tfin ho).not.mpr hf))

end Sys2Proof.Machine
end

section
/-! SUPPORT. A symbol table loaded entry by entry (R198), and the replay of the table GEN emitted (R199). -/

namespace Sys2Proof.Machine

/-! ## Loadable tables -/

theorem Loadable.perm {es es' : List (Byte × Bits)} (h : Loadable es) (hp : es.Perm es') : Loadable es' where
  symbols := (hp.map Prod.fst).nodup_iff.mp h.symbols
  prefixFree := hp.pairwise h.prefixFree And.symm
  lens e he := h.lens e (hp.symm.subset he)
  nodes := (Nat.add_le_add_left (codePrefixes_le hp.symm.subset) 1).trans h.nodes

theorem Loadable.sublist {es es' : List (Byte × Bits)} (h : Loadable es) (hs : es'.Sublist es) : Loadable es' where
  symbols := h.symbols.sublist (hs.map Prod.fst)
  prefixFree := h.prefixFree.sublist hs
  lens e he := h.lens e (hs.subset he)
  nodes := (Nat.add_le_add_left (codePrefixes_le hs.subset) 1).trans h.nodes

/-! ## What a loaded table leaves in the session -/

/-- The decode tree and the tables of the session are those of the entries es, in whatever order they came. -/
structure DecodeTable (s : State) (es : List (Byte × Bits)) : Prop where
  tree : DecodeTree s
  loaded : s.root.Loaded es

section
variable {s t : State} {es : List (Byte × Bits)}

theorem DecodeTable.congr (h : DecodeTable s es) (hf : t.freq = s.freq) (ht : t.total = s.total) (hs : t.nsym = s.nsym)
    (hn : t.nodes = s.nodes) (hr : t.root = s.root) (hl : t.clen = s.clen) (hc : t.code = s.code) : DecodeTable t es :=
  ⟨h.tree.congr hf ht hs hn hr hl hc, hr ▸ h.loaded⟩

/-- NODES counts the root and the distinct non-empty prefixes of the codes (R198). -/
theorem DecodeTable.nodes (h : DecodeTable s es) : s.nodes.toNat = 1 + (codePrefixes es).length :=
  h.tree.nodes.trans (loaded_size h.loaded)

theorem DecodeTable.of_mem (h : DecodeTable s es) {x : Byte} {c : Bits} (hx : (x, c) ∈ es) :
    Table.get s.code x = c ∧ Table.get s.clen x = BitVec.ofNat 8 c.length := by
  obtain ⟨_, rfl⟩ := (h.tree.leaf x c).mp ((h.loaded.leaf c x).mpr hx)
  exact ⟨rfl, by rw [h.tree.lens, BitVec.ofNat_toNat, BitVec.setWidth_eq]⟩

theorem DecodeTable.of_not_mem (h : DecodeTable s es) {x : Byte} (hx : ∀ c, (x, c) ∉ es) :
    Table.get s.code x = [] ∧ Table.get s.clen x = 0#8 := by
  have hclen : Table.get s.clen x = 0#8 := by
    by_contra hne
    exact hx _ ((h.loaded.leaf _ x).mp ((h.tree.leaf x _).mpr ⟨hne, rfl⟩))
  exact ⟨List.length_eq_zero_iff.mp (by rw [h.tree.lens, hclen]; rfl), hclen⟩

/-- The entries determine the tree, NODES, CLEN and CODE; their order does not matter. -/
theorem DecodeTable.unique {es' : List (Byte × Bits)} (h : DecodeTable s es) (h' : DecodeTable t es') (hp : es.Perm es') :
    s.root = t.root ∧ s.clen = t.clen ∧ s.code = t.code ∧ s.nodes = t.nodes := by
  have hroot : s.root = t.root := loaded_unique h.loaded h'.loaded fun _ => hp.mem_iff
  have hsym : ∀ x, Table.get s.code x = Table.get t.code x ∧ Table.get s.clen x = Table.get t.clen x := fun x => by
    by_cases hx : ∃ c, (x, c) ∈ es
    · obtain ⟨c, hc⟩ := hx
      obtain ⟨hcode, hclen⟩ := h.of_mem hc
      obtain ⟨hcode', hclen'⟩ := h'.of_mem (hp.subset hc)
      exact ⟨hcode.trans hcode'.symm, hclen.trans hclen'.symm⟩
    · obtain ⟨hcode, hclen⟩ := h.of_not_mem (not_exists.mp hx)
      obtain ⟨hcode', hclen'⟩ := h'.of_not_mem fun c hc => hx ⟨c, hp.symm.subset hc⟩
      exact ⟨hcode.trans hcode'.symm, hclen.trans hclen'.symm⟩
  exact ⟨hroot, Table.ext_get fun x => (hsym x).2, Table.ext_get fun x => (hsym x).1,
    BitVec.eq_of_toNat_eq (by rw [h.tree.nodes, h'.tree.nodes, hroot])⟩

/-! ## One entry: its header and its data words (R190 to R193) -/

section
variable {x : Byte} {c : Bits} (hl : Loadable (es ++ [(x, c)]))
include hl

theorem Loadable.length_last : 1 ≤ c.length ∧ c.length ≤ Config.lMax :=
  hl.lens (x, c) (List.mem_append_right es (List.mem_singleton_self _))

theorem Loadable.last_not_mem : ∀ c', (x, c') ∉ es := by
  intro c' hc'
  have hsyms : (es.map Prod.fst ++ [x]).Nodup := by simpa using hl.symbols
  obtain ⟨_, _, hdisjoint⟩ := List.nodup_append.mp hsyms
  exact hdisjoint x (List.mem_map_of_mem (f := Prod.fst) hc') x (List.mem_singleton_self x) rfl

variable (h : DecodeTable s es)
include h

theorem DecodeTable.free : s.root.Free c := by
  obtain ⟨h1, _⟩ := hl.length_last
  obtain ⟨_, _, hprefix⟩ := List.pairwise_append.mp hl.prefixFree
  exact loaded_free h.loaded (List.length_pos_iff.mp h1) fun e he => hprefix e he (x, c) (List.mem_singleton_self _)

theorem DecodeTable.loaded_insert : (s.root.insert c x).Loaded (es ++ [(x, c)]) := by
  obtain ⟨h1, _⟩ := hl.length_last
  exact Machine.loaded_insert h.loaded (h.free hl) (List.length_pos_iff.mp h1)

/-- A loadable table fits the tree store at every entry, because it does at the last (R198). -/
theorem DecodeTable.capacity : s.nodes.toNat + s.root.missing c ≤ Config.nodeCap := by
  rw [h.tree.nodes, ← insert_size_of_free x h.tree.root (h.free hl), loaded_size (h.loaded_insert hl)]
  exact hl.nodes

theorem DecodeTable.clen_eq_zero : Table.get s.clen x = 0#8 := by
  obtain ⟨_, hclen⟩ := h.of_not_mem hl.last_not_mem
  exact hclen

/-- The next entry of a loadable table passes the three checks. -/
theorem DecodeTable.applyEntry_eq : applyEntry x c s =
    { s with
      root := s.root.insert c x
      nodes := BitVec.ofNat 10 (s.nodes.toNat + s.root.missing c)
      clen := Table.set s.clen x (BitVec.ofNat 8 c.length)
      code := Table.set s.code x c
      nsym := s.nsym + 1#9 } :=
  applyEntry_of_free (h.clen_eq_zero hl) h.tree.root (h.free hl) (h.capacity hl)

theorem DecodeTable.applyEntry : DecodeTable (Machine.applyEntry x c s) (es ++ [(x, c)]) := by
  obtain ⟨h1, h255⟩ := hl.length_last
  obtain ⟨d, hw, hmissing⟩ := entryWalk_of_free h.tree.root (h.free hl)
  have hcap := h.capacity hl
  have htree := h.tree.insert (List.length_pos_iff.mp h1) h255 (h.clen_eq_zero hl) hw (hmissing ▸ hcap)
  rw [h.applyEntry_eq hl]
  exact ⟨htree.congr rfl rfl rfl (by simp [hmissing, BitVec.ofNat_add]) rfl rfl rfl, h.loaded_insert hl⟩

end

/-- The session when an entry's header and data words have come and the entry is not applied yet. -/
def State.entryReady (s : State) (x : Byte) (c : Bits) : State :=
  { startDecodeTree s with
    phase := .loading, tlsym := x, tllen := BitVec.ofNat 8 c.length, tlbits := (packCode c).flatMap wordBits,
    pend := false, pendw := 0#4 }

/-- When nothing was buffered before, the data words alone hold the code. -/
theorem loadEntry_of_no_bits {u : State} {ds : List Word} {c : Bits} (hb : u.tlbits = [])
    (hc : (ds.flatMap wordBits).take u.tllen.toNat = c) : u.loadEntry ds =
      { applyEntry u.tlsym c { u with pend := false, pendw := 0#4, tlbits := ds.flatMap wordBits } with busy := false } := by
  rw [State.loadEntry, hb, List.nil_append, hc]

/-- The words of an entry apply it, with exactly its code: the unused bits of the last word are dropped (R84, R192). -/
theorem acceptWords_entryWords (x : Byte) {c : Bits} (hs : s.Ready) (hp : s.phase = .idle ∨ s.phase = .loading)
    (h1 : 1 ≤ c.length) (h255 : c.length ≤ 255) :
    acceptWords (entryWords x c) s = .next { applyEntry x c (s.entryReady x c) with busy := false } := by
  have hlen : (BitVec.ofNat 8 c.length).toNat = c.length := by rw [BitVec.toNat_ofNat]; omega
  have hne : BitVec.ofNat 8 c.length ≠ 0#8 := fun e => by rw [e] at hlen; simp at hlen; omega
  have hheader := (acceptWord_instr hs.pend (decodeCommand_tload x hne)).trans (exec_tload x hs hp hne)
  have hwords : packCode c ≠ [] := List.length_pos_iff.mp (by rw [packCode_length]; exact dataWords_pos h1)
  have howed : (packCode c).length = (pendWords (BitVec.ofNat 8 c.length)).toNat := by
    rw [packCode_length, pendWords_toNat, hlen]
  have hcode : ((packCode c).flatMap wordBits).take (BitVec.ofNat 8 c.length).toNat = c := by rw [hlen, packCode_take]
  have hdata := acceptWords_data (s := { tloadHeader (BitVec.ofNat 8 c.length) x s with busy := false }) rfl
    hs.startDecodeTree.ovr hs.startDecodeTree.stalled hwords howed
  rw [entryWords, acceptWords_cons _ hheader, hdata, loadEntry_of_no_bits rfl hcode]
  exact congrArg _ (applyEntry_busy x c (s.entryReady x c) false)

/-! ## A list of entries (R198) -/

/-- A decode session between two entries of its table, es loaded so far; before the first, the tree is the one its header makes. -/
structure State.Holds (s : State) (es : List (Byte × Bits)) : Prop where
  ready : s.Ready
  phase : s.phase = .idle ∨ s.phase = .loading
  table : DecodeTable (startDecodeTree s) es

theorem State.holds_nil (hs : s.Ready) (hp : s.phase = .idle) (hi : SessionInv s) : s.Holds [] :=
  ⟨hs, .inl hp, DecodeTree.start hi (.inl hp), by rw [startDecodeTree_idle hp]; exact loaded_nil⟩

theorem State.Holds.table_of_loading (h : s.Holds es) (hp : s.phase = .loading) : DecodeTable s es := by
  have htable := h.table
  rwa [startDecodeTree_loading hp] at htable

/-- One more entry of a loadable table. -/
theorem State.Holds.entry {x : Byte} {c : Bits} (h : s.Holds es) (hl : Loadable (es ++ [(x, c)])) :
    ∃ t, acceptWords (entryWords x c) s = .next t ∧ t.Holds (es ++ [(x, c)]) ∧ t.errCode = s.errCode ∧ t.phase = .loading := by
  obtain ⟨h1, h255⟩ := hl.length_last
  have hready : DecodeTable (s.entryReady x c) es := h.table.congr rfl rfl rfl rfl rfl rfl rfl
  have htable := hready.applyEntry hl
  refine ⟨_, acceptWords_entryWords x h.ready h.phase h1 h255, ?_⟩
  rw [hready.applyEntry_eq hl] at htable ⊢
  refine ⟨⟨⟨rfl, h.ready.startDecodeTree.ovr, h.ready.startDecodeTree.stalled⟩, .inr rfl, ?_⟩, startDecodeTree_errCode s, rfl⟩
  rw [startDecodeTree_loading rfl]
  exact htable.congr rfl rfl rfl rfl rfl rfl rfl

/-- The entries of a loadable table load one after another. -/
theorem State.Holds.entries (h : s.Holds []) (hl : Loadable es) :
    ∃ t, acceptWords (es.flatMap fun e => entryWords e.1 e.2) s = .next t ∧ t.Holds es ∧ t.errCode = s.errCode ∧
      (es ≠ [] → t.phase = .loading) := by
  induction es using List.reverseRecOn with
  | nil => exact ⟨s, rfl, h, rfl, absurd rfl⟩
  | append_singleton es e ih =>
    obtain ⟨t, hrun, ht, herr, _⟩ := ih (hl.sublist (List.sublist_append_left es [e]))
    obtain ⟨u, hentry, hu, herr', hphase⟩ := ht.entry hl
    refine ⟨u, ?_, hu, herr'.trans herr, fun _ => hphase⟩
    rw [List.flatMap_append, acceptWords_append _ hrun, List.flatMap_singleton, hentry]

/-- TFIN ends the table and leaves what it holds. -/
theorem State.Holds.tfin (h : s.Holds es) :
    ∃ t, acceptWords [encode .tfin] s = .next t ∧ t.phase = .decoding ∧ t.errCode = s.errCode ∧ DecodeTable t es := by
  have htfin := (acceptWord_instr (w := encode .tfin) h.ready.pend rfl).trans (exec_tfin h.ready h.phase)
  exact ⟨_, acceptWords_cons [] htfin, rfl, startDecodeTree_errCode s, h.table.congr rfl rfl rfl rfl rfl rfl rfl⟩

/-- A loadable table and TFIN, from IDLE. -/
theorem acceptWords_tableOut (hs : s.Ready) (hp : s.phase = .idle) (hi : SessionInv s) (hl : Loadable es) :
    ∃ t, acceptWords (tableOut es) s = .next t ∧ t.phase = .decoding ∧ t.errCode = s.errCode ∧ DecodeTable t es := by
  obtain ⟨u, hrun, hu, herr, _⟩ := (State.holds_nil hs hp hi).entries hl
  obtain ⟨t, htfin, hphase, herr', htable⟩ := hu.tfin
  exact ⟨t, (acceptWords_append _ hrun).trans htfin, hphase, herr'.trans herr, htable⟩

end

/-! ## The tree that GEN's table rebuilds (R199) -/

/-- The decode tree of an encode tree's table: the encode tree itself, but for N = 1 and N = 0. -/
def HTree.replayed : HTree → HTree
  | .empty => .internal .empty .empty
  | .leaf x => .internal (.leaf x) .empty
  | .internal l r => .internal l r

theorem replayed_of_two_leaves {t : HTree} (h : 2 ≤ t.leaves.length) : t.replayed = t := by
  cases t with
  | empty => simp [HTree.leaves] at h
  | leaf x => simp [HTree.leaves] at h
  | internal l r => rfl

theorem loaded_replayed {t : HTree} (h : t ≠ .empty → t.full = true) : t.replayed.Loaded (genEntries t) := by
  cases t with
  | empty => exact loaded_nil
  | leaf x =>
    have hfree : (HTree.internal .empty .empty).Free [false] := free_internal_cons.mpr (free_empty [])
    exact loaded_insert loaded_nil hfree (List.cons_ne_nil _ _)
  | internal l r => exact loaded_full (h nofun)

section
variable {s : State} (ht : EncodeTree s)
include ht

theorem EncodeTree.full_of_ne_empty (h : s.root ≠ .empty) : s.root.full = true := ht.full (mt ht.empty h)

theorem EncodeTree.leaves_le : s.root.leaves.length ≤ 256 :=
  (leaves_counted ht).length_eq.trans_le (countedSymbols_le s.freq)

theorem EncodeTree.replayed_size_le : s.root.replayed.size ≤ Config.nodeCap := by
  have hleaves := ht.leaves_le
  have hfull := ht.full_of_ne_empty
  cases hr : s.root with
  | empty => simp [HTree.replayed, HTree.size, Config.nodeCap]
  | leaf x => simp [HTree.replayed, HTree.size, Config.nodeCap]
  | internal l r =>
    rw [hr] at hleaves hfull
    have hsize := full_size (hfull nofun)
    simp only [HTree.replayed, Config.nodeCap]
    omega

/-- The table GEN makes of an encode tree can be loaded: each code is below 256 bits, and its tree has at most 511 nodes. -/
theorem EncodeTree.loadable : Loadable (genEntries s.root) where
  symbols := by rw [genEntries_symbols]; exact ht.nodup
  prefixFree := by
    have hsyms : ((genEntries s.root).map Prod.fst).Pairwise (· ≠ ·) := by rw [genEntries_symbols]; exact ht.nodup
    refine (List.pairwise_map.mp hsyms).imp_of_mem fun hd he hne => ?_
    exact ⟨genEntries_prefix_free hne ht.nodup hd he, genEntries_prefix_free hne.symm ht.nodup he hd⟩
  lens e he := by
    have hne : s.root ≠ .empty := fun h0 => by rw [h0] at he; cases he
    obtain ⟨h1, hmax⟩ := genEntries_length (ht.full_of_ne_empty hne) he
    have hleaves := ht.leaves_le
    exact ⟨h1, by simp only [Config.lMax]; omega⟩
  nodes := by rw [← loaded_size (loaded_replayed ht.full_of_ne_empty)]; exact ht.replayed_size_le

end

/-- The replayed tables are those of the encode session. -/
theorem DecodeTable.eq_encodeCodes {s t : State} (h : DecodeTable t (genEntries s.root)) (ht : EncodeTree s)
    (hk : EncodeCodes s) (x : Byte) : Table.get t.clen x = Table.get s.clen x ∧ Table.get t.code x = Table.get s.code x := by
  by_cases hf : Table.get s.freq x = 0#32
  · obtain ⟨hcode, hclen⟩ := hk.uncoded x hf
    have hx : ∀ c, (x, c) ∉ genEntries s.root := fun c hc => (ht.mem x).mp (genEntries_mem hc).1 hf
    obtain ⟨hcode', hclen'⟩ := h.of_not_mem hx
    exact ⟨hclen'.trans hclen.symm, hcode'.trans hcode.symm⟩
  · obtain ⟨c, hc⟩ := genEntries_of_leaves ((ht.mem x).mpr hf)
    obtain ⟨hcode, hclen⟩ := hk.coded x c hc
    obtain ⟨hcode', hclen'⟩ := h.of_mem hc
    exact ⟨hclen'.trans hclen.symm, hcode'.trans hcode.symm⟩

/-! ## The statements -/

/-- Settles O36: by induction on the entries every order loads; and what is loaded is determined by the set of entries. -/
theorem loadingOrderDoesNotMatter : Obligations.LoadingOrderDoesNotMatter := by
  intro s es es' hs hp hi hl hperm
  obtain ⟨t, hrun, hphase, herr, htable⟩ := acceptWords_tableOut hs hp hi hl
  obtain ⟨t', hrun', hphase', herr', htable'⟩ := acceptWords_tableOut hs hp hi (hl.perm hperm)
  obtain ⟨hroot, hclen, hcode, hnodes⟩ := htable.unique htable' hperm
  refine ⟨t, t', hrun, hrun', ⟨hphase, herr⟩, ⟨hphase', herr'⟩, hroot, hclen, hcode, hnodes, htable.loaded.leaf,
    htable.loaded.internal, htable.nodes, fun hne => ?beforeTfin⟩
  case beforeTfin =>
    obtain ⟨u, hrunU, hu, herrU, hphaseU⟩ := (State.holds_nil hs hp hi).entries hl
    obtain ⟨hrootU, hclenU, hcodeU, hnodesU⟩ := (hu.table_of_loading (hphaseU hne)).unique htable (.refl es)
    exact ⟨u, hrunU, hphaseU hne, herrU, hrootU, hnodesU, hclenU, hcodeU⟩

/-- Settles O37: GEN's entries are a loadable table, and the tree that holds them is `HTree.replayed`. -/
theorem replayRebuildsTheTree : Obligations.ReplayRebuildsTheTree := by
  intro s d hp hi hd hdp hdi
  obtain ⟨_, _, _, coded, _⟩ := (sessionInv_iff s).mp hi
  obtain ⟨hc, ht, hk⟩ := coded hp
  obtain ⟨t, hrun, hphase, herr, htable⟩ := acceptWords_tableOut hd hdp hdi ht.loadable
  have hroot : t.root = s.root.replayed :=
    loaded_unique htable.loaded (loaded_replayed ht.full_of_ne_empty) fun _ => Iff.rfl
  have hnodes : t.nodes.toNat = s.root.replayed.size := by rw [htable.tree.nodes, hroot]
  refine ⟨t, hrun, hphase, herr, fun h2 => ?two, fun x hx => ?single, fun h0 => ?none, htable.eq_encodeCodes ht hk⟩
  case two =>
    have hleaves := nsym_eq_leaves hc ht
    rw [replayed_of_two_leaves (hleaves ▸ h2)] at hroot hnodes
    have hne : s.root ≠ .empty := fun h0 => by rw [hleaves, h0] at h2; cases h2
    have hsize := full_size (ht.full_of_ne_empty hne)
    exact ⟨hroot, by omega⟩
  case single =>
    rw [hx] at hroot hnodes
    exact ⟨hroot, BitVec.eq_of_toNat_eq hnodes⟩
  case none =>
    have hempty : s.root = .empty := ht.empty (List.length_eq_zero_iff.mp (hc.nsym ▸ h0))
    rw [hempty] at hroot hnodes
    exact ⟨hroot, BitVec.eq_of_toNat_eq hnodes⟩

end Sys2Proof.Machine
end

section
/-! SUPPORT. DEC and DFIN (R210 to R216): their words, what one does, and what the DECs of a bit sequence do. -/

namespace Sys2Proof.Machine

/-! ## The words of DEC and DFIN (R81, R86) -/

/-- The reserved field of DEC is w[27:20] (R81). -/
theorem reservedZero_iff_of_formatD {w : Word} (ho : opcOf w = 8) : reservedZero w ↔ fieldOf w 20 8 = 0 := by
  rw [reservedZero, if_neg (by omega), if_neg (by omega), if_pos ho]

/-- The reserved field of DFIN is w[27:0] (R81). -/
theorem reservedZero_iff_of_dfin {w : Word} (ho : opcOf w = 9) : reservedZero w ↔ fieldOf w 0 28 = 0 := by
  rw [reservedZero, if_neg (by omega), if_neg (by omega), if_neg (by omega)]

theorem decodeCommand_dec (n : BitVec 4) (b : BitVec 16) : decodeCommand (encode (.dec n b)) = .instr (.dec n b) := by
  obtain ⟨hopc, hreserved, _⟩ := Laws.WordFields.dec n b
  have ho : opcOf (encode (.dec n b)) = 8 := by rw [← opcField_toNat, hopc]; rfl
  have hr := (reservedZero_iff_of_formatD ho).mp hreserved
  have hw : (encode (.dec n b)).toNat = 0x80000000 + n.toNat * 2 ^ 16 + b.toNat := encode_toNat _
  have hn : nm1Field (encode (.dec n b)) = n := BitVec.eq_of_toNat_eq (by rw [nm1Field_toNat, fieldOf, hw]; omega)
  have hb : bitsField (encode (.dec n b)) = b := BitVec.extractLsb'_append_eq_right
  simp [decodeCommand_eq, ho, decodeD_eq, hr, hn, hb]

/-! ## One DEC (R210 to R213) -/

/-- In DECODING a DEC whose walk meets no `Empty` place has the walk's effect, and stays BUSY while a symbol waits (R57). -/
theorem exec_dec_walk {s : State} {n : BitVec 4} {b : BitVec 16} {out : List Byte} {cur : Bits} (hs : s.Ready)
    (hp : s.phase = .decoding) (hw : walk s.root s.cur (decBits n b) = some (out, cur)) :
    exec (.dec n b) s = .next { afterWalk s out cur with busy := (afterWalk s out cur).stalled } := by
  rw [exec_dec n b hs.pend hp, decodeBits_walk hw, finish_of_ovr_false (by exact hs.ovr)]

/-- In DECODING a DEC whose walk meets an `Empty` place does what the bits before do, and raises BAD_PATH with the bit, its index
and the depth reached (R212). -/
theorem exec_dec_badPath {s : State} {n : BitVec 4} {b : BitVec 16} (hs : s.Ready) (hp : s.phase = .decoding)
    (hw : walk s.root s.cur (decBits n b) = none) :
    ∃ j out cur, j ≤ n.toNat ∧ walk s.root s.cur ((decBits n b).take j) = some (out, cur) ∧
      s.root.nodeAt (cur ++ [b.getLsbD (15 - j)]) = .empty ∧
      exec (.dec n b) s = .next
        (finish (raise .badPath (badPathInfo (b.getLsbD (15 - j)) j cur.length) (afterWalk s out cur))) := by
  obtain ⟨j, out, cur, hj, hbefore, hempty, heffect⟩ := decodeBits_stuck (j := 0) hw
  rw [decBits_getElem] at hempty heffect
  rw [Nat.zero_add] at heffect
  rw [decBits_length, decCount] at hj
  exact ⟨j, out, cur, by omega, hbefore, hempty, by rw [exec_dec n b hs.pend hp, heffect]⟩

/-! ## DFIN (R215, R216) -/

section
variable {s : State} (hs : s.Ready) (hp : s.phase = .decoding)
include hs hp

theorem exec_dfin_root (hc : s.cur = []) : exec .dfin s = .next { s with phase := .done, busy := false } :=
  exec_quiet hs (by decide) rfl (by rw [hp]; rfl) (u := { s with phase := .done }) (if_neg (by simp [hc])) hs.ovr hs.stalled

theorem exec_dfin_off_root (hc : s.cur ≠ []) : exec .dfin s = .next (s.raised .truncated (truncatedInfo s.cur.length)) :=
  exec_quiet hs (by decide) rfl (by rw [hp]; rfl) (u := raise .truncated (truncatedInfo s.cur.length) s)
    (if_pos (by simpa using hc)) rfl hs.stalled

end

/-! ## The DECs of a bit sequence (R90) -/

/-- DECS takes 16 bits for its first word and goes on with the rest (R90). -/
theorem decsWords_of_ne_nil {c : Bits} (hc : c ≠ []) : decsWords c = decWord (c.take 16) :: decsWords (c.drop 16) := by
  have hpos := List.length_pos_iff.mpr hc
  have hwords : (c.length + 15) / 16 = ((c.drop 16).length + 15) / 16 + 1 := by rw [List.length_drop]; omega
  rw [decsWords, hwords, List.range_succ_eq_map, List.map_cons, List.map_map, Nat.mul_zero, List.drop_zero, decsWords]
  refine congrArg _ (List.map_congr_left fun k _ => ?_)
  rw [Function.comp_apply, List.drop_drop, Nat.mul_succ, Nat.add_comm]

/-- The operands of the DEC that carries 1 to 16 bits (R89). -/
def decOperands (c : Bits) : BitVec 4 × BitVec 16 := (BitVec.ofNat 4 (c.length - 1), (packWord c).extractLsb' 16 16)

/-- The operands of the DECs of a bit sequence (R90). -/
def decsOperands (c : Bits) : List (BitVec 4 × BitVec 16) :=
  (List.range ((c.length + 15) / 16)).map fun k => decOperands ((c.drop (16 * k)).take 16)

theorem decsWords_eq_encode (c : Bits) : decsWords c = (decsOperands c).map fun d => encode (.dec d.1 d.2) := by
  rw [decsOperands, List.map_map]; rfl

@[simp] theorem afterWalk_nil (s : State) : afterWalk s [] s.cur = s := by simp [afterWalk]

/-- What a walk does after another: SYMCNT wraps, so the counts add as the symbols are joined (R34). -/
theorem afterWalk_afterWalk (s : State) (out out' : List Byte) (cur cur' : Bits) :
    afterWalk (afterWalk s out cur) out' cur' = afterWalk s (out ++ out') cur' := by
  have hcount : BitVec.ofNat 32 ((BitVec.ofNat 32 (s.symcnt.toNat + out.length)).toNat + out'.length) =
      BitVec.ofNat 32 (s.symcnt.toNat + (out ++ out').length) :=
    BitVec.eq_of_toNat_eq (by simp [Nat.add_assoc])
  simp only [afterWalk, hcount, List.append_assoc]

/-- An unbounded SYM_OUT never makes a DEC wait (R57). -/
theorem afterWalk_stalled {s : State} (hd : s.depths.symq = .unbounded) (out : List Byte) (cur : Bits) :
    (afterWalk s out cur).stalled = s.stalled := by
  simp [State.stalled, afterWalk, hd, Depth.holds]

theorem State.Ready.afterWalk {s : State} (hs : s.Ready) (hd : s.depths.symq = .unbounded) (out : List Byte) (cur : Bits) :
    (afterWalk s out cur).Ready :=
  ⟨hs.pend, hs.ovr, (afterWalk_stalled hd out cur).trans hs.stalled⟩

/-- Whether a session is between two commands does not depend on BUSY. -/
theorem State.Ready.withBusy {s : State} (hs : s.Ready) (b : Bool) : ({ s with busy := b } : State).Ready :=
  ⟨hs.pend, hs.ovr, hs.stalled⟩

/-- The word of at most 16 bits walks over exactly them (R85, R89). -/
theorem acceptWord_decWord {s : State} {c : Bits} {out : List Byte} {cur : Bits} (hs : s.Ready) (hp : s.phase = .decoding)
    (hd : s.depths.symq = .unbounded) (h0 : c ≠ []) (h16 : c.length ≤ 16) (hw : walk s.root s.cur c = some (out, cur)) :
    acceptWord (decWord c) s = .next { afterWalk s out cur with busy := false } := by
  rw [← decBits_packed h0 h16] at hw
  rw [decWord, acceptWord_instr hs.pend (decodeCommand_dec _ _), exec_dec_walk hs hp hw, afterWalk_stalled hd, hs.stalled]

/-- The DECs of a bit sequence do what the walk over it does, in words of up to 16 bits; an empty sequence leaves BUSY as it is. -/
theorem acceptWords_decs (c : Bits) {s : State} {out : List Byte} {cur : Bits} (hs : s.Ready) (hp : s.phase = .decoding)
    (hd : s.depths.symq = .unbounded) (hw : walk s.root s.cur c = some (out, cur)) :
    ∃ busy, acceptWords (decsWords c) s = .next { afterWalk s out cur with busy := busy } := by
  by_cases hc : c = []
  · subst hc
    cases hw
    exact ⟨s.busy, by rw [afterWalk_nil]; rfl⟩
  · have hpos := List.length_pos_iff.mpr hc
    have hdrop : (c.drop 16).length < c.length := by rw [List.length_drop]; omega
    rw [← List.take_append_drop 16 c, walk_append] at hw
    obtain ⟨⟨out₁, cur₁⟩, hfirst, hw⟩ := Option.bind_eq_some_iff.mp hw
    obtain ⟨⟨out₂, cur₂⟩, hrest, hw⟩ := Option.map_eq_some_iff.mp hw
    cases hw
    have hword := acceptWord_decWord hs hp hd (by simp [hc]) (by simp) hfirst
    obtain ⟨busy, hwords⟩ := acceptWords_decs (c.drop 16) ((hs.afterWalk hd out₁ cur₁).withBusy false) hp hd hrest
    refine ⟨busy, ?_⟩
    rw [decsWords_of_ne_nil hc, acceptWords_cons _ hword, hwords, ← afterWalk_afterWalk s out₁ out₂ cur₁ cur₂]
    rfl
termination_by c.length

/-! ## The statements -/

/-- Settles O39: the walk meets no `Empty` place, or it is stuck at the first bit onto one, after what the bits before it did. -/
theorem decWalksTheTree : Obligations.DecWalksTheTree := by
  refine fun s n b hs he => ⟨fun hp => ⟨fun out cur hw => ?walks, fun hw => ?badPath⟩, fun hp => ?illegal,
    fun w ho hf => ?reserved⟩
  case walks => exact ⟨_, exec_dec_walk hs hp hw, rfl⟩
  case badPath =>
    obtain ⟨j, out, cur, hj, hbefore, hempty, hexec⟩ := exec_dec_badPath hs hp hw
    exact ⟨j, out, cur, hj, hbefore, hempty, _, hexec.trans (congrArg _ (finish_of_ovr_false rfl)), rfl⟩
  case illegal => exact exec_illegal hs he rfl (by simpa [legal] using hp)
  case reserved => exact acceptWord_badCmd_ready hs he (by omega) (.inl ((reservedZero_iff_of_formatD ho).not.mpr hf))

/-- Settles O41: DFIN's effect has two branches, on whether the cursor is at the root. -/
theorem dfinChecksTheCursor : Obligations.DfinChecksTheCursor := by
  refine fun s hs he => ⟨exec_dfin_root hs, exec_dfin_off_root hs, fun hp => ?illegal, fun w ho hf => ?reserved⟩
  case illegal => exact exec_illegal hs he rfl (by simpa [legal] using hp)
  case reserved => exact acceptWord_badCmd_ready hs he (by omega) (.inl ((reservedZero_iff_of_dfin ho).not.mpr hf))

end Sys2Proof.Machine
end

section
/-! SUPPORT. An encode session and the decode session that inverts it (R214, R276). -/

namespace Sys2Proof.Machine

/-! ## The encode session -/

/-- COUNTs that TOTAL has room for change NSYM, F, TOTAL, PHASE and BUSY alone (R130). -/
theorem acceptWords_counts_frame (bs : List Byte) {s t : State} (hs : s.Ready) (hp : s.phase = .idle ∨ s.phase = .counting)
    (hl : s.total.toNat + bs.length ≤ 0xFFFFFFFF) (h : acceptWords (countsWords bs) s = .next t) :
    t = { s with nsym := t.nsym, freq := t.freq, total := t.total, phase := t.phase, busy := t.busy } := by
  induction bs generalizing s with
  | nil => cases h; rfl
  | cons b bs ih =>
    rw [List.length_cons] at hl
    have ht : s.total ≠ 0xFFFFFFFF#32 := fun e => by simp [e] at hl
    obtain ⟨hpend, hovr, hstalled⟩ := hs.countSymbol (sym := b)
    have hrest := (acceptWords_cons (countsWords bs) (acceptWord_count hs hp)).symm.trans h
    refine (ih (s := { countSymbol b s with busy := false }) ⟨hpend, hovr, hstalled⟩ (.inr (countSymbol_phase ht))
      (by rw [countSymbol_total ht]; omega) hrest).trans ?_
    rw [countSymbol_of_total_ne_max ht]

/-- BUILD and GEN on unbounded queues have their effects, one after the other. -/
theorem acceptWords_build_gen {s : State} (hs : s.Ready) (hp : s.phase = .idle ∨ s.phase = .counting)
    (hd : s.depths = { bitq := .unbounded, symq := .unbounded, tblq := .unbounded }) :
    acceptWords [encode .build, encode .gen] s = .next { genEffect (buildEffect s) with busy := false } := by
  have hbuild : acceptWord (encode .build) s = .next { buildEffect s with busy := false } :=
    (acceptWord_instr hs.pend rfl).trans (exec_quiet hs (by decide) rfl (by simpa [legal] using hp) rfl hs.ovr hs.stalled)
  have hready : ({ buildEffect s with busy := false } : State).Ready := ⟨hs.pend, hs.ovr, hs.stalled⟩
  have hgen := (acceptWord_instr (w := encode .gen) hready.pend rfl).trans (exec_gen hready rfl)
  have hstalled : (genEffect { buildEffect s with busy := false }).stalled = false := not_stalled_of_unbounded hd
  rw [hstalled] at hgen
  exact (acceptWords_cons _ hbuild).trans (acceptWords_cons [] hgen)

/-- In CODED a counted symbol has a code, and it is its entry's in the table of the tree. -/
theorem hasCode_of_counted {s : State} (hc : Counts s) (ht : EncodeTree s) (hk : EncodeCodes s) {x : Byte}
    (hx : Table.get s.freq x ≠ 0#32) : s.HasCode x ∧ (x, Table.get s.code x) ∈ genEntries s.root := by
  obtain ⟨p, hentry, rfl, hlen, _⟩ := coded_facts hc ht hk x hx
  exact ⟨⟨(clen_ne_zero_iff hc ht hk x).mpr hx, hlen.symm⟩, hentry⟩

/-- e is a state that an encode session of bs leaves when it starts in s: the table of its tree is on TBL_OUT, and on BIT_OUT the
codes of bs, which stand in that table. -/
structure Encoded (s : State) (bs : List Byte) (e : State) : Prop where
  phase : e.phase = .coded
  errCode : e.errCode = s.errCode
  tree : EncodeTree e
  codes : ∀ b ∈ bs, (b, Table.get e.code b) ∈ genEntries e.root
  tblOut : e.tblOut = s.tblOut.emit (tableOut (genEntries e.root))
  bitOut : e.bitOut = s.bitOut.emit (bs.flatMap (Table.get e.code))

section
variable {s : State} {bs : List Byte}

/-- After the COUNTs of bs: BUILD, GEN and the ENCs of bs. -/
theorem acceptWords_encodeCounted (hs : s.Ready) (hp : s.phase = .idle ∨ s.phase = .counting)
    (hd : s.depths = { bitq := .unbounded, symq := .unbounded, tblq := .unbounded }) (hc : Counts s) (hn : NoCodes s)
    (hb : ∀ b ∈ bs, Table.get s.freq b ≠ 0#32) :
    ∃ e, acceptWords ([encode .build, encode .gen] ++ encsWords bs) s = .next e ∧ Encoded s bs e := by
  have hgen := acceptWords_build_gen hs hp hd
  have hbuilt : SessionInv (buildEffect s) := ⟨⟨hc.total, hc.nsym⟩, ⟨hn.clen, hn.code⟩, encodeTree_build⟩
  obtain ⟨hcoded, htree, hcodes⟩ := coded_genEffect rfl hbuilt
  have hentry := fun b hb' => hasCode_of_counted hcoded htree hcodes (hb b hb')
  have hready : (genEffect (buildEffect s)).Ready := ⟨hs.pend, hs.ovr, not_stalled_of_unbounded hd⟩
  obtain ⟨busy, hencs⟩ := acceptWords_encs bs (hready.withBusy false) rfl (congrArg _ hd) fun b hb' => (hentry b hb').1
  exact ⟨_, (acceptWords_append _ hgen).trans hencs, rfl, rfl,
    ⟨htree.empty, htree.full, htree.nodup, htree.mem, htree.nodes⟩, fun b hb' => (hentry b hb').2, rfl, rfl⟩

/-- An encode session of any bytes that TOTAL can count (R90). -/
theorem acceptWords_encodeSession (hs : s.Ready) (hp : s.phase = .idle) (hi : SessionInv s)
    (hd : s.depths = { bitq := .unbounded, symq := .unbounded, tblq := .unbounded }) (hl : bs.length ≤ 0xFFFFFFFF) :
    ∃ e, acceptWords (encodeSessionWords bs bs) s = .next e ∧ Encoded s bs e := by
  obtain ⟨idle, _⟩ := (sessionInv_iff s).mp hi
  obtain ⟨hempty, hnocodes, _⟩ := idle hp
  have hroom : s.total.toNat + bs.length ≤ 0xFFFFFFFF := by simpa [hempty.total] using hl
  obtain ⟨t, hrun, hcounts, hfreq, _, hphase⟩ := acceptWords_counts bs hs (.inl hp) (counts_empty hempty) hroom
  have hframe := acceptWords_counts_frame bs hs (.inl hp) hroom hrun
  have hcounted : ∀ b ∈ bs, Table.get t.freq b ≠ 0#32 := fun b hb h0 => by
    have hpos := List.count_pos_iff.mpr hb
    have hcount := hfreq b
    rw [h0, BitVec.toNat_ofNat] at hcount
    omega
  have hready : t.Ready := by rw [hframe]; exact ⟨hs.pend, hs.ovr, hs.stalled⟩
  have hphase : t.phase = .idle ∨ t.phase = .counting := by rw [hphase, hp]; split <;> simp
  have hnone : NoCodes t := by rw [hframe]; exact ⟨hnocodes.clen, hnocodes.code⟩
  obtain ⟨e, hencode, he⟩ := acceptWords_encodeCounted hready hphase (by rw [hframe]; exact hd) hcounts hnone hcounted
  refine ⟨e, ?run, he.phase, ?errCode, he.tree, he.codes, ?tblOut, ?bitOut⟩
  case run => rw [encodeSessionWords, List.append_assoc, acceptWords_append _ hrun, hencode]
  case errCode => rw [he.errCode, hframe]
  case tblOut => rw [he.tblOut, hframe]
  case bitOut => rw [he.bitOut, hframe]

theorem encodeSessionWords_ne_srst (cs : List Byte) : ∀ w ∈ encodeSessionWords cs bs, w ≠ 0x10000000#32 := by
  simp only [encodeSessionWords, countsWords, encsWords, List.mem_append, List.mem_map, List.mem_cons, List.not_mem_nil, or_false]
  rintro w ((⟨b, _, rfl⟩ | rfl | rfl) | ⟨b, _, rfl⟩) <;> exact encode_ne_srst nofun

theorem since_emit {α : Type} (q : OutStream α) (vs : List α) : q.since (q.emit vs) = vs := by
  rw [OutStream.since, emit_emitted, List.drop_left]

theorem Encoded.result {e : State} (h : Encoded s bs e) :
    encodeResult s e = { table := tableOut (genEntries e.root), payload := bs.flatMap (Table.get e.code) } := by
  rw [encodeResult, h.tblOut, h.bitOut, since_emit, since_emit]

/-- On unbounded queues those words, accepted one after another from IDLE, complete the session (R276). -/
theorem Encoded.completed {e : State} (h : Encoded s bs e) (hp : s.phase = .idle) (hb : s.busy = false)
    (hd : s.depths = { bitq := .unbounded, symq := .unbounded, tblq := .unbounded }) (he : s.errCode = .none)
    (hrun : acceptWords (encodeSessionWords bs bs) s = .next e) : EncodeCompleted s e := by
  have hquiet : e.NoError := by simp [State.NoError, h.phase]
  obtain ⟨hpath, hended⟩ := SessionPath.start.acceptAll _ hb hd (encodeSessionWords_ne_srst bs) hrun hquiet
  exact ⟨hp, ⟨bs, bs, hpath⟩, h.phase, h.errCode.trans he, hended⟩

end

/-! ## The decode session -/

theorem startDecodeTree_symOut_depths (s : State) :
    (startDecodeTree s).symOut = s.symOut ∧ (startDecodeTree s).depths = s.depths := by
  unfold startDecodeTree
  split <;> exact ⟨rfl, rfl⟩

/-- LEN holds the length of every loadable code, and is not 0 (R83, R198). -/
theorem Loadable.len_toNat {es : List (Byte × Bits)} (hl : Loadable es) {e : Byte × Bits} (he : e ∈ es) :
    (BitVec.ofNat 8 e.2.length).toNat = e.2.length ∧ BitVec.ofNat 8 e.2.length ≠ 0#8 := by
  obtain ⟨h1, h255⟩ := hl.lens e he
  have hlen : (BitVec.ofNat 8 e.2.length).toNat = e.2.length := by
    simp only [Config.lMax] at h255
    rw [BitVec.toNat_ofNat]
    omega
  refine ⟨hlen, fun h0 => ?_⟩
  rw [← hlen, h0] at h1
  exact absurd h1 (by decide)

/-- The words of an entry emit nothing on SYM_OUT. -/
theorem acceptWords_entryWords_frame {s t : State} {x : Byte} {c : Bits} (hs : s.Ready)
    (hp : s.phase = .idle ∨ s.phase = .loading) (h1 : 1 ≤ c.length) (h255 : c.length ≤ 255)
    (h : acceptWords (entryWords x c) s = .next t) : t.symOut = s.symOut ∧ t.depths = s.depths := by
  rw [acceptWords_entryWords x hs hp h1 h255] at h
  cases h
  rcases applyEntry_cases x c (s.entryReady x c) with ⟨_, _, e⟩ | ⟨_, _, _, _, e⟩
  all_goals rw [e]; exact startDecodeTree_symOut_depths s

/-- t is a state in which a decode session begun in s has loaded the entries es, one after another. -/
structure LoadedFrom (s : State) (es : List (Byte × Bits)) (t : State) : Prop where
  path : SessionPath s (es.flatMap fun e => entryWords e.1 e.2) t
  ended : t.busy = false
  holds : t.Holds es
  errCode : t.errCode = s.errCode
  symOut : t.symOut = s.symOut
  depths : t.depths = s.depths

section
variable {s : State} {es : List (Byte × Bits)}
variable (hd : s.depths = { bitq := .unbounded, symq := .unbounded, tblq := .unbounded })
include hd

theorem LoadedFrom.entry {t : State} {x : Byte} {c : Bits} (h : LoadedFrom s es t) (hl : Loadable (es ++ [(x, c)])) :
    ∃ u, acceptWords (entryWords x c) t = .next u ∧ LoadedFrom s (es ++ [(x, c)]) u := by
  obtain ⟨h1, h255⟩ := hl.length_last
  obtain ⟨_, hne⟩ := hl.len_toNat (e := (x, c)) (by simp)
  obtain ⟨u, hrun, hholds, herr, hphase⟩ := h.holds.entry hl
  obtain ⟨hpath, hended⟩ := h.path.acceptEntry h.holds.ready h.ended (h.depths.trans hd) h.holds.phase h1 h255
    (decodeCommand_tload x hne) hrun (by simp [State.NoError, hphase])
  obtain ⟨hsym, hdepths⟩ := acceptWords_entryWords_frame h.holds.ready h.holds.phase h1 h255 hrun
  exact ⟨u, hrun, by simpa using hpath, hended, hholds, herr.trans h.errCode, hsym.trans h.symOut, hdepths.trans h.depths⟩

theorem acceptWords_entries (hs : s.Ready) (hb : s.busy = false) (hp : s.phase = .idle) (hi : SessionInv s) (hl : Loadable es) :
    ∃ t, acceptWords (es.flatMap fun e => entryWords e.1 e.2) s = .next t ∧ LoadedFrom s es t := by
  induction es using List.reverseRecOn with
  | nil => exact ⟨s, rfl, .start, hb, State.holds_nil hs hp hi, rfl, rfl, rfl⟩
  | append_singleton es e ih =>
    obtain ⟨t, hrun, ht⟩ := ih (hl.sublist (List.sublist_append_left es [e]))
    obtain ⟨u, hentry, hu⟩ := ht.entry hd hl
    exact ⟨u, by rw [List.flatMap_append, acceptWords_append _ hrun, List.flatMap_singleton, hentry], hu⟩

end

/-- With the table loaded, the DECs of its codes emit their symbols and end at the root, so that DFIN ends the session (R211,
R215). -/
theorem acceptWords_decodeLoaded {s : State} {es : List (Byte × Bits)} (h : s.Holds es) (hd : s.depths.symq = .unbounded)
    {bs : List Byte} {code : Byte → Bits} (hc : ∀ b ∈ bs, (b, code b) ∈ es) :
    acceptWords (encode .tfin :: decsWords (bs.flatMap code) ++ [encode .dfin]) s =
      .next { afterWalk (tfinEffect s) bs [] with phase := .done, busy := false } := by
  obtain ⟨_, hdepths⟩ := startDecodeTree_symOut_depths s
  have htfin := (acceptWord_instr (w := encode .tfin) h.ready.pend rfl).trans (exec_tfin h.ready h.phase)
  have hready : ({ tfinEffect s with busy := false } : State).Ready :=
    have hstart := h.ready.startDecodeTree
    ⟨hstart.pend, hstart.ovr, hstart.stalled⟩
  have hsymq : (startDecodeTree s).depths.symq = .unbounded := by rw [hdepths, hd]
  have hwalk : walk (startDecodeTree s).root [] (bs.flatMap code) = some (bs, []) :=
    walk_codes h.table.tree.root bs fun b hb => (h.table.loaded.leaf _ b).mpr (hc b hb)
  obtain ⟨busy, hdecs⟩ := acceptWords_decs (bs.flatMap code) hready rfl hsymq hwalk
  have hended := (hready.afterWalk hsymq bs []).withBusy busy
  have hdfin := (acceptWord_instr (w := encode .dfin) hended.pend rfl).trans (exec_dfin_root hended rfl rfl)
  rw [List.cons_append, acceptWords_cons _ htfin, acceptWords_append _ hdecs, acceptWords_cons _ hdfin]
  rfl

/-- The TLOAD of an entry, with its data words. -/
def loadWords (e : Byte × Bits) : LoadWords := { len := BitVec.ofNat 8 e.2.length, sym := e.1, data := packCode e.2 }

theorem Loadable.loadWords_whole {es : List (Byte × Bits)} (hl : Loadable es) : ∀ l ∈ es.map loadWords, l.whole := by
  simp only [List.mem_map]
  rintro l ⟨e, he, rfl⟩
  obtain ⟨hlen, hne⟩ := hl.len_toNat he
  exact ⟨hne, by rw [loadWords, hlen, packCode_length]⟩

/-- DECODE's words after SRST are those of a decode session (R90, R276). -/
theorem decodeSessionWords_eq (es : List (Byte × Bits)) (c : Bits) :
    decodeSessionWords (es.map loadWords) (decsOperands c) =
      (es.flatMap fun e => entryWords e.1 e.2) ++ (encode .tfin :: decsWords c ++ [encode .dfin]) := by
  rw [decodeSessionWords, decsWords_eq_encode, List.flatMap_map]
  simp [loadWords, entryWords]

theorem decodeTail_ne_srst (c : Bits) : ∀ w ∈ encode .tfin :: decsWords c ++ [encode .dfin], w ≠ 0x10000000#32 := by
  simp only [decsWords_eq_encode, List.mem_append, List.mem_cons, List.mem_map, List.not_mem_nil, or_false]
  rintro w ((rfl | ⟨d, _, rfl⟩) | rfl) <;> exact encode_ne_srst nofun

/-- On unbounded queues the words of DECODE after SRST complete a decode session, whose result is the symbols whose codes the DECs
carry. -/
theorem acceptWords_decodeSession {s : State} {es : List (Byte × Bits)} {bs : List Byte} {code : Byte → Bits} (hs : s.Ready)
    (hb : s.busy = false) (hp : s.phase = .idle) (hi : SessionInv s) (he : s.errCode = .none)
    (hd : s.depths = { bitq := .unbounded, symq := .unbounded, tblq := .unbounded }) (hl : Loadable es)
    (hc : ∀ b ∈ bs, (b, code b) ∈ es) :
    ∃ t, acceptWords (tableOut es ++ decsWords (bs.flatMap code) ++ [encode .dfin]) s = .next t ∧ DecodeCompleted s t ∧
      t.symOut = s.symOut.emit bs := by
  obtain ⟨u, hload, hu⟩ := acceptWords_entries hd hs hb hp hi hl
  have hud := hu.depths.trans hd
  have htail := acceptWords_decodeLoaded hu.holds (congrArg _ hud) hc
  obtain ⟨hsym, _⟩ := startDecodeTree_symOut_depths u
  obtain ⟨hpath, hended⟩ := hu.path.acceptAll _ hu.ended hud (decodeTail_ne_srst _) htail (by simp [State.NoError])
  rw [← decodeSessionWords_eq] at hpath
  refine ⟨_, ?run, ⟨hp, ⟨_, _, hl.loadWords_whole, hpath⟩, rfl, ?errCode, hended⟩, ?symOut⟩
  case run =>
    rw [tableOut, List.append_assoc, List.append_assoc, acceptWords_append _ hload]
    exact htail
  case errCode => exact (startDecodeTree_errCode u).trans (hu.errCode.trans he)
  case symOut => exact congrArg (OutStream.emit · bs) (hsym.trans hu.symOut)

/-! ## The statement -/

/-- SRST between commands leaves a session that has done nothing. -/
theorem sessionInv_softReset (s : State) : SessionInv { softReset s with busy := false } :=
  ⟨⟨rfl, rfl, rfl⟩, ⟨rfl, rfl⟩, ⟨rfl, rfl⟩⟩

theorem State.Ready.softReset {s : State} (hs : s.Ready) : ({ softReset s with busy := false } : State).Ready :=
  ⟨rfl, rfl, hs.stalled⟩

/-- Settles O42: the payload is the codes of the bytes, each of them stands in the table GEN emitted, that table can be loaded, and
the walk along the codes of a loaded table emits their symbols. -/
theorem decodingInvertsEncoding : Obligations.DecodingInvertsEncoding := by
  intro bs s d hl hs hd hsd hdd
  have hsrst : exec .srst s = .next { softReset s with busy := false } := exec_srst hs.pend
  have hsrst' : exec .srst d = .next { softReset d with busy := false } := exec_srst hd.pend
  obtain ⟨e, hencode, he⟩ := acceptWords_encodeSession hs.softReset rfl (sessionInv_softReset s) hsd hl
  obtain ⟨t, hdecode, hcompleted, hsym⟩ := acceptWords_decodeSession hd.softReset rfl rfl (sessionInv_softReset d) rfl hdd
    he.tree.loadable he.codes
  refine ⟨_, e, _, t, hsrst, ?encode, he.completed rfl rfl hsd rfl hencode, ?table, ?payload, hsrst', ?decode, hcompleted,
    ?result, ?symbols⟩
  case encode => exact (acceptWords_cons _ ((acceptWord_instr hs.pend rfl).trans hsrst)).trans hencode
  case table => rw [he.result, he.tblOut, emit_emitted]; rfl
  case payload => rw [he.result, he.bitOut, emit_emitted]; rfl
  case decode =>
    rw [he.result]
    exact (acceptWords_cons _ ((acceptWord_instr hd.pend rfl).trans hsrst')).trans hdecode
  case result => rw [decodeResult, hsym, since_emit]
  case symbols => rw [hsym, emit_emitted]; rfl

end Sys2Proof.Machine
end

section
/-! SUPPORT. The lost word (R42, R237): how it is latched, that no accepted word's effect reads it, and how the end of a command
reports it. -/

namespace Sys2Proof.Machine

/-! ## What an accepted word does to the latch (R236, R237) -/

/-- The state with the latch set to OVR = b and OVRWORD = v, but OVR clear when an error was raised (R236). -/
def State.withLost (t : State) (b : Bool) (v : Word) : State := { t with ovr := t.phase != .error && b, ovrWord := v }

theorem withLost_of_not_error {t : State} (h : t.phase ≠ .error) (b : Bool) (v : Word) :
    t.withLost b v = { t with ovr := b, ovrWord := v } := by simp [State.withLost, h]

theorem applyEntry_lost (sym : Byte) (c : Bits) {s : State} (he : s.phase ≠ .error) (b : Bool) (v : Word) :
    applyEntry sym c { s with ovr := b, ovrWord := v } = (applyEntry sym c s).withLost b v := by
  unfold applyEntry
  simp only
  split
  · rfl
  · split
    · rfl
    · split
      · rfl
      · exact Eq.symm (withLost_of_not_error (by exact he) b v)

theorem tloadData_lost (w : Word) {s : State} (he : s.phase ≠ .error) (b : Bool) (v : Word) :
    tloadData w { s with ovr := b, ovrWord := v } = (tloadData w s).withLost b v := by
  unfold tloadData
  simp only
  split
  · exact applyEntry_lost _ _ (s := { s with tlbits := _, pendw := _, pend := false }) he b v
  · exact Eq.symm (withLost_of_not_error (by exact he) b v)

theorem decodeBits_lost (bs : Bits) (j : Nat) {s : State} (he : s.phase ≠ .error) (b : Bool) (v : Word) :
    decodeBits bs j { s with ovr := b, ovrWord := v } = (decodeBits bs j s).withLost b v := by
  induction bs generalizing j s with
  | nil => exact (withLost_of_not_error he b v).symm
  | cons x bs ih =>
    simp only [decodeBits]
    split
    · rfl
    · exact ih (j + 1) (s := { s with symOut := s.symOut.emit [_], symcnt := s.symcnt + 1#32, cur := [] }) he
    · exact ih (j + 1) (s := { s with cur := s.cur ++ [x] }) he

theorem effectOf_lost (i : Instr) {s : State} (he : s.phase ≠ .error) (b : Bool) (v : Word) :
    effectOf i { s with ovr := b, ovrWord := v } = (effectOf i s).withLost b v := by
  cases i with
  | nop | srst => exact (withLost_of_not_error he b v).symm
  | build | gen => rfl
  | count sym => simp only [effectOf, countSymbol]; split <;> rfl
  | enc sym =>
    simp only [effectOf, encodeSymbol]
    split
    · rfl
    · exact Eq.symm (withLost_of_not_error (by exact he) b v)
  | tload len sym => simp only [effectOf, tloadHeader, startDecodeTree]; split <;> rfl
  | tfin => simp only [effectOf, tfinEffect, startDecodeTree]; split <;> rfl
  | dec nm1 bits => exact decodeBits_lost _ 0 he b v
  | dfin => simp only [effectOf, dfinEffect]; split <;> rfl

/-- What a word does before its command ends does not depend on the latch: an error clears OVR, anything else keeps it. -/
theorem acceptBody_lost (w : Word) {s : State} (he : s.phase ≠ .error) (b : Bool) (v : Word) :
    acceptBody w { s with ovr := b, ovrWord := v } = (acceptBody w s).withLost b v := by
  unfold acceptBody
  simp only [if_neg he]
  split
  · exact tloadData_lost w he b v
  · cases decodeCommand w with
    | instr i =>
      simp only
      split
      · split
        · exact effectOf_lost i he b v
        · rfl
      · rfl
    | data _ => exact (withLost_of_not_error he b v).symm
    | badOpc | badCmd => rfl

/-! ## The end of a command with a word latched (R237) -/

/-- The first write is kept, a later one is lost too. -/
theorem latchOverrun_eq (v : Word) (s : State) :
    latchOverrun v s = { s with ovr := true, ovrWord := if s.ovr then s.ovrWord else v } := by
  unfold latchOverrun
  split
  case isTrue ho => rw [← ho]
  case isFalse => rfl

/-- A command that waits for nothing reports the latched word, unless it ended in ERROR, which only clears OVR. -/
theorem finish_of_ovr {s : State} (ho : s.ovr = true) (hs : s.stalled = false) :
    finish s = if s.phase = .error then { s with busy := false, ovr := false } else s.raised .overrun s.ovrWord := by
  rcases finish_cases s with ⟨h, _⟩ | ⟨_, _, he, e⟩ | ⟨_, h, e⟩
  · rw [hs] at h; cases h
  · rw [if_neg he, e]; rfl
  · rw [if_pos (h.resolve_left (by simp [ho])), e]

@[simp] theorem withLost_stalled (u : State) (b : Bool) (v : Word) : (u.withLost b v).stalled = u.stalled := rfl

theorem finish_withLost_phase (u : State) (v : Word) : (finish (u.withLost false v)).phase = u.phase := by
  rw [finish_of_ovr_false (Bool.and_false _)]; rfl

/-- The end of a command with a word latched, told from its end without one. -/
theorem finish_withLost {u : State} (hs : u.stalled = false) (v : Word) :
    finish (u.withLost true v) = if u.phase = .error then finish (u.withLost false v)
      else (finish (u.withLost false v)).raised .overrun v := by
  split
  case isTrue he => simp [State.withLost, he]
  case isFalse he =>
    rw [withLost_of_not_error he, withLost_of_not_error he, finish_of_ovr rfl (by exact hs), if_neg he,
      finish_quiet rfl (by exact hs)]
    rfl

/-- Every word but the command SRST makes its change and ends (R110). -/
theorem acceptWord_ne_srst {w : Word} {s : State} (h : w ≠ 0x10000000#32 ∨ s.pend = true) :
    acceptWord w s = .next (finish (acceptBody w s)) := by
  rcases acceptWord_cases w s with ⟨hw, hp, _⟩ | ⟨_, e⟩
  · exact absurd hp (by simp [h.resolve_left (absurd hw)])
  · exact e

/-! ## The statements -/

/-- Settles O15: a word's effect does not read the latch, so its end with a word latched is its end without one, and then the
report; a take ends the waiting command in the same way. -/
theorem overrunIsReportedAtTheEnd : Obligations.OverrunIsReportedAtTheEnd := by
  refine ⟨fun s v hb => ?latch, fun w s t ho he hw ht hst => ?word, fun s q hb ho hst => ?take,
    fun s hp => ⟨_, (acceptWord_instr hp rfl).trans (exec_srst hp), rfl, rfl⟩⟩
  case latch =>
    rw [hostAct_write_w32 (by decide), hostWrite, if_pos rfl, if_pos hb, latchOverrun_eq]
  case word =>
    have body (b : Bool) : acceptBody w { s with ovr := b } = (acceptBody w s).withLost b s.ovrWord :=
      acceptBody_lost w he b s.ovrWord
    have latched : acceptBody w s = (acceptBody w s).withLost true s.ovrWord := by rw [← body, ← ho]
    rw [acceptWord_ne_srst (by exact hw), body] at ht
    cases ht
    rw [finish_stalled, withLost_stalled] at hst
    rw [acceptWord_ne_srst hw, finish_withLost_phase, ← finish_withLost hst, ← latched]
  case take =>
    rw [hostTake, if_pos hb, finish_of_ovr (by cases q <;> exact ho) hst]
    cases q <;> rfl

end Sys2Proof.Machine
end

section
/-! SUPPORT. Decoding and encoding are each other's inverse (R82, R86, R88). -/

namespace Sys2Proof

open Machine

/-- Decoding gives a well-formed command back, every operand at every value (R82). -/
theorem decodeCommand_encode {i : Instr} (hi : i.wellFormed = true) : decodeCommand (encode i) = .instr i := by
  cases i with
  | nop | srst | build | gen | tfin | dfin => rfl
  | count sym => exact decodeCommand_count sym
  | enc sym => exact decodeCommand_enc sym
  | tload len sym => exact decodeCommand_tload sym (by simpa [Instr.wellFormed] using hi)
  | dec n b => exact decodeCommand_dec n b

/-- A word that decodes to a command has one of the ten opcodes, and no rule of R86 rejects it. -/
theorem not_rejected_of_decodeCommand {w : Word} {i : Instr} (h : decodeCommand w = .instr i) :
    opcOf w ≤ 9 ∧ reservedZero w ∧ (opcOf w = 6 → fieldOf w 8 8 ≠ 0) := by
  have ho : opcOf w ≤ 9 := by
    by_contra hlt
    rw [decodeCommand_badOpc (Nat.lt_of_not_le hlt)] at h
    cases h
  have hfields : ¬ (¬ reservedZero w ∨ (opcOf w = 6 ∧ fieldOf w 8 8 = 0)) := fun hbad => by
    rw [decodeCommand_badCmd ho hbad] at h
    cases h
  obtain ⟨hr, hl⟩ := not_or.mp hfields
  exact ⟨ho, not_not.mp hr, fun h6 h0 => hl ⟨h6, h0⟩⟩

/-- No bit of a command's word is dropped by decoding. -/
theorem encode_of_decodeCommand {w : Word} {i : Instr} (h : decodeCommand w = .instr i) : i.wellFormed = true ∧ encode i = w := by
  obtain ⟨ho, hr, hl⟩ := not_rejected_of_decodeCommand h
  obtain ⟨j, hj, hw, hd⟩ := decodeCommand_readsBack ho hr hl
  obtain rfl : j = i := by rw [hd] at h; cases h; rfl
  exact ⟨hj, hw⟩

/-- The opcode of a command's word is the command's (R82). -/
theorem opcOf_of_decodeCommand {w : Word} {i : Instr} (h : decodeCommand w = .instr i) : opcOf w = (opcode i).toNat := by
  obtain ⟨_, rfl⟩ := encode_of_decodeCommand h
  rw [← opcField_toNat, opcField_encode]

/-! ## The statements -/

/-- Settles O2: one lemma on the decoder for each command with an operand; the words of the others are closed. -/
theorem decodeAfterEncode : Obligations.DecodeAfterEncode := fun _ hi => decodeCommand_encode hi

/-- Settles O3: a word that R86 does not reject is the word of the command it decodes to. -/
theorem encodeAfterDecode : Obligations.EncodeAfterDecode := fun _ _ h => encode_of_decodeCommand h

/-- Settles O1: every word of the table is closed, so the decoder computes its row. -/
theorem specWordsDecode : Obligations.SpecWordsDecode := by
  refine ⟨?fields, ?dataWords, ?decs, ⟨?opcA, ?opcF, ?dfin, fun w => rfl⟩, ?omitted⟩
  all_goals decide

end Sys2Proof
end

section
/-! SUPPORT. One step, by the host's oldest event (R6, R67): everything it can leave, which steps stop, and which word is accepted. -/

namespace Sys2Proof.Machine

/-! ## The states in which a word is accepted (R53) -/

/-- u is a state of the block, at the event e in s, in which the word w is accepted: an unpolled write, a command after the host's
actions in its BUSY window, or a data word before the last one owed, which has no window. -/
inductive Accepting (s : State) (w : Word) : HostEvent → State → Prop where
  | write : Accepting s w (.act (.write cmdOffset .w32 w)) s
  | window (d : List HostAct) (u : State) (h : busyWindow d { s with busy := true } = .runs u) : Accepting s w (.command w d) u
  | noWindow (d : List HostAct) : Accepting s w (.command w d) { s with inbox := d.map HostEvent.act ++ s.inbox }

section
variable {s u : State} {e : HostEvent} {w : Word}

/-- What reads, lost writes and takes keep, and what says nothing of BUSY and the host's events, still holds when the word is
accepted. -/
theorem Accepting.keeps (h : Accepting s w e u) {P : State → Prop} (hbusy : ∀ {s} b, P s → P { s with busy := b })
    (hinbox : ∀ {s} es, P s → P { s with inbox := es }) (hread : ∀ off s, P s → P (hostRead off s))
    (hlatch : ∀ v s, P s → P (latchOverrun v s)) (htake : ∀ q s, P s → P (s.takeFrom q)) (hs : P s) : P u := by
  cases h with
  | write => exact hs
  | window d u h => exact busyWindow_runs hread hlatch htake h (hbusy true hs)
  | noWindow d => exact hinbox _ hs

theorem Accepting.session_eq (h : Accepting s w e u) : u.session = s.session :=
  h.keeps (P := fun v => v.session = s.session) (fun _ hv => hv) (fun _ hv => hv) (fun _ _ hv => by simpa using hv)
    (fun _ _ hv => by simpa using hv) (fun _ _ hv => by simpa using hv) rfl

theorem hostRead_stalled (off : BitVec 12) (s : State) : (hostRead off s).stalled = s.stalled := by
  unfold hostRead; split <;> rfl

theorem Accepting.not_stalled (h : Accepting s w e u) (hs : s.stalled = false) : u.stalled = false :=
  h.keeps (P := fun v => v.stalled = false) (fun _ hv => hv) (fun _ hv => hv) (fun _ _ hv => by rwa [hostRead_stalled])
    (fun _ _ hv => by rwa [latchOverrun_stalled]) (fun q _ hv => takeFrom_not_stalled q hv) hs

theorem Accepting.writes (h : Accepting s w e u) : e.writes w = true := by
  cases h <;> simp [HostEvent.writes]

end

/-! ## Everything an event can leave -/

/-- An RST in a window puts the host's further actions back before its other events. -/
theorem busyWindow_abandoned_inbox {d : List HostAct} {s t : State} (h : busyWindow d s = .abandoned t) :
    ∃ as, as ⊆ d ∧ t.inbox = as.map HostEvent.act ++ s.inbox := by
  induction d generalizing s with
  | nil => cases h
  | cons a d ih =>
    have later {u : State} (hu : busyWindow d u = .abandoned t) (hi : u.inbox = s.inbox) :
        ∃ as, as ⊆ a :: d ∧ t.inbox = as.map HostEvent.act ++ s.inbox := by
      obtain ⟨as, hsub, hin⟩ := ih hu
      exact ⟨as, List.subset_cons_of_subset a hsub, by rw [hin, hi]⟩
    cases a with
    | read off wd =>
      rw [busyWindow] at h
      split at h
      · exact later h (by unfold hostRead; split <;> rfl)
      · cases h
    | write off wd w =>
      rw [busyWindow] at h
      split at h
      · exact later h (by split <;> simp)
      · cases h
    | take q => exact later h (by cases q <;> rfl)
    | rst => cases h; exact ⟨d, List.subset_cons_self _ d, rfl⟩

/-- The host's actions that an event puts back when RST abandons its command. -/
def HostEvent.actions : HostEvent → List HostAct
  | .act _ => []
  | .command _ during => during

/-- Everything the event e can leave of the state s, when it leaves a next state. -/
inductive EventLeaves (s : State) (e : HostEvent) : State → Prop where
  /-- a write to another register than CMD (R54) -/
  | ignored : EventLeaves s e s
  /-- a write to CMD at BUSY = 1 (R237) -/
  | latched (w : Word) (he : e = .act (.write cmdOffset .w32 w)) (hb : s.busy = true) : EventLeaves s e (latchOverrun w s)
  /-- a read (R52) -/
  | read (off : BitVec 12) : EventLeaves s e (hostRead off s)
  /-- a take (R56) -/
  | take (q : StreamId) : EventLeaves s e (hostTake q s)
  /-- RST, in a command's BUSY window or outside one (R260) -/
  | reset (he : e.resets = true) (u : State) (as : List HostAct) (hsub : as ⊆ e.actions) :
      EventLeaves s e { hardReset u with inbox := as.map HostEvent.act ++ s.inbox }
  /-- a word accepted at CMD (R53) -/
  | accepted (w : Word) (u t : State) (hb : s.busy = false) (hu : Accepting s w e u) (ht : acceptWord w u = .next t) :
      EventLeaves s e t

theorem eventLeaves_of_next {s t : State} {e : HostEvent} (h : hostEvent e s = .next t) : EventLeaves s e t := by
  rcases hostEvent_cases e s with ⟨e', _⟩ | e' | ⟨off, w, e', rfl, hb⟩ | ⟨off, e', _⟩ | ⟨q, e', _⟩ | ⟨e', rfl⟩ |
    ⟨w, e', hb, rfl⟩ | ⟨w, d, u, e', hb, rfl, hu⟩ | ⟨w, d, u, e', _, rfl, _, hu⟩ <;> rw [e'] at h
  · cases h
  · cases h
  · cases h
    split
    case isTrue hoff => subst hoff; exact .latched w rfl (hb rfl)
    case isFalse => exact .ignored
  · cases h; exact .read off
  · cases h; exact .take q
  · cases h; exact .reset rfl s [] (List.nil_subset _)
  · rw [acceptCmd, acceptWord_busy] at h
    exact .accepted w s t hb .write h
  · rw [acceptCmd, acceptWord_busy] at h
    rcases hu with ⟨_, hu⟩ | ⟨_, rfl⟩
    · exact .accepted w u t hb (.window d u hu) h
    · exact .accepted w _ t hb (.noWindow d) h
  · cases h
    obtain ⟨hrst, v, es, rfl, _⟩ := busyWindow_abandoned hu
    obtain ⟨as, hsub, rfl⟩ := busyWindow_abandoned_inbox hu
    exact .reset (s := s) (e := .command w d) (List.contains_iff_mem.mpr hrst) v as hsub

/-- A step leaves an idle host's state, or what its oldest event leaves. -/
theorem step_leaves {s t : State} (h : step s = .next t) :
    t = s ∨ ∃ e es, s.inbox = e :: es ∧ EventLeaves { s with inbox := es } e t := by
  cases hi : s.inbox with
  | nil => rw [step_idle hi] at h; cases h; exact .inl rfl
  | cons e es => rw [step_event hi] at h; exact .inr ⟨e, es, rfl, eventLeaves_of_next h⟩

/-! ## The steps that stop (R55, R57) -/

theorem acceptCmd_ne_fault (w : Word) (s : State) (f : Fault) : acceptCmd w s ≠ .fault f := by
  obtain ⟨t, ht⟩ := acceptWord_next w { s with busy := true }
  rw [acceptCmd, ht]
  nofun

/-- The one event that faults is a command of a host that waits while a command waits on it (R273). -/
theorem hostEvent_fault_iff {e : HostEvent} {s : State} {f : Fault} :
    hostEvent e s = .fault f ↔ f = .drainDeadlock ∧ s.busy = true ∧ ∃ w d, e = .command w d := by
  constructor
  · intro h
    rcases hostEvent_cases e s with ⟨e', hb, hcmd⟩ | e' | ⟨_, _, e', _⟩ | ⟨_, e', _⟩ | ⟨_, e', _⟩ | ⟨e', _⟩ | ⟨w, e', _⟩ |
      ⟨w, _, u, e', _⟩ | ⟨_, _, _, e', _⟩ <;> rw [e'] at h
    · cases h; exact ⟨rfl, hb, hcmd⟩
    all_goals simp [acceptCmd_ne_fault] at h
  · rintro ⟨rfl, hb, w, d, rfl⟩
    rw [hostEvent, hostCommand, if_pos hb]

theorem step_fault_iff {s : State} {f : Fault} : step s = .fault f ↔
    f = .drainDeadlock ∧ s.busy = true ∧ ∃ w during rest, s.inbox = .command w during :: rest := by
  cases hi : s.inbox with
  | nil => simp [step_idle hi]
  | cons e es => simp [step_event hi, hostEvent_fault_iff]

theorem not_admitted {off : BitVec 12} {wd : Width} (h : wd ≠ .w32 ∨ off.toNat % 4 ≠ 0) : admitted off wd = false := by
  rw [← not_and_or] at h
  simpa [admitted] using h

/-! ## The step that accepts a word (R53) -/

/-- A word written at BUSY = 0 is accepted with BUSY = 1, polled for or not. -/
theorem step_accepts {s : State} {w : Word} {rest : List HostEvent} (hb : s.busy = false)
    (hi : s.inbox = .command w [] :: rest ∨ s.inbox = .act (.write cmdOffset .w32 w) :: rest) :
    step s = acceptWord w { s with inbox := rest, busy := true } := by
  rcases hi with hi | hi <;> rw [step_event hi]
  · simp [hostEvent, hostCommand, hb, acceptCmd]
  · simp [hostEvent, hostAct_write_w32, cmdOffset, hostWrite, hb, acceptCmd]

/-- A command, and the last data word owed, have a BUSY window (R270). -/
theorem hasWindow_of_pendw_le_one {s : State} (h : s.pend = true → s.pendw.toNat ≤ 1) : hasWindow s = true := by
  cases hp : s.pend
  · simp [hasWindow, hp]
  · simpa [hasWindow, hp] using h hp

section
variable {s t : State} {d : List HostAct} (w : Word) (hb : s.busy = false) (hw : s.pend = true → s.pendw.toNat ≤ 1)
include hb hw

theorem hostCommand_runs (h : busyWindow d { s with busy := true } = .runs t) : hostCommand w d s = acceptWord w t := by
  simp [hostCommand, hb, hasWindow_of_pendw_le_one hw, h, acceptCmd, acceptWord_busy]

theorem hostCommand_abandoned (h : busyWindow d { s with busy := true } = .abandoned t) : hostCommand w d s = .next t := by
  simp [hostCommand, hb, hasWindow_of_pendw_le_one hw, h]

end

/-- With a word latched, further writes in the window change nothing (R237). -/
theorem busyWindow_writes {as : List HostAct} {s : State} (ho : s.ovr = true)
    (h : ∀ a ∈ as, ∃ u, a = .write cmdOffset .w32 u) : busyWindow as s = .runs s := by
  induction as with
  | nil => rfl
  | cons a as ih =>
    obtain ⟨⟨u, rfl⟩, hrest⟩ := List.forall_mem_cons.mp h
    have hkept : latchOverrun u s = s := if_pos ho
    rw [busyWindow, if_pos (admitted_w32 (by decide)), if_pos rfl, hkept, ih hrest]

/-! ## The statements -/

/-- Settles O50: of all that an event can do, one case is a fault; and every command ends in a next state. -/
theorem onlyTheDrainDeadlockStops : Obligations.OnlyTheDrainDeadlockStops := ⟨fun _ _ => step_fault_iff, exec_next⟩

/-- Settles O46: neither a read nor a write is admitted at such an offset or width. -/
theorem unadmittedAccessIsRefused : Obligations.UnadmittedAccessIsRefused := by
  intro s off wd w rest h hi
  rcases hi with hi | hi <;> rw [step_event hi] <;> simp [hostEvent, hostAct, not_admitted h]

/-- Settles O7: both events accept the word, which `decode` sends to one of the arms of `acceptWord`. -/
theorem stepRunsTheDecodedCommand : Obligations.StepRunsTheDecodedCommand := by
  intro s w rest hb hi
  rw [step_accepts hb hi, acceptWord]
  refine ⟨fun i hd => by simp only [hd], fun v hd => by simp only [hd], ?_⟩
  rintro c (⟨hd, rfl⟩ | ⟨hd, rfl⟩) <;> simp only [hd]

/-- Settles O16: the first write of the window is latched, and the others change nothing. -/
theorem writeInTheBusyWindow : Obligations.WriteInTheBusyWindow := by
  intro s w v as rest hb ho hw hi has
  have hfirst : latchOverrun v { s with inbox := rest, busy := true } =
      { s with inbox := rest, busy := true, ovr := true, ovrWord := v } := if_neg (by simp [ho])
  refine (step_event hi).trans (hostCommand_runs w hb hw ?_)
  rw [busyWindow, if_pos (admitted_w32 (by decide)), if_pos rfl, hfirst, busyWindow_writes rfl has]

/-- Settles O52: RST ends the window with the reset state, and the word's effect never runs. -/
theorem rstAbandonsTheCommand : Obligations.RstAbandonsTheCommand := fun _ w _ _ hb hw hi =>
  (step_event hi).trans (hostCommand_abandoned w hb hw rfl)

/-- Settles O60: CMD has no used bits, so the drawn word is masked off whole. -/
theorem readOfCmdWhileBusy : Obligations.ReadOfCmdWhileBusy := by
  intro s hb
  have hmask (v : Word) : busyReadReg v (regAt 0x004) = 0#32 := BitVec.and_zero
  rw [hostAct_read_w32 (by decide), hostRead_busy hb, hmask]

end Sys2Proof.Machine
end

section
/-! SUPPORT. What every step keeps: the status fields with BUSY and OVR, the session, the cursor's depth (R24 to R46), and ERROR
(R238). -/

namespace Sys2Proof.Machine

/-! ## BUSY and OVR between steps (R25, R42) -/

/-- The part of `StatusInv` that is not in `StatusCore`. -/
structure Paced (s : State) : Prop where
  ovr : s.ovr = true → s.busy = true
  busy : s.busy = s.stalled

theorem StatusInv.paced {s : State} (h : StatusInv s) : Paced s := ⟨h.ovr, h.busy⟩

theorem StatusCore.statusInv {s : State} (h : StatusCore s) (hp : Paced s) : StatusInv s :=
  ⟨h.pend_iff, h.pendw_le, h.pend_loading, h.buffer, h.errCode_iff, h.errInfo, h.cursor, hp.ovr, hp.busy⟩

theorem Paced.not_ovr {s : State} (h : Paced s) (hb : s.busy = false) : s.ovr = false := by
  by_contra ho
  rw [h.ovr (by simpa using ho)] at hb
  cases hb

/-- The end of a command leaves BUSY and OVR in order, whatever they were before it. -/
theorem paced_finish (s : State) : Paced (finish s) := by
  refine ⟨fun ho => ?_, by rw [finish_busy, finish_stalled]⟩
  rcases finish_cases s with ⟨_, e⟩ | ⟨_, _, _, e⟩ | ⟨_, _, e⟩ <;> rw [e] at ho ⊢
  · cases ho
  · cases ho

theorem paced_hardReset (s : State) (es : List HostEvent) : Paced { hardReset s with inbox := es } :=
  ⟨nofun, (hardReset_stalled s).symm⟩

/-- A word accepted when nothing waits leaves BUSY and OVR in order. -/
theorem paced_acceptWord {w : Word} {s t : State} (hs : s.stalled = false) (h : acceptWord w s = .next t) : Paced t := by
  rcases acceptWord_cases w s with ⟨_, _, e⟩ | ⟨_, e⟩ <;> rw [e] at h <;> cases h
  · exact ⟨nofun, hs.symm⟩
  · exact paced_finish _

@[simp] theorem takeFrom_busy (q : StreamId) (s : State) : (s.takeFrom q).busy = s.busy := by cases q <;> rfl

@[simp] theorem takeFrom_ovr (q : StreamId) (s : State) : (s.takeFrom q).ovr = s.ovr := by cases q <;> rfl

@[simp] theorem takeFrom_phase (q : StreamId) (s : State) : (s.takeFrom q).phase = s.phase := by cases q <;> rfl

theorem Paced.event {s t : State} {e : HostEvent} (hs : Paced s) (h : EventLeaves s e t) : Paced t := by
  cases h with
  | ignored => exact hs
  | latched w _ hb => exact ⟨fun _ => by simpa using hb, by simpa using hs.busy⟩
  | read off => unfold hostRead; split <;> exact ⟨hs.ovr, hs.busy⟩
  | take q =>
    unfold hostTake
    split
    case isTrue => exact paced_finish _
    case isFalse hb =>
      have hb : s.busy = false := by simpa using hb
      have hst := takeFrom_not_stalled q (hs.busy ▸ hb)
      exact ⟨by simp [hs.not_ovr hb], by simp [hb, hst]⟩
  | reset => exact paced_hardReset _ _
  | accepted w u t hb hu ht => exact paced_acceptWord (hu.not_stalled (hs.busy ▸ hb)) ht

theorem step_paced {s t : State} (hs : Paced s) (h : step s = .next t) : Paced t := by
  rcases step_leaves h with rfl | ⟨e, es, _, he⟩
  · exact hs
  · exact Paced.event (s := { s with inbox := es }) ⟨hs.ovr, hs.busy⟩ he

theorem step_statusCore {s t : State} (hs : StatusCore s) (h : step s = .next t) : StatusCore t :=
  step_keeps (P := StatusCore) .of_session .reset (fun _ => .finish) (fun w _ => .acceptBody w) hs h

theorem step_statusInv {s t : State} (hs : StatusInv s) (h : step s = .next t) : StatusInv t :=
  (step_statusCore hs.core h).statusInv (step_paced hs.paced h)

theorem statusInv_reset (es : List HostEvent) (d : Config.Depths) : StatusInv { State.reset with inbox := es, depths := d } :=
  StatusCore.statusInv (.of_session (s := State.reset) rfl .reset) (paced_hardReset { State.reset with depths := d } es)

/-! ## ERROR (R112, R238) -/

/-- The end of a command in ERROR reports no second error. -/
theorem finish_of_error {s : State} (h : s.phase = .error) : (finish s).session = s.session := by
  rcases finish_cases s with ⟨_, e⟩ | ⟨_, _, he, _⟩ | ⟨_, _, e⟩
  · rw [e]; rfl
  · exact absurd h he
  · rw [e]; rfl

theorem StatusCore.pend_of_error {s : State} (h : StatusCore s) (he : s.phase = .error) : s.pend = false := by
  by_contra hp
  have hload := h.pend_loading (by simpa using hp)
  rw [he] at hload
  cases hload

theorem acceptBody_of_error (w : Word) {s : State} (hp : s.pend = false) (he : s.phase = .error) : acceptBody w s = s := by
  simp [acceptBody, hp, he]

/-- In ERROR an event leaves the session alone, unless it is RST or SRST. -/
theorem EventLeaves.of_error {s t : State} {e : HostEvent} (h : EventLeaves s e t) (hp : s.pend = false) (he : s.phase = .error) :
    t.session = s.session ∨ (t.session = State.reset.session ∧ (e.resets = true ∨ e.writes 0x10000000#32 = true)) := by
  cases h with
  | ignored => exact .inl rfl
  | latched w _ _ => exact .inl (latchOverrun_session w s)
  | read off => exact .inl (hostRead_session off s)
  | take q =>
    left
    unfold hostTake
    split
    · exact (finish_of_error (by simpa using he)).trans (takeFrom_session q s)
    · exact takeFrom_session q s
  | reset hr => exact .inr ⟨rfl, .inl hr⟩
  | accepted w u t _ hu ht =>
    have hses := hu.session_eq
    have hup : u.pend = false := (congrArg State.pend hses).trans hp
    have hue : u.phase = .error := (congrArg State.phase hses).trans he
    rcases acceptWord_cases w u with ⟨rfl, _, e⟩ | ⟨_, e⟩ <;> rw [e] at ht <;> cases ht
    · exact .inr ⟨rfl, .inr hu.writes⟩
    · rw [acceptBody_of_error w hup hue, finish_of_error hue]
      exact .inl hses

/-! ## The depth of the cursor (R32, R40) -/

theorem CursorInv.of_session {s t : State} (h : t.session = s.session) (hs : CursorInv s) : CursorInv t :=
  have hs' : CursorInv s.session := ⟨hs.1, hs.2, hs.3⟩
  have ht : CursorInv t.session := h ▸ hs'
  ⟨ht.1, ht.2, ht.3⟩

/-- Outside a decode session only the cursor's depth is bounded. -/
theorem CursorInv.of_depth {s : State} (h : s.cur.length ≤ 254) (hl : s.phase ≠ .loading) (hd : s.phase ≠ .decoding) :
    CursorInv s :=
  ⟨h, fun hp => (hp.elim hl hd).elim, fun hp => (hp.elim hl hd).elim⟩

theorem CursorInv.reset : CursorInv State.reset := .of_depth (Nat.zero_le _) nofun nofun

theorem CursorInv.raise {s : State} (h : s.cur.length ≤ 254) (c : ErrCode) (w : Word) : CursorInv (raise c w s) :=
  .of_depth h nofun nofun

theorem CursorInv.congr {s t : State} (hs : CursorInv s) (hp : t.phase = s.phase) (hr : t.root = s.root) (hc : t.cur = s.cur) :
    CursorInv t :=
  ⟨hc ▸ hs.depth, by rw [hp, hr]; exact hs.root, by rw [hp, hr]; exact hs.internals⟩

theorem CursorInv.finish {s : State} (hs : CursorInv s) : CursorInv (finish s) := by
  rcases finish_session_cases s with e | ⟨u, hu, e⟩
  · exact hs.of_session e
  · have hcur : u.cur = s.cur := (congrArg State.cur hu :)
    rw [e]
    exact .raise (hcur ▸ hs.depth) ..

/-- A DEC that starts at depth at most n leaves the cursor there, when the tree's internal nodes are at depth at most n, whether or
not a bit selects an `Empty` child. -/
theorem decodeBits_cur_le {n : Nat} (bs : Bits) (j : Nat) {s : State} (hc : s.cur.length ≤ n)
    (hi : ∀ p, s.root.InternalAt p → p.length ≤ n) : (decodeBits bs j s).cur.length ≤ n := by
  induction bs generalizing j s with
  | nil => exact hc
  | cons b bs ih =>
    rw [decodeBits]
    split
    · exact hc
    · exact ih (j + 1) (Nat.zero_le n) hi
    · rename_i l r hn
      exact ih (j + 1) (s := { s with cur := s.cur ++ [b] }) (hi _ ⟨l, r, by rw [nodeAt_append_bit, hn]⟩) hi

/-- A decode session starts with a tree of one internal node, or goes on with the one it has (R190, R200). -/
theorem CursorInv.startDecodeTree {s : State} (hs : CursorInv s) (hp : s.phase = .idle ∨ s.phase = .loading) :
    (startDecodeTree s).cur.length ≤ 254 ∧ (startDecodeTree s).root.InternalAt [] ∧
      ∀ p, (startDecodeTree s).root.InternalAt p → p.length ≤ 254 := by
  rcases hp with hp | hp
  · rw [startDecodeTree_idle hp]
    refine ⟨Nat.zero_le _, loaded_nil.root, fun p h => ?_⟩
    rcases (loaded_nil.internal p).mp h with rfl | ⟨_, he, _⟩
    · exact Nat.zero_le _
    · cases he
  · rw [startDecodeTree_loading hp]
    exact ⟨hs.depth, hs.root (.inl hp), hs.internals (.inl hp)⟩

theorem CursorInv.effectOf {i : Instr} {s : State} (hs : CursorInv s) (hl : legal i s.phase = true) : CursorInv (effectOf i s) := by
  cases i with
  | nop | srst => exact hs
  | count sym =>
    simp only [Machine.effectOf, countSymbol]
    split
    · exact .raise hs.depth ..
    · exact .of_depth hs.depth nofun nofun
  | build | gen => exact .of_depth hs.depth nofun nofun
  | enc sym =>
    simp only [Machine.effectOf, encodeSymbol]
    split
    · exact .raise hs.depth ..
    · exact hs.congr rfl rfl rfl
  | tload len sym =>
    obtain ⟨hdepth, hroot, hint⟩ := hs.startDecodeTree (by simpa [legal] using hl)
    exact ⟨hdepth, fun _ => hroot, fun _ => hint⟩
  | tfin =>
    obtain ⟨_, hroot, hint⟩ := hs.startDecodeTree (by simpa [legal] using hl)
    exact ⟨Nat.zero_le _, fun _ => hroot, fun _ => hint⟩
  | dec n b =>
    have hp : s.phase = .decoding := by simpa [legal] using hl
    have hroot := hs.root (.inr hp)
    have hint := hs.internals (.inr hp)
    have hcur := decodeBits_cur_le (decBits n b) 0 hs.depth hint
    rw [Machine.effectOf]
    obtain ⟨out, cur, ⟨e, _⟩ | ⟨k, _, e⟩⟩ := decodeBits_cases (decBits n b) 0 s <;> rw [e] at hcur ⊢
    · exact ⟨hcur, fun _ => hroot, fun _ => hint⟩
    · exact .raise hcur ..
  | dfin =>
    simp only [Machine.effectOf, dfinEffect]
    split
    · exact .raise hs.depth ..
    · exact .of_depth hs.depth nofun nofun

/-- A code is at most 255 bits, so the internal nodes an entry adds are at depth at most 254 (R83, R193). -/
theorem CursorInv.applyEntry {s : State} {sym : Byte} {c : Bits} (hs : CursorInv s) (hc : c.length ≤ 255) :
    CursorInv (applyEntry sym c s) := by
  rcases applyEntry_cases sym c s with ⟨e, _, h⟩ | ⟨_, d, hw, _, h⟩ <;> rw [h]
  · exact .raise hs.depth ..
  · have hfree (hp : s.phase = .loading ∨ s.phase = .decoding) : s.root.Free c := by
      obtain ⟨l, r, hr⟩ : ∃ l r, s.root = .internal l r := hs.root hp
      rw [hr] at hw ⊢
      exact free_of_room hw
    refine ⟨hs.depth, fun hp => (insert_internal_iff (hfree hp)).mpr (.inr (hs.root hp)), fun hp p h => ?_⟩
    rcases (insert_internal_iff (hfree hp)).mp h with ⟨hprefix, hne⟩ | h
    · have hlt : p.length < c.length := lt_of_le_of_ne hprefix.length_le fun e => hne (hprefix.eq_of_length e)
      omega
    · exact hs.internals hp p h

theorem CursorInv.acceptBody {s : State} (w : Word) (hs : CursorInv s) : CursorInv (acceptBody w s) := by
  rcases acceptBody_cases w s with ⟨_, e⟩ | ⟨c, info, _, e⟩ | ⟨_, e⟩ | ⟨i, _, _, hl, e⟩ <;> rw [e]
  · rcases tloadData_cases w s with ⟨_, e⟩ | ⟨_, e⟩ <;> rw [e]
    · exact hs.congr rfl rfl rfl
    · exact CursorInv.applyEntry (hs.congr rfl rfl rfl) (by simp; omega)
  · exact .raise hs.depth ..
  · exact hs
  · exact hs.effectOf hl

theorem step_cursorInv {s t : State} (hs : CursorInv s) (h : step s = .next t) : CursorInv t :=
  step_keeps (P := CursorInv) .of_session .reset (fun _ => .finish) (fun w _ => .acceptBody w) hs h

/-- The 8 bits of DEPTH hold a depth of at most 254. -/
theorem regRead_depth {s : State} (h : s.cur.length ≤ 254) : (regRead s 0x01C).toNat = s.cur.length := by
  have hdepth : regRead s 0x01C = (BitVec.ofNat 8 s.cur.length).setWidth 32 := rfl
  rw [hdepth, BitVec.toNat_setWidth_of_le (by decide), BitVec.toNat_ofNat]
  omega

/-! ## The statements -/

/-- Settles O53: reset has the status fields in order, and its empty queues let nothing wait. -/
theorem resetMeetsTheStatusInvariant : Obligations.ResetMeetsTheStatusInvariant := statusInv_reset

/-- Settles O54: the fields of the session by `StatusCore`, BUSY and OVR by the cases of an event. -/
theorem stepKeepsTheStatusInvariant : Obligations.StepKeepsTheStatusInvariant := fun _ _ => step_statusInv

/-- Settles O56: an empty session. -/
theorem resetMeetsTheSessionInvariant : Obligations.ResetMeetsTheSessionInvariant := fun _ _ =>
  .of_session (s := State.reset) rfl .reset

/-- Settles O57: the session invariant is kept together with the status fields, which say what a data word completes. -/
theorem stepKeepsTheSessionInvariant : Obligations.StepKeepsTheSessionInvariant := fun _ _ hst hse h =>
  (step_sound ⟨hst.core, hse⟩ h).2

/-- Settles O11: no data word is owed in ERROR, so an accepted word is discarded or is SRST. -/
theorem onlySrstAndRstLeaveError : Obligations.OnlySrstAndRstLeaveError := by
  intro s t hs he h
  have hp := hs.core.pend_of_error he
  rcases step_leaves h with rfl | ⟨e, es, hi, hleaves⟩
  · exact .inl ⟨he, rfl, rfl⟩
  · rcases hleaves.of_error hp he with hses | ⟨hses, hrst⟩
    · exact .inl ⟨(congrArg State.phase hses).trans he, (congrArg State.errCode hses :), (congrArg State.errInfo hses :)⟩
    · exact .inr ⟨(congrArg State.phase hses :), (congrArg State.errCode hses :), (congrArg State.errInfo hses :), e, es, hi, hrst⟩

/-- Settles O55: the internal nodes of a decode tree are above its leaves, which are at depth at most 255, and the cursor rests on
internal nodes. -/
theorem cursorDepthFitsTheRegister : Obligations.CursorDepthFitsTheRegister :=
  ⟨fun _ _ => .of_session (s := State.reset) rfl .reset, fun _ _ => step_cursorInv, fun _ hs => regRead_depth hs.depth⟩

end Sys2Proof.Machine
end

section
/-! SUPPORT. What accepted words write and emit (20_memory.md section 2), that errors are precise (R236), and that a polite host
loses no write (R270). -/

namespace Sys2Proof.Machine

/-! ## The writers of each state -/

/-- What the command i, run in s, may have written when it leaves t. -/
structure Wrote (i : Instr) (s t : State) : Prop where
  freq : t.freq = s.freq ∨ (∃ x, i = .count x ∧ t.freq = Table.set s.freq x (Table.get s.freq x + 1#32)) ∨
    (i = .srst ∧ t.freq = Table.all 0#32)
  total : t.total = s.total ∨ (∃ x, i = .count x ∧ t.total = s.total + 1#32) ∨ (i = .srst ∧ t.total = 0#32)
  codes : i ≠ .gen → i ≠ .srst → s.pend = false → t.clen = s.clen ∧ t.code = s.code
  cur : t.cur = s.cur ∨ (∃ n b, i = .dec n b) ∨ (t.cur = [] ∧ (i = .srst ∨ (∃ len x, i = .tload len x) ∨ i = .tfin))
  bits : (∀ x, i ≠ .enc x) → t.bitOut = s.bitOut ∧ (t.bitcnt = s.bitcnt ∨ (i = .srst ∧ t.bitcnt = 0#32))
  syms : (∀ n b, i ≠ .dec n b) → t.symOut = s.symOut ∧ (t.symcnt = s.symcnt ∨ (i = .srst ∧ t.symcnt = 0#32))
  table : i ≠ .gen → t.tblOut = s.tblOut
  model : t.depths = s.depths ∧ t.inbox = s.inbox ∧ t.readData = s.readData ∧ t.draws = s.draws

section
variable (i : Instr) (s : State)

theorem Wrote.nothing : Wrote i s s :=
  ⟨.inl rfl, .inl rfl, fun _ _ _ => ⟨rfl, rfl⟩, .inl rfl, fun _ => ⟨rfl, .inl rfl⟩, fun _ => ⟨rfl, .inl rfl⟩, fun _ => rfl,
    rfl, rfl, rfl, rfl⟩

theorem Wrote.raise {t : State} (h : Wrote i s t) (c : ErrCode) (w : Word) : Wrote i s (raise c w t) :=
  ⟨h.freq, h.total, h.codes, h.cur, h.bits, h.syms, h.table, h.model⟩

theorem Wrote.finish {t : State} (h : Wrote i s t) : Wrote i s (finish t) :=
  ⟨by simpa using h.freq, by simpa using h.total, by simpa using h.codes, by simpa using h.cur, by simpa using h.bits,
    by simpa using h.syms, by simpa using h.table, by simpa using h.model⟩

theorem Wrote.softReset (b : Bool) : Wrote .srst s { softReset s with busy := b } :=
  ⟨.inr (.inr ⟨rfl, rfl⟩), .inr (.inr ⟨rfl, rfl⟩), fun _ h => absurd rfl h, .inr (.inr ⟨rfl, .inl rfl⟩),
    fun _ => ⟨rfl, .inr ⟨rfl, rfl⟩⟩, fun _ => ⟨rfl, .inr ⟨rfl, rfl⟩⟩, fun _ => rfl, rfl, rfl, rfl, rfl⟩

end

theorem tloadData_total (w : Word) (s : State) : (tloadData w s).total = s.total := by
  rcases tloadData_cases w s with ⟨_, e⟩ | ⟨_, e⟩ <;> rw [e]
  rcases applyEntry_cases s.tlsym ((s.tlbits ++ wordBits w).take s.tllen.toNat)
    { s with tlbits := s.tlbits ++ wordBits w, pendw := s.pendw - 1#4, pend := false } with ⟨_, _, e⟩ | ⟨_, _, _, _, e⟩
  · rw [e, raise_total]
  · rw [e]

/-- Data words write the codes, which is why `Wrote` says nothing of those while PEND = 1. -/
theorem Wrote.tloadData (i : Instr) (w : Word) {s : State} (hp : s.pend = true) : Wrote i s (tloadData w s) := by
  obtain ⟨hfreq, hcur, hbits, hbitcnt, hsyms, hsymcnt, htbl, hmodel⟩ := tloadData_frame w s
  exact ⟨.inl hfreq, .inl (tloadData_total w s), fun _ _ h => by simp [hp] at h, .inl hcur, fun _ => ⟨hbits, .inl hbitcnt⟩,
    fun _ => ⟨hsyms, .inl hsymcnt⟩, fun _ => htbl, hmodel⟩

/-- The start of a decode session makes the tree, and of what `Wrote` speaks of it clears the cursor alone. -/
theorem startDecodeTree_eq (s : State) :
    startDecodeTree s = { s with
      root := (startDecodeTree s).root, nodes := (startDecodeTree s).nodes, cur := (startDecodeTree s).cur } ∧
    ((startDecodeTree s).cur = s.cur ∨ (startDecodeTree s).cur = []) := by
  unfold startDecodeTree
  split
  · exact ⟨rfl, .inr rfl⟩
  · exact ⟨rfl, .inl rfl⟩

theorem Wrote.effectOf (i : Instr) (s : State) : Wrote i s (effectOf i s) := by
  have same := Wrote.nothing i s
  obtain ⟨hstart, hcur⟩ := startDecodeTree_eq s
  cases i with
  | nop | srst => exact same
  | count x =>
    simp only [Machine.effectOf, countSymbol]
    split
    · exact same.raise ..
    · exact { same with freq := .inr (.inl ⟨x, rfl, rfl⟩), total := .inr (.inl ⟨x, rfl, rfl⟩) }
  -- BUILD and DFIN write none of these fields.
  | build => exact { same with }
  | gen => exact { same with codes := fun h => absurd rfl h, table := fun h => absurd rfl h }
  | enc x =>
    simp only [Machine.effectOf, encodeSymbol]
    split
    · exact same.raise ..
    · exact { same with bits := fun h => absurd rfl (h x) }
  | tload len x =>
    rw [Machine.effectOf, tloadHeader, hstart]
    exact { same with cur := hcur.imp_right fun h => .inr ⟨h, .inr (.inl ⟨len, x, rfl⟩)⟩ }
  | tfin =>
    rw [Machine.effectOf, tfinEffect, hstart]
    exact { same with cur := .inr (.inr ⟨rfl, .inr (.inr rfl)⟩) }
  | dec n b =>
    have walked (out : List Byte) (cur : Bits) : Wrote (.dec n b) s (afterWalk s out cur) :=
      { same with cur := .inr (.inl ⟨n, b, rfl⟩), syms := fun h => absurd rfl (h n b) }
    obtain ⟨out, cur, ⟨e, _⟩ | ⟨k, _, e⟩⟩ := decodeBits_cases (decBits n b) 0 s <;> rw [Machine.effectOf, e]
    · exact walked out cur
    · exact (walked out cur).raise ..
  | dfin =>
    simp only [Machine.effectOf, dfinEffect]
    split
    · exact same.raise ..
    · exact { same with }

theorem Wrote.exec {i : Instr} {s t : State} (h : exec i s = .next t) : Wrote i s t := by
  by_cases hp : s.pend = true
  · rw [exec_pend hp] at h
    cases h
    exact (Wrote.tloadData i _ hp).finish
  by_cases hi : i = .srst
  · subst hi
    rw [exec_srst (by simpa using hp)] at h
    cases h
    exact .softReset s false
  rw [exec_eq hi] at h
  rcases command_cases i (Machine.effectOf i) s with ⟨hp', _⟩ | ⟨_, _, e⟩ | ⟨_, _, _, e⟩ | ⟨_, _, _, _, e⟩ | ⟨_, _, _, _, e⟩
  case inl => exact absurd hp' hp
  all_goals rw [e] at h; cases h
  · exact (Wrote.nothing i s).finish
  · exact ((Wrote.nothing i s).raise ..).finish
  · exact ((Wrote.nothing i s).raise ..).finish
  · exact (Wrote.effectOf i s).finish

theorem acceptBody_inbox (w : Word) (s : State) : (acceptBody w s).inbox = s.inbox := by
  rcases acceptBody_cases w s with ⟨hp, e⟩ | ⟨c, info, _, e⟩ | ⟨_, e⟩ | ⟨i, _, _, _, e⟩ <;> rw [e]
  · exact (Wrote.tloadData .nop w hp).model.2.1
  · rfl
  · exact (Wrote.effectOf i s).model.2.1

/-! ## The streams (R56) -/

/-- A stream that items were only emitted into and only taken from at its head. -/
def OutStream.Grew {α : Type} (q q' : OutStream α) : Prop := q.emitted <+: q'.emitted ∧ q.taken <+: q'.taken

section
variable {α : Type} {q q' q'' : OutStream α}

theorem OutStream.Grew.of_eq (h : q' = q) : q.Grew q' := h ▸ ⟨List.prefix_rfl, List.prefix_rfl⟩

theorem OutStream.Grew.trans (h : q.Grew q') (h' : q'.Grew q'') : q.Grew q'' := ⟨h.1.trans h'.1, h.2.trans h'.2⟩

theorem grew_emit (q : OutStream α) (vs : List α) : q.Grew (q.emit vs) :=
  ⟨by rw [emit_emitted]; exact List.prefix_append _ _, List.prefix_rfl⟩

theorem grew_take (q : OutStream α) : q.Grew q.take := by
  refine ⟨by rw [take_emitted], ?_⟩
  unfold OutStream.take
  split
  · exact List.prefix_rfl
  · exact List.prefix_append _ _

end

/-- What no step but RST does otherwise with the three streams. -/
structure StreamsGrew (s t : State) : Prop where
  bits : s.bitOut.Grew t.bitOut
  syms : s.symOut.Grew t.symOut
  table : s.tblOut.Grew t.tblOut

section
variable {s t u : State}

theorem StreamsGrew.of_eq (hb : t.bitOut = s.bitOut) (hs : t.symOut = s.symOut) (ht : t.tblOut = s.tblOut) : StreamsGrew s t :=
  ⟨.of_eq hb, .of_eq hs, .of_eq ht⟩

theorem StreamsGrew.trans (h : StreamsGrew s t) (h' : StreamsGrew t u) : StreamsGrew s u :=
  ⟨h.bits.trans h'.bits, h.syms.trans h'.syms, h.table.trans h'.table⟩

theorem streamsGrew_finish (s : State) : StreamsGrew s (finish s) := .of_eq (finish_bitOut s) (finish_symOut s) (finish_tblOut s)

theorem streamsGrew_takeFrom (q : StreamId) (s : State) : StreamsGrew s (s.takeFrom q) := by
  cases q
  case bitOut => exact ⟨grew_take _, .of_eq rfl, .of_eq rfl⟩
  case symOut => exact ⟨.of_eq rfl, grew_take _, .of_eq rfl⟩
  case tblOut => exact ⟨.of_eq rfl, .of_eq rfl, grew_take _⟩

theorem streamsGrew_hostRead (off : BitVec 12) (s : State) : StreamsGrew s (hostRead off s) := by
  unfold hostRead; split <;> exact .of_eq rfl rfl rfl

theorem streamsGrew_latchOverrun (w : Word) (s : State) : StreamsGrew s (latchOverrun w s) := .of_eq (by simp) (by simp) (by simp)

theorem streamsGrew_hostTake (q : StreamId) (s : State) : StreamsGrew s (hostTake q s) := by
  unfold hostTake
  split
  · exact (streamsGrew_takeFrom q s).trans (streamsGrew_finish _)
  · exact streamsGrew_takeFrom q s

/-- Each command that emits appends to its own stream. -/
theorem streamsGrew_effectOf (i : Instr) (s : State) : StreamsGrew s (effectOf i s) := by
  obtain ⟨_, _, _, _, hbits, hsyms, htable, _⟩ := Wrote.effectOf i s
  cases i with
  | nop | srst | count _ | build | tload _ _ | tfin | dfin =>
    exact .of_eq (hbits nofun).1 (hsyms nofun).1 (htable nofun)
  | gen => exact ⟨.of_eq rfl, .of_eq rfl, grew_emit _ _⟩
  | enc x =>
    refine ⟨?_, .of_eq (hsyms nofun).1, .of_eq (htable nofun)⟩
    simp only [effectOf, encodeSymbol]
    split
    · exact .of_eq rfl
    · exact grew_emit _ _
  | dec n b =>
    refine ⟨.of_eq (hbits nofun).1, ?_, .of_eq (htable nofun)⟩
    obtain ⟨out, cur, ⟨e, _⟩ | ⟨k, _, e⟩⟩ := decodeBits_cases (decBits n b) 0 s
    all_goals rw [effectOf, e]; exact grew_emit s.symOut out

theorem streamsGrew_acceptBody (w : Word) (s : State) : StreamsGrew s (acceptBody w s) := by
  rcases acceptBody_cases w s with ⟨_, e⟩ | ⟨c, info, _, e⟩ | ⟨_, e⟩ | ⟨i, _, _, _, e⟩ <;> rw [e]
  · obtain ⟨_, _, hbits, _, hsyms, _, htable, _⟩ := tloadData_frame w s
    exact .of_eq hbits hsyms htable
  · exact .of_eq rfl rfl rfl
  · exact .of_eq rfl rfl rfl
  · exact streamsGrew_effectOf i s

theorem streamsGrew_acceptWord {w : Word} (h : acceptWord w s = .next t) : StreamsGrew s t := by
  rcases acceptWord_cases w s with ⟨_, _, e⟩ | ⟨_, e⟩ <;> rw [e] at h <;> cases h
  · exact .of_eq rfl rfl rfl
  · exact (streamsGrew_acceptBody w s).trans (streamsGrew_finish _)

theorem Accepting.streamsGrew {e : HostEvent} {w : Word} (h : Accepting s w e u) : StreamsGrew s u :=
  h.keeps (P := StreamsGrew s) (fun _ hv => hv.trans (.of_eq rfl rfl rfl)) (fun _ hv => hv.trans (.of_eq rfl rfl rfl))
    (fun off _ hv => hv.trans (streamsGrew_hostRead off _)) (fun v _ hv => hv.trans (streamsGrew_latchOverrun v _))
    (fun q _ hv => hv.trans (streamsGrew_takeFrom q _)) (.of_eq rfl rfl rfl)

theorem EventLeaves.streamsGrew {e : HostEvent} (h : EventLeaves s e t) (he : e.resets = false) : StreamsGrew s t := by
  cases h with
  | ignored => exact .of_eq rfl rfl rfl
  | latched w _ _ => exact streamsGrew_latchOverrun w s
  | read off => exact streamsGrew_hostRead off s
  | take q => exact streamsGrew_hostTake q s
  | reset hr => rw [he] at hr; cases hr
  | accepted w u t _ hu ht => exact hu.streamsGrew.trans (streamsGrew_acceptWord ht)

end

/-! ## Errors (R236) -/

/-- What the word w may have done in s before it raises an error: nothing, the last data word of a TLOAD, or the first bits of a
DEC. -/
inductive BeforeError (w : Word) (s : State) : State → Prop where
  | nothing : BeforeError w s s
  | buffered (bits : Bits) (n : BitVec 4) : BeforeError w s { s with tlbits := bits, pendw := n, pend := false }
  | walked (hp : s.pend = false) (ho : opcOf w = 8) (out : List Byte) (cur : Bits) : BeforeError w s (afterWalk s out cur)

theorem effectOf_raises {i : Instr} {s : State} (hl : legal i s.phase = true) (h : (effectOf i s).phase = .error) :
    ∃ c ∈ ownErrors, ∃ info u, effectOf i s = raise c info u ∧ (u = s ∨ ∃ n b out cur, i = .dec n b ∧ u = afterWalk s out cur) := by
  have he := not_error_of_legal hl
  cases i with
  | nop | srst => exact absurd h he
  | build | gen | tload _ _ | tfin => cases h
  | count x =>
    simp only [effectOf, countSymbol] at h ⊢
    split at h
    case isTrue ht => rw [if_pos ht]; exact ⟨.countOvf, by decide, _, s, rfl, .inl rfl⟩
    case isFalse => cases h
  | enc x =>
    simp only [effectOf, encodeSymbol] at h ⊢
    split at h
    case isTrue hc => rw [if_pos hc]; exact ⟨.noCode, by decide, _, s, rfl, .inl rfl⟩
    case isFalse => exact absurd h he
  | dec n b =>
    obtain ⟨out, cur, ⟨e, _⟩ | ⟨k, _, e⟩⟩ := decodeBits_cases (decBits n b) 0 s
    · rw [effectOf, e] at h
      exact absurd h he
    · exact ⟨.badPath, by decide, _, _, e, .inr ⟨n, b, out, cur, rfl, rfl⟩⟩
  | dfin =>
    simp only [effectOf, dfinEffect] at h ⊢
    split at h
    case isTrue hc => rw [if_pos hc]; exact ⟨.truncated, by decide, _, s, rfl, .inl rfl⟩
    case isFalse => cases h

/-- A word that brings the session to ERROR raises an error, which is not OVERRUN, and has written nothing that is not
`BeforeError`. -/
theorem acceptBody_raises {w : Word} {s : State} (he : s.phase ≠ .error) (h : (acceptBody w s).phase = .error) :
    ∃ c info u, c ≠ .none ∧ c ≠ .overrun ∧ acceptBody w s = raise c info u ∧ BeforeError w s u := by
  unfold acceptBody at h ⊢
  split at h
  case isTrue hp =>
    rw [if_pos hp]
    rcases tloadData_cases w s with ⟨_, e⟩ | ⟨_, e⟩ <;> rw [e] at h ⊢
    · exact absurd h he
    · rcases applyEntry_cases s.tlsym ((s.tlbits ++ wordBits w).take s.tllen.toNat)
        { s with tlbits := s.tlbits ++ wordBits w, pendw := s.pendw - 1#4, pend := false } with ⟨c, hc, e⟩ | ⟨_, _, _, _, e⟩
      · exact ⟨c, _, _, fun h0 => by simp [h0] at hc, fun h0 => by simp [h0] at hc, e, .buffered _ _⟩
      · rw [e] at h
        exact absurd h he
  case isFalse hp =>
    rw [if_neg hp, if_neg he]
    cases hd : decodeCommand w with
    | instr i =>
      simp only [hd] at h ⊢
      split
      · split
        case isTrue hw hl =>
          rw [if_pos hw, if_pos hl] at h
          obtain ⟨c, hc, info, u, e, hu⟩ := effectOf_raises hl h
          refine ⟨c, info, u, fun h0 => by simp [h0, ownErrors] at hc, fun h0 => by simp [h0, ownErrors] at hc, e, ?_⟩
          rcases hu with rfl | ⟨n, b, out, cur, rfl, rfl⟩
          · exact .nothing
          · exact .walked (by simpa using hp) (opcOf_of_decodeCommand hd) out cur
        case isFalse => exact ⟨.badSeq, _, s, nofun, nofun, rfl, .nothing⟩
      · exact ⟨.badCmd, _, s, nofun, nofun, rfl, .nothing⟩
    | data v => exact absurd hd (decodeCommand_ne_data w v)
    | badOpc => exact ⟨.badOpc, w, s, nofun, nofun, rfl, .nothing⟩
    | badCmd => exact ⟨.badCmd, w, s, nofun, nofun, rfl, .nothing⟩

/-- No word latches a write (R237). -/
theorem acceptBody_ovr (w : Word) {s : State} (he : s.phase ≠ .error) (ho : s.ovr = false) : (acceptBody w s).ovr = false := by
  have hlost := acceptBody_lost w he false s.ovrWord
  rw [show { s with ovr := false, ovrWord := s.ovrWord } = s by rw [← ho]] at hlost
  rw [hlost]
  exact Bool.and_false _

/-! ## A polite host (R270) -/

theorem polite_command {w : Word} {d : List HostAct} :
    (HostEvent.command w d).polite = true ↔ ∀ a ∈ d, (HostEvent.act a).polite = true := by
  simp only [HostEvent.polite, List.all_eq_true]
  exact forall₂_congr fun a _ => by cases a <;> exact Iff.rfl

theorem polite_act_of_mem {e : HostEvent} (he : e.polite = true) : ∀ a ∈ e.actions, (HostEvent.act a).polite = true := by
  cases e with
  | act a => nofun
  | command w d => exact polite_command.mp he

/-- In the window of a polite host no write is latched. -/
theorem busyWindow_ovr {d : List HostAct} {s t : State} (hd : ∀ a ∈ d, (HostEvent.act a).polite = true)
    (h : busyWindow d s = .runs t) : t.ovr = s.ovr := by
  induction d generalizing s with
  | nil => cases h; rfl
  | cons a d ih =>
    obtain ⟨ha, hrest⟩ := List.forall_mem_cons.mp hd
    cases a with
    | read off wd =>
      rw [busyWindow] at h
      split at h
      · refine (ih hrest h).trans ?_
        unfold hostRead; split <;> rfl
      · cases h
    | write off wd w =>
      have hoff : off ≠ cmdOffset := by simpa [HostEvent.polite] using ha
      rw [busyWindow, if_neg hoff] at h
      split at h
      · exact ih hrest h
      · cases h
    | take q => exact (ih hrest h).trans (takeFrom_ovr q s)
    | rst => cases h

section
variable {s t u : State} {e : HostEvent} {w : Word}

theorem Accepting.ovr (h : Accepting s w e u) (he : e.polite = true) : u.ovr = s.ovr := by
  cases h with
  | write => rfl
  | window d u h => exact (busyWindow_ovr (polite_command.mp he) h :)
  | noWindow d => rfl

/-- The host's events after a word is accepted are those before, or also what it put back. -/
theorem Accepting.inbox (h : Accepting s w e u) : ∃ as, as ⊆ e.actions ∧ u.inbox = as.map HostEvent.act ++ s.inbox := by
  cases h with
  | write => exact ⟨[], List.nil_subset _, rfl⟩
  | window d u h =>
    refine ⟨[], List.nil_subset _, ?_⟩
    exact busyWindow_runs (P := fun v => v.inbox = s.inbox) (fun _ _ hv => by unfold hostRead; split <;> exact hv)
      (fun _ _ hv => by simpa using hv) (fun q _ hv => by cases q <;> exact hv) h rfl
  | noWindow d => exact ⟨d, List.Subset.refl d, rfl⟩

/-- All the events still to come keep to R270. -/
def PoliteInbox (s : State) : Prop := ∀ e ∈ s.inbox, e.polite = true

theorem PoliteInbox.putBack (hs : PoliteInbox s) (he : e.polite = true) {as : List HostAct} (hsub : as ⊆ e.actions)
    (h : t.inbox = as.map HostEvent.act ++ s.inbox) : PoliteInbox t := by
  intro e' he'
  rw [h, List.mem_append, List.mem_map] at he'
  rcases he' with ⟨a, ha, rfl⟩ | he'
  · exact polite_act_of_mem he a (hsub ha)
  · exact hs e' he'

/-- No write is lost, and none was. -/
structure NothingLost (s : State) : Prop where
  ovr : s.ovr = false
  errCode : s.errCode ≠ .overrun

theorem NothingLost.finish (h : NothingLost s) : NothingLost (finish s) := by
  rw [finish_of_ovr_false h.ovr]
  exact ⟨h.ovr, h.errCode⟩

theorem NothingLost.acceptBody (w : Word) (hs : StatusCore s) (h : NothingLost s) : NothingLost (acceptBody w s) := by
  by_cases he : s.phase = .error
  · rwa [acceptBody_of_error w (hs.pend_of_error he) he]
  refine ⟨acceptBody_ovr w he h.ovr, ?_⟩
  by_cases hbody : (Machine.acceptBody w s).phase = .error
  · obtain ⟨c, info, u, _, hc, e, _⟩ := acceptBody_raises he hbody
    rwa [e]
  · rw [(hs.acceptBody w).errCode_iff.mpr hbody]
    nofun

theorem NothingLost.acceptWord (hs : StatusCore s) (h : NothingLost s) (ht : acceptWord w s = .next t) : NothingLost t := by
  rcases acceptWord_cases w s with ⟨_, _, e⟩ | ⟨_, e⟩ <;> rw [e] at ht <;> cases ht
  · exact ⟨rfl, nofun⟩
  · exact (h.acceptBody w hs).finish

theorem acceptWord_inbox (ht : acceptWord w s = .next t) : t.inbox = s.inbox := by
  rcases acceptWord_cases w s with ⟨_, _, e⟩ | ⟨_, e⟩ <;> rw [e] at ht <;> cases ht
  · rfl
  · rw [finish_inbox, acceptBody_inbox]

/-- An event of a polite host loses no write, and leaves its host polite. -/
theorem EventLeaves.polite (h : EventLeaves s e t) (he : e.polite = true) (hs : StatusCore s) (hl : NothingLost s)
    (hi : PoliteInbox s) : NothingLost t ∧ PoliteInbox t := by
  cases h with
  | ignored => exact ⟨hl, hi⟩
  | latched w hw _ => subst hw; cases he
  | read off => unfold hostRead; split <;> exact ⟨⟨hl.ovr, hl.errCode⟩, hi⟩
  | take q =>
    have htaken : NothingLost (s.takeFrom q) ∧ PoliteInbox (s.takeFrom q) := by cases q <;> exact ⟨⟨hl.ovr, hl.errCode⟩, hi⟩
    unfold hostTake
    split
    · exact ⟨htaken.1.finish, by rw [PoliteInbox, finish_inbox]; exact htaken.2⟩
    · exact htaken
  | reset _ u as hsub => exact ⟨⟨rfl, nofun⟩, hi.putBack he hsub rfl⟩
  | accepted w u t _ hu ht =>
    have hses := hu.session_eq
    have hlu : NothingLost u := ⟨(hu.ovr he).trans hl.ovr, (congrArg State.errCode hses :).trans_ne hl.errCode⟩
    obtain ⟨as, hsub, hin⟩ := hu.inbox
    exact ⟨hlu.acceptWord (hs.of_session hses) ht, hi.putBack he hsub ((acceptWord_inbox ht).trans hin)⟩

/-- What holds between the steps of a polite host's run. -/
structure PoliteRun (s : State) : Prop where
  status : StatusCore s
  lost : NothingLost s
  inbox : PoliteInbox s

theorem step_politeRun (hs : PoliteRun s) (h : step s = .next t) : PoliteRun t := by
  obtain ⟨hst, hlost, hin⟩ := hs
  have hcore := step_statusCore hst h
  rcases step_leaves h with rfl | ⟨e, es, hi, he⟩
  · exact ⟨hst, hlost, hin⟩
  · rw [PoliteInbox, hi, List.forall_mem_cons] at hin
    obtain ⟨hpolite, hes⟩ := hin
    obtain ⟨hl, hp⟩ := he.polite hpolite (hst.of_session (s := s) rfl) ⟨hlost.ovr, hlost.errCode⟩ hes
    exact ⟨hcore, hl, hp⟩

end

/-! ## The statements -/

/-- Settles O48: what a command writes is what its effect writes, since the end of a command writes none of these. -/
theorem eachStateHasItsWriters : Obligations.EachStateHasItsWriters := by
  intro i s t h
  obtain ⟨hfreq, htotal, hcodes, hcur, hbits, hsyms, htable, hmodel⟩ := Wrote.exec h
  exact ⟨hfreq, htotal, hcodes, hcur, hbits, hsyms, htable, hmodel⟩

/-- Settles O47: takes move the head of a queue, GEN, ENC and DEC append, and nothing else of an event touches a stream. -/
theorem streamsOnlyGrow : Obligations.StreamsOnlyGrow := by
  intro s t h hrst
  rcases step_leaves h with rfl | ⟨e, es, hi, he⟩
  · exact ⟨OutStream.Grew.of_eq rfl, OutStream.Grew.of_eq rfl, OutStream.Grew.of_eq rfl⟩
  · obtain ⟨hbits, hsyms, htable⟩ := he.streamsGrew (hrst e es hi)
    exact ⟨hbits, hsyms, htable⟩

/-- Settles O14: the error is raised before any change but TLBITS, PEND and PENDW, or, by a DEC, after the bits before its own. -/
theorem errorsArePrecise : Obligations.ErrorsArePrecise := by
  intro w s t ho _ he h hp
  rcases acceptWord_cases w s with ⟨_, _, e⟩ | ⟨_, e⟩ <;> rw [e] at h <;> cases h
  · cases hp
  rw [finish_of_ovr_false (acceptBody_ovr w he ho)] at hp ⊢
  obtain ⟨c, info, u, hc, _, e, hu⟩ := acceptBody_raises he hp
  rw [e]
  refine ⟨⟨hc, rfl, rfl, rfl⟩, ?session, fun h => ?decoder⟩
  case session => cases hu <;> exact ⟨rfl, rfl, rfl, rfl, rfl, rfl, rfl, rfl, rfl, rfl, rfl, rfl, rfl⟩
  case decoder =>
    cases hu with
    | nothing | buffered _ _ => exact ⟨rfl, rfl, rfl⟩
    | walked hpend hopc _ _ => exact h.elim (fun h => by simp [hpend] at h) (absurd hopc)

/-- Settles O59: by induction on the run: a polite host's events latch no write, and without one latched no command's end raises
OVERRUN. -/
theorem politeHostNeverOverruns : Obligations.PoliteHostNeverOverruns := by
  intro es d n t hes h
  have hreset : PoliteRun { State.reset with inbox := es, depths := d } :=
    ⟨.of_session (s := State.reset) rfl .reset, ⟨rfl, nofun⟩, hes⟩
  have ht : PoliteRun t := run_keeps (M := Sys2Proof.core) (P := PoliteRun) step_politeRun hreset h
  exact ⟨ht.lost.ovr, ht.lost.errCode⟩

end Sys2Proof.Machine
end

section
/-! SUPPORT. BUILD's tree (R140 to R146), GEN's table words (R162 to R164), and what an encode and a decode session find there (R180,
R211). -/

namespace Sys2Proof.Machine

/-- The reserved field of BUILD and of GEN is w[27:0] (R81). -/
theorem reservedZero_iff_of_build_gen {w : Word} (ho : opcOf w = 3 ∨ opcOf w = 4) : reservedZero w ↔ fieldOf w 0 28 = 0 := by
  rw [reservedZero, if_neg (by omega), if_neg (by omega), if_neg (by omega)]

/-- A BUILD or GEN word with a reserved bit set is BAD_CMD. -/
theorem acceptWord_build_gen_reserved {w : Word} {s : State} (hs : s.Ready) (he : s.phase ≠ .error)
    (ho : opcOf w = 3 ∨ opcOf w = 4) (hf : fieldOf w 0 28 ≠ 0) : acceptWord w s = .next (s.raised .badCmd w) :=
  acceptWord_badCmd_ready hs he (by omega) (.inl ((reservedZero_iff_of_build_gen ho).not.mpr hf))

/-! ## BUILD (R140) -/

theorem exec_build {s : State} (hs : s.Ready) (hp : s.phase = .idle ∨ s.phase = .counting) :
    exec .build s = .next { buildEffect s with busy := false } :=
  exec_quiet hs (by decide) rfl (by simpa [legal] using hp) rfl hs.ovr hs.stalled

theorem buildEffect_eq (s : State) : buildEffect s = { s with
    root := buildTree s.freq, nodes := BitVec.ofNat 10 (2 * (countedSymbols s.freq).length - 1), phase := .built } := by
  rw [buildEffect, initialQueue_length]

/-- A full tree with one leaf is that leaf. -/
theorem eq_leaf_of_full {t : HTree} {x : Byte} (hf : t.full = true) (hl : t.leaves = [x]) : t = .leaf x := by
  cases t with
  | empty => cases hf
  | leaf y => cases hl; rfl
  | internal l r =>
    simp only [HTree.full, Bool.and_eq_true] at hf
    obtain ⟨hfl, hfr⟩ := hf
    have hlen : l.leaves.length + r.leaves.length = 1 := by
      simpa [HTree.leaves] using congrArg List.length hl
    have := full_leaves_pos hfl
    have := full_leaves_pos hfr
    omega

/-- TOTAL is the sum of the counts of the counted symbols, the others counting 0. -/
theorem sum_countedSymbols (f : Table Word) : ((countedSymbols f).map fun x => (Table.get f x).toNat).sum = countTotal f := by
  have hfreqs : (initialQueue f).map QEntry.freq = (countedSymbols f).map (Table.get f) := leafEntries_freqs f symbols 0
  calc ((countedSymbols f).map fun x => (Table.get f x).toNat).sum
    _ = (((initialQueue f).map QEntry.freq).map BitVec.toNat).sum := by rw [hfreqs, List.map_map]; rfl
    _ = weightSum (initialQueue f) := by rw [List.map_map]; rfl
    _ = countTotal f := weightSum_initialQueue f

/-- What BUILD makes of a table with a count (R144, R145). -/
theorem buildTree_of_counted {f : Table Word} (h : countedSymbols f ≠ []) :
    (buildTree f).full = true ∧ (buildTree f).leaves.Perm (countedSymbols f) :=
  buildTree_spec (mt initialQueue_nil.mp h)

theorem buildTree_of_one {f : Table Word} {x : Byte} (h : countedSymbols f = [x]) : buildTree f = .leaf x := by
  obtain ⟨hfull, hleaves⟩ := buildTree_of_counted (f := f) (by simp [h])
  rw [h] at hleaves
  exact eq_leaf_of_full hfull (List.perm_singleton.mp hleaves)

/-! ## GEN (R162 to R164) -/

/-- TLOAD's word, its fields put together bit by bit (R81). -/
theorem encode_tload_eq_or (len sym : Byte) :
    encode (.tload len sym) = 0x60000000#32 ||| len.setWidth 32 <<< 8 ||| sym.setWidth 32 := by
  refine BitVec.eq_of_getLsbD_eq fun i hi => ?_
  simp only [encode, BitVec.getLsbD_append, BitVec.getLsbD_or, BitVec.getLsbD_shiftLeft, BitVec.getLsbD_setWidth]
  interval_cases i <;> simp

/-- A table's words: for each entry a header, which is TLOAD's word, and the code; then the TFIN word. -/
theorem tableOut_eq (es : List (Byte × Bits)) : tableOut es =
    es.flatMap (fun e => (0x60000000#32 ||| (BitVec.ofNat 8 e.2.length).setWidth 32 <<< 8 ||| e.1.setWidth 32) :: packCode e.2) ++
      [0x70000000#32] := by
  simp only [tableOut, entryWords, encode_tload_eq_or]
  rfl

theorem tableOut_getLast? (es : List (Byte × Bits)) : (tableOut es).getLast? = some 0x70000000#32 := List.getLast?_concat

theorem tableOut_length (es : List (Byte × Bits)) :
    (tableOut es).length = 1 + (es.map fun e => 1 + (e.2.length + 31) / 32).sum := by
  simp [tableOut, entryWords, List.length_flatMap, dataWords, Nat.add_comm]

theorem genEffect_leaf {s : State} {x : Byte} (hr : s.root = .leaf x) : genEffect s = { s with
    code := Table.set s.code x [false]
    clen := Table.set s.clen x 1#8
    tblOut := s.tblOut.emit [0x60000100#32 ||| x.setWidth 32, 0x00000000#32, 0x70000000#32]
    phase := .coded } := by
  have htable : tableOut [(x, [false])] = [0x60000100#32 ||| x.setWidth 32, 0x00000000#32, 0x70000000#32] := by
    rw [tableOut_eq]
    simp [packCode, dataWords, packWord, bitsToNat]
  rw [genEffect, hr]
  simp only [genEntries, htable]
  rfl

/-! ## The statements -/

/-- Settles O19: BUILD's effect reads F alone, and its queue starts with one entry for each counted symbol. -/
theorem buildMakesTheTree : Obligations.BuildMakesTheTree := by
  refine fun s hs he => ⟨fun hp => ?effect, fun hi hc => ?illegal, fun w ho hf => ?reserved⟩
  case effect => rw [exec_build hs hp, buildEffect_eq]
  case illegal => exact exec_illegal hs he rfl (by simp [legal, hi, hc])
  case reserved => exact acceptWord_build_gen_reserved hs he (.inl ho) hf

/-- Settles O22: the merges give a full tree whose leaves are the counted symbols, and a full tree has as many nodes as its leaves
say. -/
theorem builtTreeShape : Obligations.BuiltTreeShape := by
  intro s hs hp
  refine ⟨_, exec_build hs hp, ?_⟩
  rw [buildEffect_eq]
  refine ⟨fun h0 => ?none, fun x h1 => ?one, fun hne => ?counted⟩
  case none => exact ⟨buildTree_empty (initialQueue_nil.mpr h0), by simp [h0]⟩
  case one => exact ⟨buildTree_of_one h1, by simp [h1]⟩
  case counted =>
    obtain ⟨hfull, hleaves⟩ := buildTree_of_counted hne
    have hpos := List.length_pos_iff.mpr hne
    have hle := countedSymbols_le s.freq
    have hlen := hleaves.length_eq
    have hsize := full_size hfull
    have hnodes : (BitVec.ofNat 10 (2 * (countedSymbols s.freq).length - 1)).toNat = 2 * (countedSymbols s.freq).length - 1 := by
      rw [BitVec.toNat_ofNat]; omega
    refine ⟨hfull, hleaves, (full_internals hfull).trans hlen, ?_, ?_, fun htotal => ?_⟩
    · simp only [hnodes]; omega
    · simp only [hnodes]; omega
    · rw [← htotal, ← sum_countedSymbols]
      exact (hleaves.map _).sum_eq

/-- Settles O24: an entry's header is TLOAD's word. -/
theorem genRecordsAndEmits : Obligations.GenRecordsAndEmits := by
  refine fun s hs he => ⟨fun hp => ⟨genEffect s, exec_gen hs hp, ?effect⟩, fun hp => ?illegal, fun w ho hf => ?reserved⟩
  case effect => rw [genEffect, tableOut_eq]; rfl
  case illegal => exact exec_illegal hs he rfl (by simpa [legal] using hp)
  case reserved => exact acceptWord_build_gen_reserved hs he (.inr ho) hf

/-- Settles O28: the one entry has the code "0". -/
theorem genOfTheSingleLeaf : Obligations.GenOfTheSingleLeaf := by
  intro s x hs hp hr
  refine ⟨_, exec_gen hs hp, ?_⟩
  rw [genEffect_leaf hr]
  exact ⟨Table.get_set_self .., Table.get_set_self .., emit_emitted ..⟩

/-- Settles O29: each entry takes its header and the words of its code, and the entries are the symbols with a code. -/
theorem tableWordCount : Obligations.TableWordCount := by
  intro s hs hp hi
  obtain ⟨hc, ht, hk⟩ := coded_genEffect hp hi
  refine ⟨_, tableOut (genEntries s.root), exec_gen hs hp, emit_emitted .., tableOut_getLast? _, ?_⟩
  rw [tableOut_length]
  exact congrArg (1 + ·) (sum_codedSymbols hc ht hk fun n => 1 + (n + 31) / 32).symm

/-- Settles O33: a counted symbol is a leaf of the encode tree, and its code is the leaf's path, or "0". -/
theorem countedSymbolsHaveCodes : Obligations.CountedSymbolsHaveCodes := by
  intro s x hs hp hi hx
  obtain ⟨_, _, _, coded, _⟩ := (sessionInv_iff s).mp hi
  obtain ⟨hc, ht, hk⟩ := coded hp
  obtain ⟨hcode, _⟩ := hasCode_of_counted hc ht hk hx
  obtain ⟨hclen, hlen⟩ := hcode
  refine ⟨hclen, hlen, _, exec_enc hs hp, ?_⟩
  rw [encodeSymbol_of_clen_ne_zero hclen]
  exact ⟨hp, rfl⟩

/-- Settles O40: the walk along the codes emits their symbols and ends at the root, where DFIN raises no error. -/
theorem codesDecodeToTheirSymbols : Obligations.CodesDecodeToTheirSymbols := by
  intro s bs code hs hp hcur hd hroot hcodes
  have hwalk : walk s.root s.cur (bs.flatMap code) = some (bs, []) := by rw [hcur]; exact walk_codes hroot bs hcodes
  obtain ⟨busy, hrun⟩ := acceptWords_decs (bs.flatMap code) hs hp hd hwalk
  have hready := (hs.afterWalk hd bs []).withBusy busy
  refine ⟨_, _, hrun, emit_emitted .., rfl, ?symcnt, hp, exec_dfin_root hready hp rfl, rfl, rfl⟩
  case symcnt => simp [afterWalk, BitVec.ofNat_add]

end Sys2Proof.Machine
end

section
/-! SUPPORT. The drain of a full queue (R57): a command that waits ends with the take that lets its last item in. -/

namespace Sys2Proof.Machine

/-! ## One take -/

section
variable (q : StreamId) (s : State)

@[simp] theorem takeFrom_depthOf (r : StreamId) : (s.takeFrom q).depthOf r = s.depthOf r := by cases q <;> rfl

theorem takeFrom_queuedCount_self : (s.takeFrom q).queuedCount q = s.queuedCount q - 1 := by
  cases q <;> simp [State.takeFrom, State.queuedCount, take_queued]

theorem takeFrom_queuedCount_ne {r : StreamId} (h : r ≠ q) : (s.takeFrom q).queuedCount r = s.queuedCount r := by
  cases q with
  | bitOut => cases r with
    | bitOut => exact absurd rfl h
    | symOut | tblOut => rfl
  | symOut => cases r with
    | symOut => exact absurd rfl h
    | bitOut | tblOut => rfl
  | tblOut => cases r with
    | tblOut => exact absurd rfl h
    | bitOut | symOut => rfl

theorem takeFrom_emitted : (s.takeFrom q).bitOut.emitted = s.bitOut.emitted ∧ (s.takeFrom q).symOut.emitted = s.symOut.emitted ∧
    (s.takeFrom q).tblOut.emitted = s.tblOut.emitted := by
  cases q <;> simp [State.takeFrom]

end

/-- A command waits exactly when some stream has more items than its queue holds. -/
theorem not_stalled_iff {s : State} : s.stalled = false ↔ ∀ r, Depth.holds (s.depthOf r) (s.queuedCount r) = true := by
  simp only [State.stalled, Bool.not_eq_false', Bool.and_eq_true]
  constructor
  · rintro ⟨⟨hb, hs⟩, ht⟩ r
    cases r
    case bitOut => exact hb
    case symOut => exact hs
    case tblOut => exact ht
  · exact fun h => ⟨⟨h .bitOut, h .symOut⟩, h .tblOut⟩

/-! ## The takes of a waiting command -/

/-- The stream q, of m + 1 places, has k items that wait outside its queue; no other stream makes the command wait, and no write
was lost. -/
structure Draining (q : StreamId) (m k : Nat) (s : State) : Prop where
  ovr : s.ovr = false
  busy : s.busy = s.stalled
  depth : s.depthOf q = .slots m
  count : s.queuedCount q = m + 1 + k
  others : ∀ r, r ≠ q → Depth.holds (s.depthOf r) (s.queuedCount r) = true

section
variable {q : StreamId} {m k : Nat} {s : State}

theorem Draining.busy_eq (h : Draining q m k s) : s.busy = decide (0 < k) := by
  have hq : Depth.holds (s.depthOf q) (s.queuedCount q) = true ↔ k = 0 := by
    rw [h.depth, h.count, Depth.holds, decide_eq_true_eq]
    omega
  have hst : s.stalled = false ↔ k = 0 := by
    rw [not_stalled_iff, ← hq]
    refine ⟨fun hr => hr q, fun hk r => ?_⟩
    by_cases hr : r = q
    · exact hr ▸ hk
    · exact h.others r hr
  rw [h.busy]
  by_cases hk : k = 0
  · rw [hst.mpr hk, hk]; rfl
  · rw [decide_eq_true (Nat.pos_of_ne_zero hk)]
    exact (Bool.not_eq_false _).mp (mt hst.mp hk)

/-- A take of a waiting command. -/
theorem Draining.hostTake_eq (h : Draining q m (k + 1) s) :
    hostTake q s = { s.takeFrom q with busy := (s.takeFrom q).stalled } := by
  have hb : s.busy = true := by rw [h.busy_eq]; rfl
  rw [hostTake, if_pos hb, finish_of_ovr_false (by simpa using h.ovr)]

theorem Draining.hostTake_frame (h : Draining q m (k + 1) s) : (hostTake q s).phase = s.phase ∧
    (hostTake q s).bitOut.emitted = s.bitOut.emitted ∧ (hostTake q s).symOut.emitted = s.symOut.emitted ∧
    (hostTake q s).tblOut.emitted = s.tblOut.emitted := by
  rw [h.hostTake_eq]
  exact ⟨takeFrom_phase q s, takeFrom_emitted q s⟩

theorem Draining.hostTake (h : Draining q m (k + 1) s) : Draining q m k (hostTake q s) := by
  rw [h.hostTake_eq]
  refine ⟨by simpa using h.ovr, rfl, (takeFrom_depthOf q s q).trans h.depth, ?_, fun r hr => ?_⟩
  · exact (takeFrom_queuedCount_self q s).trans (by rw [h.count]; rfl)
  · have hd : Depth.holds ((s.takeFrom q).depthOf r) ((s.takeFrom q).queuedCount r) = true := by
      rw [takeFrom_depthOf, takeFrom_queuedCount_ne q s hr]
      exact h.others r hr
    exact hd

end

/-- The takes that let n of the k waiting items in. -/
theorem Draining.takeMany {q : StreamId} {m k n : Nat} {s : State} (h : Draining q m k s) (hn : n ≤ k) :
    Draining q m (k - n) (takeMany q n s) ∧ (takeMany q n s).phase = s.phase ∧
      (takeMany q n s).bitOut.emitted = s.bitOut.emitted ∧ (takeMany q n s).symOut.emitted = s.symOut.emitted ∧
      (takeMany q n s).tblOut.emitted = s.tblOut.emitted := by
  induction n generalizing k s with
  | zero => exact ⟨h, rfl, rfl, rfl, rfl⟩
  | succ n ih =>
    obtain ⟨k, rfl⟩ := Nat.exists_eq_add_of_le' (Nat.one_le_of_lt hn)
    obtain ⟨hdrain, hphase, hbits, hsyms, htable⟩ := ih h.hostTake (Nat.le_of_succ_le_succ hn)
    obtain ⟨hp, hb, hs, ht⟩ := h.hostTake_frame
    rw [Nat.add_sub_add_right]
    exact ⟨hdrain, hphase.trans hp, hbits.trans hb, hsyms.trans hs, htable.trans ht⟩

/-! ## The statement -/

/-- Settles O49: each take lets one waiting item in, and while one waits BUSY stays. -/
theorem drainingReleasesBusy : Obligations.DrainingReleasesBusy := by
  intro s q m k n hs ho hd hc hk hr hn
  have hdrain : Draining q m k s := ⟨ho, hs.busy, hd, hc, hr⟩
  obtain ⟨htaken, hphase, hbits, hsyms, htable⟩ := hdrain.takeMany hn
  refine ⟨?before, ?after, hphase, ?count, hbits, hsyms, htable⟩
  case before => rw [hdrain.busy_eq, decide_eq_true hk]
  case after => rw [htaken.busy_eq]; exact decide_eq_decide.mpr (by omega)
  case count => rw [htaken.count]; omega

end Sys2Proof.Machine
end
